-- ==== Sys2Proof/Word.lean ====
section
/-! DEFINITION. The widths HUFFCORE gives its quantities (`00_scope.md` R6, R7): names for the bit vectors the spec
treats as words, and nothing else. Bit-sequence helpers stand in `Machine/Bits.lean`. -/

namespace Sys2Proof

/-- A command word, a response data word, `INFO`: `CMDW` = 64 bits (R91, R92, R35). -/
abbrev Word64 := BitVec 64

/-- One frequency count, `CNTW` = 32 bits (R7, R22). -/
abbrev Count := BitVec 32

/-- A node weight, `WW` = `CNTW + 9` = 41 bits (R7, R24). -/
abbrev Weight := BitVec 41

/-- An arena index, `IDXW` = 10 bits, `NIL` included (R7, R24). -/
abbrev Idx := BitVec 10

/-- The symbol field of a node, `SYMW` = 9 bits (R6, R24). -/
abbrev Sym := BitVec 9

/-- A byte of stream data, `BYTEW` = 8 bits (R6). -/
abbrev Byte := BitVec 8

end Sys2Proof
end

