-- ==== Sys2Proof/Config.lean ====
section
/-! DEFINITION. The parameters of `00_scope.md` R6 and R7 as constants. The two OPEN parameters are arguments, as R7 asks:
`MAGIC` is a field of `State` that no command writes (its value at reset is the spec's default, notes/assumptions/2), and
`PAD` is an argument of the byte view of a stream (`Machine/Bits.lean`). Nothing here is a free value: the spec leaves no
result of a command open. -/

namespace Sys2Proof.Config

/-- `ALPH`: the number of byte values (R6). -/
@[reducible, simp] def alph : Nat := 256

/-- `SENT`: the sentinel symbol (R6). -/
@[reducible, simp] def sent : Nat := 256

/-- `NSYM`: symbol slots, 256 byte values and the sentinel (R6). -/
@[reducible, simp] def nsym : Nat := 257

/-- `CNTW`: width of one frequency count (R7). -/
@[reducible, simp] def cntw : Nat := 32

/-- `NNODE`: arena capacity, 257 leaves and 256 internal nodes (R7). -/
@[reducible, simp] def nnode : Nat := 513

/-- `QCAP`: priority-queue capacity (R7). -/
@[reducible, simp] def qcap : Nat := 257

/-- `LMAX`: greatest code length in bits (R7). -/
@[reducible, simp] def lmax : Nat := 256

/-- `NIL` = `0x3FF`, "no node" (R7). -/
@[reducible, simp] def nil : Idx := 0x3FF#10

/-- The number of control registers, 0..9 (R37). -/
@[reducible, simp] def ncsr : Nat := 10

/-- The command-set version `CONFIG` reports in bits 31:25 (R40). -/
@[reducible, simp] def version : Nat := 1

/-- The default of the OPEN parameter `MAGIC` (R7). PRESUMED: the spec itself marks the number as general knowledge;
no statement of the model rests on it (notes/assumptions/2). -/
@[reducible, simp] def defaultMagic : BitVec 32 := 0xFACE8201#32

end Sys2Proof.Config
end

