-- ==== Sys2Proof/Syntax.lean ====
section
/-! DEFINITION. The commands of HUFFCORE, one constructor per row of `spec/opcode_table.json` (`30_encoding.md` R93), the
four fields of a command word (R91) and the two pseudo-instructions (R99). An operand's type is the field it travels in,
so a term cannot hold an operand its field has no room for. -/

namespace Sys2Proof

/-- The 18 commands of R93. `idx` is the `IDX` field, `data` the `DATA` field, `chunk` is `DATA[2:0]` (R96). -/
inductive Instr
  /-- `CLR`: start a call (R200). -/
  | clr
  /-- `RDS idx`: read a control register (R202). -/
  | rds (idx : BitVec 10)
  /-- `FLS`: flush stream OUT (R201). -/
  | fls
  /-- `LDF idx, data`: load one frequency count (R120). -/
  | ldf (idx : BitVec 10) (data : BitVec 32)
  /-- `RDF idx`: read one frequency count (R121). -/
  | rdf (idx : BitVec 10)
  /-- `CNT`: count the bytes of stream IN (R122). -/
  | cnt
  /-- `BLD`: build the tree from the frequency table (R136). -/
  | bld
  /-- `RDN idx`: read a node's kind, symbol and children (R140). -/
  | rdn (idx : BitVec 10)
  /-- `RDW idx`: read a node's weight (R141). -/
  | rdw (idx : BitVec 10)
  /-- `GEN`: generate the code table (R151). -/
  | gen
  /-- `RDC idx, chunk`: read one 32-bit chunk of a symbol's code (R152). -/
  | rdc (idx : BitVec 10) (chunk : BitVec 3)
  /-- `MGW`: write the magic (R160). -/
  | mgw
  /-- `MGR`: read and check the magic (R161). -/
  | mgr
  /-- `HDW`: write the tree to OUT as a header (R163). -/
  | hdw
  /-- `HDR`: read a header from IN into the arena (R168). -/
  | hdr
  /-- `ENC`: encode the bytes of IN and the sentinel to OUT (R181). -/
  | enc
  /-- `DEC`: decode IN to OUT until the sentinel (R185). -/
  | dec
  /-- `DSYM`: decode one symbol (R183). -/
  | dsym
  deriving DecidableEq, Repr

/-- The four fields of a command word (R91). -/
structure Fields where
  /-- bits 63:56 -/
  op : BitVec 8
  /-- bits 55:42, reserved -/
  rsv : BitVec 14
  /-- bits 41:32 -/
  idx : BitVec 10
  /-- bits 31:0 -/
  data : BitVec 32
  deriving DecidableEq, Repr

/-- The four command formats (R95). -/
inductive Format
  /-- `OP` only. -/
  | n
  /-- `OP`, `IDX`. -/
  | i
  /-- `OP`, `IDX`, `DATA`. -/
  | d
  /-- `OP`, `IDX`, `DATA[2:0]`. -/
  | c
  deriving DecidableEq, Repr

/-- The two pseudo-instructions (R99). -/
inductive Pseudo
  | compress
  | decompress
  deriving DecidableEq, Repr

/-- What a pseudo-instruction expands to, the document's data flow spelled in commands (R99). -/
def Pseudo.expand : Pseudo → List Instr
  | .compress => [.clr, .cnt, .bld, .gen, .mgw, .hdw, .enc, .fls]
  | .decompress => [.clr, .mgr, .hdr, .dec, .fls]

end Sys2Proof
end

