-- ==== Sys2Proof/WellFormed.lean ====
section
/-! DEFINITION. When a command word is legal and when a command's operand lies in the space it indexes, written from the
spec's mask-and-match table (`30_encoding.md` R93 to R96) and apart from the decoder, so that the two can be held against
each other. An `Instr` needs no further check: its operands are typed by the fields that carry them. -/

namespace Sys2Proof

/-- One row of the opcode map: the bits a word must have (R93 `match`) where the mask has a 1 (R95 `mask`). -/
structure OpRow where
  mnemonic : String
  fmt : Format
  pattern : Word64
  deriving DecidableEq, Repr

/-- The mask of a format (R95). -/
def Format.mask : Format → Word64
  | .n => 0xFFFFFFFFFFFFFFFF#64
  | .i => 0xFFFFFC00FFFFFFFF#64
  | .d => 0xFFFFFC0000000000#64
  | .c => 0xFFFFFC00FFFFFFF8#64

/-- The opcode map (R93). -/
def opRows : List OpRow :=
  [⟨"CLR", .n, 0x0100000000000000#64⟩, ⟨"RDS", .i, 0x0200000000000000#64⟩, ⟨"FLS", .n, 0x0300000000000000#64⟩,
   ⟨"LDF", .d, 0x1000000000000000#64⟩, ⟨"RDF", .i, 0x1100000000000000#64⟩, ⟨"CNT", .n, 0x1200000000000000#64⟩]
  ++ [⟨"BLD", .n, 0x2000000000000000#64⟩, ⟨"RDN", .i, 0x2100000000000000#64⟩, ⟨"RDW", .i, 0x2200000000000000#64⟩,
   ⟨"GEN", .n, 0x3000000000000000#64⟩, ⟨"RDC", .c, 0x3100000000000000#64⟩, ⟨"MGW", .n, 0x4000000000000000#64⟩]
  ++ [⟨"MGR", .n, 0x4100000000000000#64⟩, ⟨"HDW", .n, 0x4200000000000000#64⟩, ⟨"HDR", .n, 0x4300000000000000#64⟩,
   ⟨"ENC", .n, 0x5000000000000000#64⟩, ⟨"DEC", .n, 0x5100000000000000#64⟩, ⟨"DSYM", .n, 0x5200000000000000#64⟩]

/-- A word selects a row when its masked bits equal the row's pattern (R95). -/
def OpRow.selects (r : OpRow) (w : Word64) : Bool := w &&& r.fmt.mask == r.pattern

/-- A command word is legal when it selects one of the 18 rows, illegal otherwise (R94). -/
def legalWord (w : Word64) : Bool := opRows.any (·.selects w)

/-- The operand-range condition of R96: `IDX` lies in the space the command indexes (`FREQ` and `CODE` 0..256, `NODE`
0..512, control registers 0..9). A command outside it is a legal command that raises `BadOperand` (R221 step 3), so
nothing about encoding depends on this. -/
def Instr.operandInRange : Instr → Bool
  | .rds idx => idx.toNat ≤ 9
  | .ldf idx _ => idx.toNat ≤ 256
  | .rdf idx => idx.toNat ≤ 256
  | .rdn idx => idx.toNat ≤ 512
  | .rdw idx => idx.toNat ≤ 512
  | .rdc idx _ => idx.toNat ≤ 256
  | .clr | .fls | .cnt | .bld | .gen | .mgw | .mgr | .hdw | .hdr | .enc | .dec | .dsym => true

/-- The five read commands, which execute while the block is in error (R222). -/
def Instr.isRead : Instr → Bool
  | .rds _ | .rdf _ | .rdn _ | .rdw _ | .rdc _ _ => true
  | .clr | .fls | .ldf _ _ | .cnt | .bld | .gen | .mgw | .mgr | .hdw | .hdr | .enc | .dec | .dsym => false

end Sys2Proof
end

