-- ==== Sys2Proof/Decode.lean ====
section
/-! DEFINITION. Reading a command word and writing one (`30_encoding.md` R91, R93 to R96). `decode` is total on the 64-bit
words and rejects by name; `encode` is written from the same field layout. -/

namespace Sys2Proof

/-- Why a word is not a command (R94). The machine answers `IllegalCommand` to each. -/
inductive Reject
  /-- `OP` is none of the 18 opcodes. -/
  | unknownOpcode (op : BitVec 8)
  /-- A bit of `RSV` is 1. -/
  | reservedBits (rsv : BitVec 14)
  /-- A field the format does not use is not 0. -/
  | unusedField (fmt : Format)
  deriving DecidableEq, Repr

/-- The four fields of a word, `w[63:56]`, `w[55:42]`, `w[41:32]`, `w[31:0]` (R91). -/
def Fields.ofWord (w : Word64) : Fields where
  op := w.extractLsb' 56 8
  rsv := w.extractLsb' 42 14
  idx := w.extractLsb' 32 10
  data := w.extractLsb' 0 32

/-- The word `{OP, RSV, IDX, DATA}` (R91). -/
def Fields.word (f : Fields) : Word64 := f.op ++ f.rsv ++ f.idx ++ f.data

/-- Whether the fields a format does not use are 0 (R95); `RSV` is checked apart. -/
def Format.unusedZero (f : Fields) : Format → Bool
  | .n => f.idx == 0 && f.data == 0
  | .i => f.data == 0
  | .d => true
  | .c => f.data.extractLsb' 3 29 == 0

/-- The must-be-zero check of a format (R94, R95), then the command. -/
def Fields.check (f : Fields) (fmt : Format) (i : Instr) : Except Reject Instr :=
  if f.rsv = 0 then
    if fmt.unusedZero f then .ok i else .error (.unusedField fmt)
  else .error (.reservedBits f.rsv)

/-- `DATA[2:0]`, the chunk number of format `C` (R96). -/
def Fields.chunk (f : Fields) : BitVec 3 := f.data.extractLsb' 0 3

/-- The opcode map (R93) on the fields of a word. -/
def Fields.decode (f : Fields) : Except Reject Instr :=
  if f.op = 0x01#8 then f.check .n .clr
  else if f.op = 0x02#8 then f.check .i (.rds f.idx)
  else if f.op = 0x03#8 then f.check .n .fls
  else if f.op = 0x10#8 then f.check .d (.ldf f.idx f.data)
  else if f.op = 0x11#8 then f.check .i (.rdf f.idx)
  else if f.op = 0x12#8 then f.check .n .cnt
  else if f.op = 0x20#8 then f.check .n .bld
  else if f.op = 0x21#8 then f.check .i (.rdn f.idx)
  else if f.op = 0x22#8 then f.check .i (.rdw f.idx)
  else if f.op = 0x30#8 then f.check .n .gen
  else if f.op = 0x31#8 then f.check .c (.rdc f.idx f.chunk)
  else if f.op = 0x40#8 then f.check .n .mgw
  else if f.op = 0x41#8 then f.check .n .mgr
  else if f.op = 0x42#8 then f.check .n .hdw
  else if f.op = 0x43#8 then f.check .n .hdr
  else if f.op = 0x50#8 then f.check .n .enc
  else if f.op = 0x51#8 then f.check .n .dec
  else if f.op = 0x52#8 then f.check .n .dsym
  else .error (.unknownOpcode f.op)

/-- `decode : BitVec 64 -> Command | illegal` (R94). -/
def decode (w : Word64) : Except Reject Instr := (Fields.ofWord w).decode

/-- The fields a command is encoded in (R93, R95): every field its format does not use is 0. -/
def Instr.fields : Instr → Fields
  | .clr => ⟨0x01#8, 0, 0, 0⟩
  | .rds idx => ⟨0x02#8, 0, idx, 0⟩
  | .fls => ⟨0x03#8, 0, 0, 0⟩
  | .ldf idx data => ⟨0x10#8, 0, idx, data⟩
  | .rdf idx => ⟨0x11#8, 0, idx, 0⟩
  | .cnt => ⟨0x12#8, 0, 0, 0⟩
  | .bld => ⟨0x20#8, 0, 0, 0⟩
  | .rdn idx => ⟨0x21#8, 0, idx, 0⟩
  | .rdw idx => ⟨0x22#8, 0, idx, 0⟩
  | .gen => ⟨0x30#8, 0, 0, 0⟩
  | .rdc idx chunk => ⟨0x31#8, 0, idx, chunk.setWidth 32⟩
  | .mgw => ⟨0x40#8, 0, 0, 0⟩
  | .mgr => ⟨0x41#8, 0, 0, 0⟩
  | .hdw => ⟨0x42#8, 0, 0, 0⟩
  | .hdr => ⟨0x43#8, 0, 0, 0⟩
  | .enc => ⟨0x50#8, 0, 0, 0⟩
  | .dec => ⟨0x51#8, 0, 0, 0⟩
  | .dsym => ⟨0x52#8, 0, 0, 0⟩

/-- The command word of a command (R91, R93). It is also what `INFO` records for `BadOperand` and `SequenceError`
(`60_exceptions.md` R211): a legal word is the encoding of the command it decodes to. -/
def encode (i : Instr) : Word64 := i.fields.word

/-- The decoder on a row of the opcode table: the table numbers the bits of a command word as R91 does. -/
def decodeTableWord (nbits w : Nat) : Option Instr :=
  match decode (BitVec.ofNat 64 (w % 2 ^ nbits)) with
  | .ok i => some i
  | .error _ => none

/-- A command in the syntax of R98: the mnemonic, then its operands in decimal. -/
def Instr.asm : Instr → String
  | .clr => "CLR"
  | .rds idx => "RDS " ++ toString idx.toNat
  | .fls => "FLS"
  | .ldf idx data => "LDF " ++ toString idx.toNat ++ ", " ++ toString data.toNat
  | .rdf idx => "RDF " ++ toString idx.toNat
  | .cnt => "CNT"
  | .bld => "BLD"
  | .rdn idx => "RDN " ++ toString idx.toNat
  | .rdw idx => "RDW " ++ toString idx.toNat
  | .gen => "GEN"
  | .rdc idx chunk => "RDC " ++ toString idx.toNat ++ ", " ++ toString chunk.toNat
  | .mgw => "MGW"
  | .mgr => "MGR"
  | .hdw => "HDW"
  | .hdr => "HDR"
  | .enc => "ENC"
  | .dec => "DEC"
  | .dsym => "DSYM"

end Sys2Proof
end

