-- ==== Sys2Proof/Machine/Bits.lean ====
section
/-! DEFINITION. Bit sequences (`00_scope.md` R8) and the byte view of a stream (`20_memory.md` R69). A bit is a `Bool`;
the first element of a sequence is the first bit on a stream. -/

namespace Sys2Proof.Machine

/-- `msb_n(v)`: the `n` bits of `v`, most significant first (R8). -/
def msbBits {n : Nat} (v : BitVec n) : List Bool := (List.range n).map v.getMsbD

/-- `val(s)`: the unsigned number whose binary digits, most significant first, are `s` (R8). -/
def bitsVal (s : List Bool) : Nat := s.foldl (fun acc b => 2 * acc + b.toNat) 0

/-- A sequence of bytes as a stream: stream bit `k` is bit `7 - (k mod 8)` of byte `k div 8` (R69). -/
def bitsOfBytes (bs : List Byte) : List Bool := bs.flatMap msbBits

/-- The bytes of a stream, the last one completed with the bit `pad` (R66, R69; `PAD` of R7 is an argument). -/
def bytesOfBits (pad : Bool) : List Bool → List Byte
  | [] => []
  | b7 :: b6 :: b5 :: b4 :: b3 :: b2 :: b1 :: b0 :: rest =>
    BitVec.ofNat 8 (bitsVal [b7, b6, b5, b4, b3, b2, b1, b0]) :: bytesOfBits pad rest
  | tail => [BitVec.ofNat 8 (bitsVal ((tail ++ List.replicate 8 pad).take 8))]

end Sys2Proof.Machine
end

