-- ==== Sys2Proof/Machine/State.lean ====
section
/-! DEFINITION. Everything the spec gives the machine, as plain data: the tables and registers of `10_state.md`, the
response port of `30_encoding.md` R90, the two streams of `20_memory.md` R61 and R64 (the environment), and what the host
does next at the ports (the environment). The state after reset is R46's table. -/

namespace Sys2Proof.Machine

/-- The `kind` field of a node (R24): `LEAF` = 1, `INT` = 0; the bit is `NodeKind.code`. -/
inductive NodeKind
  | int
  | leaf
  deriving DecidableEq, Repr

/-- One entry of the node arena (R24). -/
structure Node where
  kind : NodeKind
  sym : Sym
  left : Idx
  right : Idx
  weight : Weight
  deriving DecidableEq, Repr

/-- One entry of the priority queue `PQ` (R26). -/
structure QEntry where
  weight : Weight
  seq : BitVec 10
  node : Idx
  deriving DecidableEq, Repr

/-- One entry of the code table (R27): `bits` is the code, its first element the first edge from the root,
`false` = '0' = left. -/
structure CodeEntry where
  valid : Bool
  len : BitVec 9
  bits : List Bool
  deriving DecidableEq, Repr

/-- The entry of a symbol without a code (R27). -/
def CodeEntry.invalid : CodeEntry := ⟨false, 0, []⟩

/-- An item of stream OUT: a bit or the marker `FLUSH` (R64). -/
inductive OutItem
  | bit (b : Bool)
  | flush
  deriving DecidableEq, Repr

/-- One stream operation a command performed, in the order it performed them (R68: a command's stream operations are an
ordered list of effects). `codeBit` is one bit of `OutBits`, which the hardware may issue as any number of writes (R65). -/
inductive StreamOp
  /-- `InRead(n)` (R62). -/
  | read (n : Nat)
  /-- `InRewind()` (R63). -/
  | rewind
  /-- `OutWrite(n, v)`, the bits `msb_n(v)` (R65). -/
  | write (bits : List Bool)
  /-- One bit of `OutBits(s)` (R65). -/
  | codeBit (b : Bool)
  /-- `OutFlush()` (R66). -/
  | flush
  deriving DecidableEq, Repr

/-- A response: `rsp_status[7:0]`, `rsp_data[63:0]` (R92). -/
structure Response where
  status : BitVec 8
  data : Word64
  deriving DecidableEq, Repr

/-- What the host does at the ports, one entry per action, in the order the host does them (R90, R250, R251, R254). -/
inductive HostEvent
  /-- Present a command word on the command port, held until it is accepted (R90). -/
  | command (w : Word64)
  /-- Take the response that is offered: `rsp_ready` = 1 (R90). -/
  | takeResponse
  /-- `rst` sampled 1 while no command is executing (R250). -/
  | reset
  /-- Present a command word and reset the block while it executes, after the command's first `k` stream operations
  (R251). -/
  | resetDuring (w : Word64) (k : Nat)
  /-- Attach streams: IN with its cursor, and OUT with what it already holds (R67, R254). -/
  | attach (inBits : List Bool) (inPos : Nat) (outItems : List OutItem)
  deriving DecidableEq, Repr

/-- The eleven fault causes (R211); the codes are `Cause.code`. They are recorded in `CAUSE` by a NEXT state, and are not
the stops of `Fault` below. -/
inductive Cause
  | badMagic
  | truncatedHeader
  | truncatedBody
  | illegalCommand
  | badOperand
  | sequenceError
  | countOverflow
  | badSymbol
  | treeOverflow
  | degenerateTree
  | missingCode
  deriving DecidableEq, Repr

/-- The machine's state. Field by field: the block (`freq` to `magic`), its response port (`rsp`), the environment's two
streams (`inBits`, `inPos`, `outItems`), the record of stream operations (`ops`, the model's own) and the host's coming
actions (`host`, environment). `NN` (R34) is the length of `nodes`; `QLEN`, `STATUS`, `CONFIG` and the pins `busy`, `err`
are read from these fields. -/
structure State where
  /-- `FREQ[0..255]` (R22); `FREQ[256]` is hardwired to 1 (R23) and has no storage. -/
  freq : Vector Count 256
  /-- `NODE[0 .. NN-1]`, the allocated entries of the arena (R24); `NN` is its length. -/
  nodes : List Node
  /-- `PQ` (R26), in order of insertion. -/
  pq : List QEntry
  /-- `SEQ` (R38). -/
  seq : BitVec 10
  /-- `CODE[0..256]` (R27). -/
  code : Vector CodeEntry 257
  /-- `CODE_OK` (R28). -/
  codeOk : Bool
  /-- `DONE` (R29). -/
  done : Bool
  /-- `ROOT` (R30). -/
  root : Idx
  /-- `CUR` (R32). -/
  cur : Idx
  /-- `CAUSE` (R33). -/
  cause : BitVec 5
  /-- `INFO` (R35). -/
  info : Word64
  /-- The parameter `MAGIC` this block was built with, control register 9 (R7, R37); nothing writes it. -/
  magic : BitVec 32
  /-- The response port: the response offered and not yet taken (R90). -/
  rsp : Option Response
  /-- `IN.bits` (R61), environment. -/
  inBits : List Bool
  /-- `IN.pos` (R61), environment. -/
  inPos : Nat
  /-- `OUT.items` (R64), environment. -/
  outItems : List OutItem
  /-- The stream operations of the command accepted last, oldest first (R68); the model's own record. -/
  ops : List StreamOp
  /-- The host's coming actions, next first; environment. -/
  host : List HostEvent
  deriving DecidableEq, Repr

/-- Where the model stops because the spec gives a state no meaning. -/
inductive Fault
  /-- Raised by `GEN`, `HDW`, `DEC` and `DSYM` when a walk of the arena follows an index that is not allocated, or does not
  end: the tree invariant R25 does not hold, which no command leaves behind. Safe: the spec describes no such state. -/
  | brokenArena
  deriving DecidableEq, Repr

/-- Why the model gives an instruction no meaning. -/
inductive Refusal
  /-- An arm of `exec` that has no meaning yet; no arm uses it. Safe. -/
  | notModelled (mnemonic : String)
  deriving DecidableEq, Repr

/-- The state after reset (R46). The streams and the host's actions belong to the environment (R67): none attached, none
pending (notes/assumptions/1). `magic` is the default of the parameter (notes/assumptions/2). -/
def State.reset : State where
  freq := Vector.replicate 256 0
  nodes := []
  pq := []
  seq := 0
  code := Vector.replicate 257 CodeEntry.invalid
  codeOk := false
  done := false
  root := Config.nil
  cur := Config.nil
  cause := 0
  info := 0
  magic := Config.defaultMagic
  rsp := none
  inBits := []
  inPos := 0
  outItems := []
  ops := []
  host := []

/-- The outcome of one step. -/
abbrev StepResult := Host.Outcome State Fault Refusal

/-- How a piece of a command ends: with a value, or at a `raise X(info)` with the state the raise leaves (R9, R220), or in a
state the spec gives no meaning. -/
inductive Exec (α : Type) where
  | ok (a : α) (s : State)
  | raised (c : Cause) (info : Word64) (s : State)
  | stuck (f : Fault)
  deriving DecidableEq, Repr

end Sys2Proof.Machine
end

