-- ==== Sys2Proof/Machine/Ops.lean ====
section
/-! DEFINITION. The named operations over the machine's state: tables, arena, priority queue, code table, the four stream
primitives (`20_memory.md` R62 to R66), responses (`30_encoding.md` R92), fault entry, refusal and the way out of the error
state (`60_exceptions.md` R220 to R223), and reset (`70_reset_and_hazards.md` R250). -/

namespace Sys2Proof.Machine

/-! ## Frequency table -/

/-- `FREQ[i]` for a symbol `i` of 0..256: stored for 0..255, hardwired to 1 for the sentinel (R22, R23). No command reads
an `i` above 256 (R96). -/
def State.freqAt (s : State) (i : Nat) : Count := s.freq[i]?.getD 1

/-- `FREQ[i] <- v`; a write to `FREQ[256]` changes nothing (R23). -/
def State.setFreq (i : Nat) (v : Count) (s : State) : State := { s with freq := s.freq.setIfInBounds i v }

/-- `for s in 0..255: FREQ[s] <- 0` (R122, R200). -/
def State.clearFreq (s : State) : State := { s with freq := Vector.replicate 256 0 }

/-! ## Node arena -/

/-- `NN`, the number of allocated arena entries (R34). -/
def State.nn (s : State) : Idx := BitVec.ofNat 10 s.nodes.length

/-- `NODE[i]`, when entry `i` is allocated (R24). -/
def State.nodeAt (s : State) (i : Idx) : Option Node := s.nodes[i.toNat]?

/-- A leaf record: `left` = `right` = `NIL` (R24). -/
def Node.mkLeaf (sym : Sym) (weight : Weight) : Node := ⟨.leaf, sym, Config.nil, Config.nil, weight⟩

/-- An internal record: `sym` = 0 (R24). -/
def Node.mkInt (left right : Idx) (weight : Weight) : Node := ⟨.int, 0, left, right, weight⟩

/-- `i := NN; NN <- NN + 1; NODE[i] <- n`, the entry allocated being `s.nn` (R34). -/
def State.allocNode (n : Node) (s : State) : State := { s with nodes := s.nodes ++ [n] }

/-- `NODE[i] <- n` for an allocated `i`. -/
def State.setNode (i : Idx) (n : Node) (s : State) : State := { s with nodes := s.nodes.set i.toNat n }

/-- `NODE[i].left <- c` for an allocated `i`. -/
def State.setLeft (i c : Idx) (s : State) : State :=
  { s with nodes := s.nodes.modify i.toNat (fun n => { n with left := c }) }

/-- `NODE[i].right <- c` for an allocated `i`. -/
def State.setRight (i c : Idx) (s : State) : State :=
  { s with nodes := s.nodes.modify i.toNat (fun n => { n with right := c }) }

/-- `NN <- 0`: no entry is allocated (R24). -/
def State.dropArena (s : State) : State := { s with nodes := [] }

/-! ## Priority queue -/

/-- Whether entry `a` precedes entry `b`: less weight, or equal weight and less sequence number, both unsigned (R132). -/
def QEntry.before (a b : QEntry) : Bool := a.weight.ult b.weight || (a.weight == b.weight && a.seq.ult b.seq)

/-- `Insert(PQ, (weight, SEQ, node)); SEQ <- SEQ + 1` (R132). -/
def State.insertQueue (weight : Weight) (node : Idx) (s : State) : State :=
  { s with pq := s.pq ++ [⟨weight, s.seq, node⟩], seq := s.seq + 1 }

/-- `ExtractMin`: the minimum entry and the queue without it (R132). -/
def extractMin : List QEntry → Option (QEntry × List QEntry)
  | [] => none
  | e :: es =>
    match extractMin es with
    | none => some (e, [])
    | some (m, rest) => if m.before e then some (m, e :: rest) else some (e, es)

/-! ## Code table -/

/-- `CODE[i]` for a symbol `i` of 0..256 (R27). -/
def State.codeAt (s : State) (i : Nat) : CodeEntry := s.code[i]?.getD CodeEntry.invalid

/-- The entry that records the path `p`: `(valid 1, len |p|, bits p)` (R151). -/
def CodeEntry.ofPath (p : List Bool) : CodeEntry := ⟨true, BitVec.ofNat 9 p.length, p⟩

/-- `CODE[i] <- (valid 1, len |p|, bits p)` (R151). -/
def State.setCode (i : Nat) (p : List Bool) (s : State) : State :=
  { s with code := s.code.setIfInBounds i (CodeEntry.ofPath p) }

/-- `for s in 0..256: CODE[s] <- (valid 0, len 0, bits "")` (R136, R151, R168, R200). -/
def State.clearCode (s : State) : State := { s with code := Vector.replicate 257 CodeEntry.invalid }

/-! ## The tree and what is derived from it -/

/-- What `CLR`, `BLD` and `HDR` all begin with: the tree, the walker's place, the code table and the two flags are
discarded (R136, R168, R200). -/
def State.discardTree (s : State) : State :=
  { s.dropArena.clearCode with root := Config.nil, cur := Config.nil, codeOk := false, done := false }

/-! ## Streams -/

/-- `InRead(n)`: the next `n` bits as a number, most significant first, or `none` for `EOS` with nothing consumed
(R62). -/
def State.inRead (n : Nat) (s : State) : Option (BitVec n) × State :=
  if s.inPos + n ≤ s.inBits.length then
    (some (BitVec.ofNat n (bitsVal ((s.inBits.drop s.inPos).take n))),
      { s with inPos := s.inPos + n, ops := s.ops ++ [.read n] })
  else (none, { s with ops := s.ops ++ [.read n] })

/-- `InRewind()` (R63). -/
def State.inRewind (s : State) : State := { s with inPos := 0, ops := s.ops ++ [.rewind] }

/-- `OutWrite(n, v)`: append `msb_n(v)` (R65). -/
def State.outWrite {n : Nat} (v : BitVec n) (s : State) : State :=
  { s with outItems := s.outItems ++ (msbBits v).map .bit, ops := s.ops ++ [.write (msbBits v)] }

/-- `OutBits(p)`: append the bit sequence `p` in order (R65). -/
def State.outBits (p : List Bool) (s : State) : State :=
  { s with outItems := s.outItems ++ p.map .bit, ops := s.ops ++ p.map .codeBit }

/-- `OutFlush()`: append the marker `FLUSH` (R66). -/
def State.outFlush (s : State) : State :=
  { s with outItems := s.outItems ++ [.flush], ops := s.ops ++ [.flush] }

/-- `OUT.bits`: the items without the markers (R64). -/
def outBitsOf (items : List OutItem) : List Bool :=
  items.filterMap fun
    | .bit b => some b
    | .flush => none

/-- The effect on the streams of one recorded operation. -/
def StreamOp.apply (op : StreamOp) (s : State) : State :=
  match op with
  | .read n => (s.inRead n).2
  | .rewind => s.inRewind
  | .write bits => { s with outItems := s.outItems ++ bits.map .bit, ops := s.ops ++ [.write bits] }
  | .codeBit b => s.outBits [b]
  | .flush => s.outFlush

/-- The effect of a list of recorded operations, in order (R68). -/
def replay (ops : List StreamOp) (s : State) : State := ops.foldl (fun t op => op.apply t) s

/-! ## Responses, fault entry, refusal -/

/-- The code of a cause (R211): what `CAUSE` latches. -/
def Cause.code : Cause → BitVec 5
  | .badMagic => 1
  | .truncatedHeader => 2
  | .truncatedBody => 3
  | .illegalCommand => 4
  | .badOperand => 5
  | .sequenceError => 6
  | .countOverflow => 7
  | .badSymbol => 8
  | .treeOverflow => 9
  | .degenerateTree => 10
  | .missingCode => 11

/-- The class **malformed**, the document's one error kind (R212). -/
def Cause.malformed : Cause → Bool
  | .badMagic | .truncatedHeader | .truncatedBody | .badSymbol | .treeOverflow | .degenerateTree => true
  | .illegalCommand | .badOperand | .sequenceError | .countOverflow | .missingCode => false

/-- `respond(data)`: the command ends normally, status `OK` = 0 (R9, R92). -/
def State.respond (data : Word64) (s : State) : State := { s with rsp := some ⟨0, data⟩ }

/-- `raise X(info)`, fault entry (R220): the first fault since `CLR` or reset is latched in `CAUSE` and `INFO`, a later one
changes neither; the response carries the code of `X` and no data. -/
def State.raise (c : Cause) (info : Word64) (s : State) : State :=
  if s.cause = 0#5 then { s with cause := c.code, info := info, rsp := some ⟨c.code.setWidth 8, 0⟩ }
  else { s with rsp := some ⟨c.code.setWidth 8, 0⟩ }

/-- The refusal `ErrSticky` (R222): nothing but the response, status `0x0C`. -/
def State.refuse (s : State) : State := { s with rsp := some ⟨0x0C, 0⟩ }

/-- R221 step 2: while the block is in error (`CAUSE != 0`, R33) the command is refused. -/
def unlessInError (s : State) (o : StepResult) : StepResult := if s.cause = 0#5 then o else .next s.refuse

/-- The end of a command: respond, or fault entry, or the stop. -/
def Exec.finish : Exec Word64 → StepResult
  | .ok d s => .next (s.respond d)
  | .raised c info s => .next (s.raise c info)
  | .stuck f => .fault f

/-! ## Leaving the error state: `CLR` and reset -/

/-- Every piece of the block's state at its reset value (R46, R200), which is also how the error state is left (R223);
the constant `MAGIC`, the streams and the host's actions are not the block's to clear (R67, R260). -/
def State.clearBlock (s : State) : State :=
  { s.clearFreq.discardTree with seq := 0, pq := [], cause := 0, info := 0 }

/-- Reset (R250): the state `CLR` gives, and no response pending. -/
def State.resetBlock (s : State) : State := { s.clearBlock with rsp := none }

end Sys2Proof.Machine
end

