-- ==== Sys2Proof/Machine/Flags.lean ====
section
/-! DEFINITION. The status flags, `STATUS`, and the pins that show them (`10_state.md` R31, R33, R36, R44). -/

namespace Sys2Proof.Machine

/-- `STATUS.ERR` and the `err` pin: `CAUSE != 0` (R33, R44). -/
def State.err (s : State) : Bool := s.cause != 0

/-- `STATUS.TREE_OK`: `ROOT != NIL` (R31). -/
def State.treeOk (s : State) : Bool := s.root != Config.nil

/-- `STATUS` (R36): bit 0 `ERR`, bit 1 `TREE_OK`, bit 2 `CODE_OK`, bit 3 `DONE`, the rest 0. -/
def State.statusWord (s : State) : Word64 :=
  0#60 ++ BitVec.ofBool s.done ++ BitVec.ofBool s.codeOk ++ BitVec.ofBool s.treeOk ++ BitVec.ofBool s.err

/-- The `busy` pin between two steps: 1 until the response has been delivered (R44). A command is accepted, executed and
answered within one step. -/
def State.busy (s : State) : Bool := s.rsp.isSome

/-- `cmd_ready`: 0 until the response has been taken (R90). -/
def State.cmdReady (s : State) : Bool := s.rsp.isNone

/-- The precondition of `GEN` and `HDW` (R221 step 4): the block holds a tree. -/
def State.hasTree (s : State) : Bool := s.treeOk

/-- The precondition of `DEC` and `DSYM` (R184, R221 step 4). -/
def State.mayDecode (s : State) : Bool := s.treeOk && !s.done

end Sys2Proof.Machine
end

