-- ==== Sys2Proof/Machine/Operands.lean ====
section
/-! DEFINITION. Operands: the range checks of `30_encoding.md` R96, the control-register file of `10_state.md` R37, the
response layouts of R92, and the two ways a command stops before it starts (`60_exceptions.md` R221 steps 3 and 4). -/

namespace Sys2Proof.Machine

/-- `IDX` as a symbol, `FREQ` and `CODE`: 0..256 (R96). -/
def symInRange (idx : Idx) : Bool := idx.toNat ≤ 256

/-- `IDX` as an arena index: 0..512 (R96). -/
def nodeInRange (idx : Idx) : Bool := idx.toNat ≤ 512

/-- `IDX` as a control-register number: 0..9 (R37, R96). -/
def csrInRange (idx : Idx) : Bool := idx.toNat ≤ 9

/-- R221 step 3: the command raises `BadOperand` with its own word when the operand is out of range (R211). -/
def withOperand (inRange : Bool) (i : Instr) (s : State) (o : StepResult) : StepResult :=
  if inRange then o else .next (s.raise .badOperand (encode i))

/-- R221 step 4: the command raises `SequenceError` with its own word when its precondition fails (R211). -/
def withPrecondition (holds : Bool) (i : Instr) (s : State) (o : StepResult) : StepResult :=
  if holds then o else .next (s.raise .sequenceError (encode i))

/-- `CONFIG` (R40): `CNTW` in bits 5:0, `NNODE` in 15:6, `LMAX` in 24:16, the command-set version in 31:25. -/
def configWord : BitVec 32 :=
  BitVec.ofNat 7 Config.version ++ BitVec.ofNat 9 Config.lmax ++ BitVec.ofNat 10 Config.nnode ++ BitVec.ofNat 6 Config.cntw

/-- `zext_64(CSR[n])` (R37, R202); numbers from 10 are never read. -/
def State.csr (s : State) (n : Nat) : Word64 :=
  match n with
  | 0 => s.statusWord
  | 1 => s.cause.setWidth 64
  | 2 => s.info
  | 3 => s.root.setWidth 64
  | 4 => s.nn.setWidth 64
  | 5 => s.cur.setWidth 64
  | 6 => BitVec.ofNat 64 s.pq.length
  | 7 => s.seq.setWidth 64
  | 8 => configWord.setWidth 64
  | 9 => s.magic.setWidth 64
  | _ => 0

/-- The bit of a node's kind (R24). -/
def NodeKind.code : NodeKind → BitVec 1
  | .int => 0
  | .leaf => 1

/-- The data of `RDN` for an allocated node (R92, R140). -/
def Node.record (n : Node) : Word64 := 0#33 ++ n.right ++ n.left ++ n.sym ++ n.kind.code ++ 1#1

/-- The data of `RDW` for an allocated node (R92, R141). -/
def Node.weightRecord (n : Node) : Word64 := 1#1 ++ 0#22 ++ n.weight

/-- Chunk `c` of a code: bit `31 - j` is `bits[32c + j]` where `32c + j < len`, and 0 otherwise (R152). -/
def CodeEntry.chunk (e : CodeEntry) (c : BitVec 3) : BitVec 32 :=
  BitVec.ofNat 32 (bitsVal ((List.range 32).map fun j =>
    decide (32 * c.toNat + j < e.len.toNat) && e.bits.getD (32 * c.toNat + j) false))

/-- The data of `RDC` (R92, R152). -/
def CodeEntry.record (e : CodeEntry) (c : BitVec 3) : Word64 :=
  BitVec.ofBool e.valid ++ 0#22 ++ e.len ++ e.chunk c

/-- The data of `DSYM` (R92, R183): bit 9 is `END`, bits 8:0 the symbol. -/
def symbolRecord (sym : Sym) : Word64 := 0#54 ++ BitVec.ofBool (sym == 256#9) ++ sym

end Sys2Proof.Machine
end

