-- ==== Sys2Proof/Machine/Tree.lean ====
section
/-! DEFINITION. The tree the arena holds, `tree(i)` (`10_state.md` R25), and what is read off it: the codes
(`42_code_table.md` R150) and the header (`43_header.md` R162). -/

namespace Sys2Proof.Machine

/-- A tree as a value (R25). -/
inductive CodeTree
  | leaf (sym : Sym) (weight : Weight)
  | node (left right : CodeTree) (weight : Weight)
  deriving DecidableEq, Repr

/-- `tree(i)` (R25), the first argument bounding the depth of the walk; `none` when the walk meets an index that is not
allocated or goes deeper. -/
def treeAt (nodes : List Node) : Nat → Idx → Option CodeTree
  | 0, _ => none
  | depth + 1, i =>
    match nodes[i.toNat]? with
    | none => none
    | some n =>
      match n.kind with
      | .leaf => some (.leaf n.sym n.weight)
      | .int =>
        match treeAt nodes depth n.left, treeAt nodes depth n.right with
        | some l, some r => some (.node l r n.weight)
        | _, _ => none

/-- `tree(ROOT)`. A tree of `NN` nodes is at most `NN` levels deep. -/
def State.tree (s : State) : Option CodeTree := treeAt s.nodes s.nodes.length s.root

/-- `codes(t, p)`: the (symbol, path) pairs in the order the walk records them (R150). -/
def CodeTree.codes : CodeTree → List Bool → List (Sym × List Bool)
  | .leaf sym _, p => [(sym, p)]
  | .node l r _, p => l.codes (p ++ [false]) ++ r.codes (p ++ [true])

/-- `hdr(t)` (R162). -/
def CodeTree.hdr : CodeTree → List Bool
  | .leaf sym _ => true :: msbBits sym
  | .node l r _ => false :: (l.hdr ++ r.hdr)

/-- The number of leaves, `k` in R100 and R162. -/
def CodeTree.leaves : CodeTree → Nat
  | .leaf _ _ => 1
  | .node l r _ => l.leaves + r.leaves

/-- The depth of the deepest leaf (R25 item 5). -/
def CodeTree.depth : CodeTree → Nat
  | .leaf _ _ => 0
  | .node l r _ => max l.depth r.depth + 1

/-- The weight of the root of a tree. -/
def CodeTree.weight : CodeTree → Weight
  | .leaf _ w => w
  | .node _ _ w => w

/-- The tree with every weight 0, which is what reading its header gives (R166, R170). -/
def CodeTree.unweighted : CodeTree → CodeTree
  | .leaf sym _ => .leaf sym 0
  | .node l r _ => .node l.unweighted r.unweighted 0

/-- The symbols of the leaves, left to right. -/
def CodeTree.syms : CodeTree → List Sym
  | .leaf sym _ => [sym]
  | .node l r _ => l.syms ++ r.syms

end Sys2Proof.Machine
end

