-- ==== Sys2Proof/Machine/Body.lean ====
section
/-! DEFINITION. The body codec: `ENC`, `DSYM`, `DEC` (`44_body.md` R181 to R185). -/

namespace Sys2Proof.Machine

/-- Emit the code of symbol `v`, or raise `MissingCode` (R181). -/
def encodeSymbol (v : Nat) (s : State) : Exec Word64 :=
  if (s.codeAt v).valid then .ok 0 (s.outBits (s.codeAt v).bits)
  else .raised .missingCode (BitVec.ofNat 64 v) s

/-- The loop of `ENC` (R181): one byte a turn until `EOS`. The first argument bounds the turns: a loop over `n` bits ends
within `n / 8 + 1`. -/
def encodeLoop : Nat → State → Exec Word64
  | 0, s => .ok 0 s
  | fuel + 1, s =>
    match s.inRead 8 with
    | (none, s) => .ok 0 s
    | (some v, s) =>
      match encodeSymbol v.toNat s with
      | .ok _ s => encodeLoop fuel s
      | .raised c info s => .raised c info s
      | .stuck f => .stuck f

/-- The body of `ENC` (R181): rewind, the bytes of IN, then the sentinel. -/
def encodeBody (s : State) : Exec Word64 :=
  match encodeLoop (s.inBits.length / 8 + 1) s.inRewind with
  | .ok _ s => encodeSymbol Config.sent s
  | .raised c info s => .raised c info s
  | .stuck f => .stuck f

/-- `ENC` (R181). -/
def execEnc (s : State) : StepResult :=
  unlessInError s (withPrecondition s.codeOk .enc s (encodeBody s).finish)

/-- The child one walker transition moves to (R182). -/
def Node.child (n : Node) (b : BitVec 1) : Idx := if b = 0#1 then n.left else n.right

/-- The walk of R183 from `CUR` to a leaf, whose symbol it answers: one bit a transition. The first argument bounds the
transitions: each consumes a bit, so one more than the bits of IN is enough. -/
def walkToLeaf : Nat → State → Exec Sym
  | 0, s => .raised .truncatedBody (s.cur.setWidth 64) s
  | fuel + 1, s =>
    match s.inRead 1 with
    | (none, s) => .raised .truncatedBody (s.cur.setWidth 64) s
    | (some b, s) =>
      match s.nodeAt s.cur with
      | none => .stuck .brokenArena
      | some n =>
        match s.nodeAt (n.child b) with
        | none => .stuck .brokenArena
        | some m =>
          match m.kind with
          | .leaf => .ok m.sym { s with cur := n.child b }
          | .int => walkToLeaf fuel { s with cur := n.child b }

/-- The body of `DSYM` from `CUR <- ROOT` on (R183): halt at the sentinel's leaf, else emit the byte and go back to the
root. -/
def decodeOne (s : State) : Exec Sym :=
  match walkToLeaf (s.inBits.length + 1) { s with cur := s.root } with
  | .ok sym s =>
    if sym = 256#9 then .ok sym { s with done := true }
    else .ok sym { s.outWrite (sym.setWidth 8) with cur := s.root }
  | .raised c info s => .raised c info s
  | .stuck f => .stuck f

/-- The body of `DSYM` with its response (R183). -/
def decodeSymbol (s : State) : Exec Word64 :=
  match decodeOne s with
  | .ok sym s => .ok (symbolRecord sym) s
  | .raised c info s => .raised c info s
  | .stuck f => .stuck f

/-- `DSYM` (R183). -/
def execDsym (s : State) : StepResult :=
  unlessInError s (withPrecondition s.mayDecode .dsym s (decodeSymbol s).finish)

/-- The loop of `DEC` (R185): the body of `DSYM` until `DONE` = 1. Each turn consumes a bit, so one more than the bits of IN
bounds the turns. -/
def decodeLoop : Nat → State → Exec Word64
  | 0, s => .raised .truncatedBody (s.cur.setWidth 64) s
  | fuel + 1, s =>
    match decodeOne s with
    | .ok _ s => if s.done then .ok 0 s else decodeLoop fuel s
    | .raised c info s => .raised c info s
    | .stuck f => .stuck f

/-- `DEC` (R185). -/
def execDec (s : State) : StepResult :=
  unlessInError s (withPrecondition s.mayDecode .dec s (decodeLoop (s.inBits.length + 1) s).finish)

end Sys2Proof.Machine
end

