-- ==== Sys2Proof/Machine/CodeTable.lean ====
section
/-! DEFINITION. The code-table generator: `GEN`, `RDC` (`42_code_table.md` R150 to R152). -/

namespace Sys2Proof.Machine

/-- Record the pairs in list order; a later pair overwrites an earlier one (R151). -/
def recordCodes (pairs : List (Sym × List Bool)) (s : State) : State :=
  pairs.foldl (fun t p => t.setCode p.1.toNat p.2) s

/-- The body of `GEN` for the tree in the arena (R151). -/
def generateCodes (t : CodeTree) (s : State) : State :=
  { recordCodes (t.codes []) { s with codeOk := false }.clearCode with codeOk := true }

/-- `GEN` (R151). -/
def execGen (s : State) : StepResult :=
  unlessInError s (withPrecondition s.hasTree .gen s
    (match s.tree with
     | none => .fault .brokenArena
     | some t => .next ((generateCodes t s).respond 0)))

/-- `RDC idx, chunk` (R152): a read command. -/
def execRdc (idx : Idx) (chunk : BitVec 3) (s : State) : StepResult :=
  withOperand (symInRange idx) (.rdc idx chunk) s (.next (s.respond ((s.codeAt idx.toNat).record chunk)))

end Sys2Proof.Machine
end

