-- ==== Sys2Proof/Machine/Control.lean ====
section
/-! DEFINITION. The control family: `CLR`, `FLS`, `RDS` (`45_control.md` R200 to R202). -/

namespace Sys2Proof.Machine

/-- `CLR` (R200): never refused, never faults. -/
def execClr (s : State) : StepResult := .next (s.clearBlock.respond 0)

/-- `FLS` (R201). -/
def execFls (s : State) : StepResult := unlessInError s (.next (s.outFlush.respond 0))

/-- `RDS idx` (R202): a read command. -/
def execRds (idx : Idx) (s : State) : StepResult :=
  withOperand (csrInRange idx) (.rds idx) s (.next (s.respond (s.csr idx.toNat)))

end Sys2Proof.Machine
end

