-- ==== Sys2Proof/Machine/Frequency.lean ====
section
/-! DEFINITION. The frequency counter: `LDF`, `RDF`, `CNT` (`40_frequency.md` R120 to R122). -/

namespace Sys2Proof.Machine

/-- `LDF idx, data` (R120). -/
def execLdf (idx : Idx) (data : Count) (s : State) : StepResult :=
  unlessInError s (withOperand (symInRange idx) (.ldf idx data) s (.next ((s.setFreq idx.toNat data).respond 0)))

/-- `RDF idx` (R121): a read command. -/
def execRdf (idx : Idx) (s : State) : StepResult :=
  withOperand (symInRange idx) (.rdf idx) s (.next (s.respond ((s.freqAt idx.toNat).setWidth 64)))

/-- The loop of `CNT` (R122): one byte a turn until `EOS`; a count at `2^32 - 1` raises `CountOverflow` and keeps its
value. The first argument bounds the turns: a loop over `n` bits ends within `n / 8 + 1`. -/
def countLoop : Nat → State → Exec Word64
  | 0, s => .ok 0 s
  | fuel + 1, s =>
    match s.inRead 8 with
    | (none, s) => .ok 0 s
    | (some v, s) =>
      if s.freqAt v.toNat = BitVec.allOnes 32 then .raised .countOverflow (v.setWidth 64) s
      else countLoop fuel (s.setFreq v.toNat (s.freqAt v.toNat + 1))

/-- The body of `CNT` (R122): the counts are zeroed first, and the stream is rewound only when no count overflowed. -/
def countBytes (s : State) : Exec Word64 :=
  match countLoop (s.inBits.length / 8 + 1) s.clearFreq with
  | .ok d s => .ok d s.inRewind
  | .raised c info s => .raised c info s
  | .stuck f => .stuck f

/-- `CNT` (R122). -/
def execCnt (s : State) : StepResult := unlessInError s (countBytes s).finish

end Sys2Proof.Machine
end

