-- ==== Sys2Proof/Machine/Header.lean ====
section
/-! DEFINITION. The magic and the header codec: `MGW`, `MGR`, `HDW`, `HDR` (`43_header.md` R160 to R169). -/

namespace Sys2Proof.Machine

/-- `MGW` (R160). -/
def execMgw (s : State) : StepResult := unlessInError s (.next ((s.outWrite s.magic).respond 0))

/-- The body of `MGR` (R161). -/
def checkMagic (s : State) : Exec Word64 :=
  match s.inRead 32 with
  | (none, s) => .raised .badMagic 0x100000000#64 s
  | (some v, s) => if v = s.magic then .ok 0 s else .raised .badMagic (v.setWidth 64) s

/-- `MGR` (R161). -/
def execMgr (s : State) : StepResult := unlessInError s (checkMagic s).finish

/-- `Emit` (R163) on the tree below a node. -/
def emitTree : CodeTree → State → State
  | .leaf sym _, s => (s.outWrite 1#1).outWrite sym
  | .node l r _, s => emitTree r (emitTree l (s.outWrite 0#1))

/-- `HDW` (R163). -/
def execHdw (s : State) : StepResult :=
  unlessInError s (withPrecondition s.hasTree .hdw s
    (match s.tree with
     | none => .fault .brokenArena
     | some t => .next ((emitTree t s).respond 0)))

/-- `ReadNode` (R168), a leaf's 9-bit field read after its tag bit. -/
def readLeaf (i : Idx) (s : State) : Exec Idx :=
  match s.inRead 9 with
  | (none, s) => .raised .truncatedHeader (s.nn.setWidth 64) s
  | (some v, s) =>
    if v.toNat > 256 then .raised .badSymbol (v.setWidth 64) s
    else .ok i (s.setNode i (Node.mkLeaf v 0))

/-- `ReadNode` (R168). Every nested call has allocated one node more, so the capacity check (R169) ends the recursion at the
latest 514 calls deep, which is what the first argument starts from. -/
def readNode : Nat → State → Exec Idx
  | 0, s => .raised .treeOverflow 513 s
  | depth + 1, s =>
    match s.inRead 1 with
    | (none, s) => .raised .truncatedHeader (s.nn.setWidth 64) s
    | (some b, s) =>
      if s.nodes.length = Config.nnode then .raised .treeOverflow 513 s
      else if b = 0#1 then
        match readNode depth (s.allocNode (Node.mkInt Config.nil Config.nil 0)) with
        | .ok l t =>
          match readNode depth (t.setLeft s.nn l) with
          | .ok r t => .ok s.nn (t.setRight s.nn r)
          | .raised c info t => .raised c info t
          | .stuck f => .stuck f
        | .raised c info t => .raised c info t
        | .stuck f => .stuck f
      else readLeaf s.nn (s.allocNode (Node.mkInt Config.nil Config.nil 0))

/-- The root check and the end of `HDR` (R167, R168). -/
def acceptRoot (r : Idx) (s : State) : Exec Word64 :=
  match s.nodeAt r with
  | none => .stuck .brokenArena
  | some n =>
    match n.kind with
    | .leaf => .raised .degenerateTree (n.sym.setWidth 64) s.dropArena
    | .int => .ok 0 { s with root := r }

/-- The body of `HDR` (R168): on any fault the partial tree is discarded, `NN <- 0`. -/
def readHeader (s : State) : Exec Word64 :=
  match readNode 514 s.discardTree with
  | .ok r s => acceptRoot r s
  | .raised c info s => .raised c info s.dropArena
  | .stuck f => .stuck f

/-- `HDR` (R168). -/
def execHdr (s : State) : StepResult := unlessInError s (readHeader s).finish

end Sys2Proof.Machine
end

