-- ==== Sys2Proof/Machine/TreeBuilder.lean ====
section
/-! DEFINITION. The tree builder: `BLD`, `RDN`, `RDW` (`41_tree_builder.md` R131 to R141). -/

namespace Sys2Proof.Machine

/-- R131 for one symbol: a leaf in the arena and in the queue when the count is positive. -/
def makeLeaf (sym : Nat) (s : State) : State :=
  if s.freqAt sym = 0#32 then s
  else ((s.allocNode (Node.mkLeaf (BitVec.ofNat 9 sym) ((s.freqAt sym).setWidth 41))).insertQueue
    ((s.freqAt sym).setWidth 41) s.nn)

/-- R131: the symbols 0, 1, ..., 256 in ascending order. -/
def createLeaves (s : State) : State := (List.range Config.nsym).foldl (fun t sym => makeLeaf sym t) s

/-- One merge step (R133): `a` was extracted first and becomes the left child. -/
def mergeStep (a b : QEntry) (s : State) : State :=
  (s.allocNode (Node.mkInt a.node b.node (a.weight + b.weight))).insertQueue (a.weight + b.weight) s.nn

/-- R133, R134: merge while the queue holds more than one entry; then the last entry's node is the root and the queue is
empty. Each turn makes the queue shorter by one, so its length bounds the turns. -/
def mergeLoop : Nat → State → State
  | 0, s => s
  | fuel + 1, s =>
    match extractMin s.pq with
    | none => s
    | some (a, rest) =>
      match extractMin rest with
      | none => { s with pq := rest, root := a.node }
      | some (b, rest) => mergeLoop fuel (mergeStep a b { s with pq := rest })

/-- R135: the only entry `e` gets a twin leaf of weight 0 and a root above both; neither goes through the queue. -/
def singleSymbol (e : QEntry) (s : State) : State :=
  let sym := ((s.nodeAt e.node).getD (Node.mkLeaf 0 0)).sym
  let s := { s with pq := [] }
  let d := s.nn
  let s := s.allocNode (Node.mkLeaf sym 0)
  let r := s.nn
  let s := s.allocNode (Node.mkInt e.node d e.weight)
  { s with root := r }

/-- From the leaves to the root: the single-symbol case with one entry in the queue (R135), else the merges (R133). -/
def growTree (s : State) : State :=
  match s.pq with
  | [e] => singleSymbol e s
  | _ => mergeLoop s.pq.length s

/-- The body of `BLD` (R136). -/
def buildTree (s : State) : State := growTree (createLeaves { s.discardTree with seq := 0, pq := [] })

/-- `BLD` (R136). -/
def execBld (s : State) : StepResult := unlessInError s (.next ((buildTree s).respond 0))

/-- `RDN idx` (R140): a read command. -/
def execRdn (idx : Idx) (s : State) : StepResult :=
  withOperand (nodeInRange idx) (.rdn idx) s (.next (s.respond (((s.nodeAt idx).map Node.record).getD 0)))

/-- `RDW idx` (R141): a read command. -/
def execRdw (idx : Idx) (s : State) : StepResult :=
  withOperand (nodeInRange idx) (.rdw idx) s (.next (s.respond (((s.nodeAt idx).map Node.weightRecord).getD 0)))

end Sys2Proof.Machine
end

