-- ==== Sys2Proof/Machine/Dispatch.lean ====
section
/-! DEFINITION. One arm per command: the meaning of each (`30_encoding.md` R93). -/

namespace Sys2Proof.Machine

/-- The effect of an accepted, legal command. -/
def exec (i : Instr) (s : State) : Host.Outcome State Fault Refusal :=
  match i with
  | .clr => Sys2Proof.Machine.execClr s
  | .rds idx => Sys2Proof.Machine.execRds idx s
  | .fls => Sys2Proof.Machine.execFls s
  | .ldf idx data => Sys2Proof.Machine.execLdf idx data s
  | .rdf idx => Sys2Proof.Machine.execRdf idx s
  | .cnt => Sys2Proof.Machine.execCnt s
  | .bld => Sys2Proof.Machine.execBld s
  | .rdn idx => Sys2Proof.Machine.execRdn idx s
  | .rdw idx => Sys2Proof.Machine.execRdw idx s
  | .gen => Sys2Proof.Machine.execGen s
  | .rdc idx chunk => Sys2Proof.Machine.execRdc idx chunk s
  | .mgw => Sys2Proof.Machine.execMgw s
  | .mgr => Sys2Proof.Machine.execMgr s
  | .hdw => Sys2Proof.Machine.execHdw s
  | .hdr => Sys2Proof.Machine.execHdr s
  | .enc => Sys2Proof.Machine.execEnc s
  | .dec => Sys2Proof.Machine.execDec s
  | .dsym => Sys2Proof.Machine.execDsym s

end Sys2Proof.Machine
end

