-- ==== Sys2Proof/Machine/HostPort.lean ====
section
/-! DEFINITION. The ports (`30_encoding.md` R90, `70_reset_and_hazards.md` R250, R251, R254): accepting a command word,
delivering its response, reset between and during commands, and the host attaching streams. This is what `step` does around
`exec`; it stands here, and not in `Step.lean`, so that it can be mended. -/

namespace Sys2Proof.Machine

/-- An accepted command word: decoded and executed, or answered with `IllegalCommand` (R94, R221 step 1). -/
def runWord (w : Word64) (s : State) : StepResult :=
  match decode w with
  | .ok i => exec i s
  | .error _ => .next (s.raise .illegalCommand w)

/-- A command word presented while `cmd_ready` = 1 is accepted and executed to its response in one step; while a response
is pending it is not accepted and the host keeps presenting it (R90). -/
def acceptCommand (w : Word64) (rest : List HostEvent) (s : State) : StepResult :=
  if s.cmdReady then runWord w { s with host := rest, ops := [] } else .next s

/-- A reset during a command (R250, R251): the block is as after reset, and the streams are as the command's first `k`
operations left them. With a response still pending no command is executing, and the reset ends the wait. -/
def resetDuringCommand (w : Word64) (k : Nat) (rest : List HostEvent) (s : State) : StepResult :=
  if s.cmdReady then
    match runWord w { s with host := rest, ops := [] } with
    | .next t => .next (replay (t.ops.take k) { s with host := rest, ops := [] }).resetBlock
    | .fault f => .fault f
    | .refused r => .refused r
  else .next { s with host := rest }.resetBlock

/-- The host attaches streams; a cursor is never past the end (R61, R67). -/
def attachStreams (inBits : List Bool) (inPos : Nat) (outItems : List OutItem) (s : State) : State :=
  { s with inBits := inBits, inPos := min inPos inBits.length, outItems := outItems }

/-- The host's next action. -/
def hostAction (e : HostEvent) (rest : List HostEvent) (s : State) : StepResult :=
  match e with
  | .command w => acceptCommand w rest s
  | .takeResponse => .next { s with host := rest, rsp := none }
  | .reset => .next { s with host := rest }.resetBlock
  | .resetDuring w k => resetDuringCommand w k rest s
  | .attach inBits inPos outItems => .next (attachStreams inBits inPos outItems { s with host := rest })

/-- One step: the host's next action, or nothing when the host does nothing: the block waits (R90, R226). -/
def hostStep (s : State) : StepResult :=
  match s.host with
  | [] => .next s
  | e :: rest => hostAction e rest s

/-- Put a command word at the front of what the host does, with the command port ready. -/
def presentWord (w : Word64) (s : State) : State := { s with rsp := none, host := .command w :: s.host }

end Sys2Proof.Machine
end

