-- ==== Sys2Proof/Safety.lean ====
section
/-! DEFINITION. What counts as a sound state, and the vocabulary the statements are written in: the invariants of
`10_state.md` R25, R27, R33 and R47, the stream operations each command may perform (`20_memory.md` R72), the bytes of a
stream, the order of merges (`41_tree_builder.md` R132, R133), headers that do not end (`43_header.md` R168), and command
sequences (`30_encoding.md` R99). Nothing of this is used by the machine. -/

namespace Sys2Proof.Machine

/-! ## Invariants -/

/-- The arena indices met by the walk of `tree(i)`, in pre-order (R25); `none` as for `treeAt`. -/
def reach (nodes : List Node) : Nat → Idx → Option (List Nat)
  | 0, _ => none
  | depth + 1, i =>
    match nodes[i.toNat]? with
    | none => none
    | some n =>
      match n.kind with
      | .leaf => some [i.toNat]
      | .int =>
        match reach nodes depth n.left, reach nodes depth n.right with
        | some l, some r => some (i.toNat :: (l ++ r))
        | _, _ => none

/-- The weight of node `i`, 0 where nothing is allocated. -/
def weightAt (nodes : List Node) (i : Idx) : Weight := ((nodes[i.toNat]?).map Node.weight).getD 0

/-- A node's record as R24 lays it out: a leaf has a symbol of 0..256 and no children; an internal node has no symbol, and
its weight is the sum of its children's. -/
def nodeOk (nodes : List Node) (n : Node) : Prop :=
  match n.kind with
  | .leaf => n.sym.toNat ≤ 256 ∧ n.left = Config.nil ∧ n.right = Config.nil
  | .int => n.sym = 0 ∧ n.weight = weightAt nodes n.left + weightAt nodes n.right

/-- The tree invariant (R25 items 1 to 4, R24): every allocated index is reached exactly once from `ROOT`, the root is
internal, every record is sound; and where there is no tree nothing is allocated (R34). -/
structure ArenaOk (s : State) : Prop where
  empty : s.root = Config.nil → s.nodes = []
  size : s.nodes.length ≤ Config.nnode
  reached : s.root ≠ Config.nil →
    ∃ l, reach s.nodes s.nodes.length s.root = some l ∧ l.Perm (List.range s.nodes.length)
  rootInt : s.root ≠ Config.nil → ∃ n, s.nodeAt s.root = some n ∧ n.kind = .int
  records : ∀ n ∈ s.nodes, nodeOk s.nodes n

/-- The code table that rule R151 gives for a tree: each entry the path of the leaf visited last that carries the symbol. -/
def tableOf (t : CodeTree) : Vector CodeEntry 257 :=
  (t.codes []).foldl (fun c p => c.setIfInBounds p.1.toNat (CodeEntry.ofPath p.2)) (Vector.replicate 257 CodeEntry.invalid)

/-- The code-table part of R47, with R28: `CODE_OK` = 1 means the table is the one of the tree in the arena, `CODE_OK` = 0
that every entry is invalid. -/
structure CodeOk (s : State) : Prop where
  current : s.codeOk = true → s.root ≠ Config.nil ∧ ∃ t, s.tree = some t ∧ s.code = tableOf t
  cleared : s.codeOk = false → s.code = Vector.replicate 257 CodeEntry.invalid

/-- The walker's part of R47, with R32: `DONE` = 1 means `CUR` is a leaf of the sentinel; otherwise `CUR` is `NIL` or an
internal node. -/
structure WalkerOk (s : State) : Prop where
  halted : s.done = true →
    s.root ≠ Config.nil ∧ ∃ n, s.nodeAt s.cur = some n ∧ n.kind = .leaf ∧ n.sym = 256#9
  walking : s.done = false → s.cur = Config.nil ∨ ∃ n, s.nodeAt s.cur = some n ∧ n.kind = .int
  noTree : s.root = Config.nil → s.cur = Config.nil

/-- The fault registers and the response port: a recorded cause is one of the eleven (R211), `INFO` is 0 without one (R35),
and a response carries a status of R211 and no data unless `OK` (R92). -/
structure FaultOk (s : State) : Prop where
  cause : s.cause.toNat ≤ 11
  info : s.cause = 0#5 → s.info = 0
  status : ∀ r, s.rsp = some r → r.status.toNat ≤ 12 ∧ (r.status ≠ 0 → r.data = 0)

/-! ## Streams -/

/-- The bytes `InRead(8)` gives from a bit sequence until `EOS`: a tail of 1 to 7 bits gives none (R62, R122). -/
def takeBytes : List Bool → List Byte
  | b7 :: b6 :: b5 :: b4 :: b3 :: b2 :: b1 :: b0 :: rest =>
    BitVec.ofNat 8 (bitsVal [b7, b6, b5, b4, b3, b2, b1, b0]) :: takeBytes rest
  | _ => []

/-- The bits of IN that lie ahead of the cursor. -/
def State.ahead (s : State) : List Bool := s.inBits.drop s.inPos

/-- The stream operations a command may perform (R63, R66, R72). -/
def allowedOp : Instr → StreamOp → Bool
  | .cnt, .read n => n == 8
  | .cnt, .rewind => true
  | .enc, .read n => n == 8
  | .enc, .rewind => true
  | .enc, .codeBit _ => true
  | .mgr, .read n => n == 32
  | .hdr, .read n => n == 1 || n == 9
  | .dec, .read n => n == 1
  | .dec, .write bits => bits.length == 8
  | .dsym, .read n => n == 1
  | .dsym, .write bits => bits.length == 8
  | .mgw, .write bits => bits.length == 32
  | .hdw, .write bits => bits.length == 1 || bits.length == 9
  | .fls, .flush => true
  | _, _ => false

/-! ## The tree builder's input and output -/

/-- The symbols with a positive count, in ascending order (R131). -/
def positiveSyms (s : State) : List Nat := (List.range 257).filter fun i => s.freqAt i != 0

/-- The leaves of a tree with their weights, left to right. -/
def CodeTree.leafList : CodeTree → List (Sym × Weight)
  | .leaf sym w => [(sym, w)]
  | .node l r _ => l.leafList ++ r.leafList

/-- Whether a tree is a single leaf, which the arena never holds as a tree (R25 item 3). -/
def CodeTree.isLeaf : CodeTree → Bool
  | .leaf _ _ => true
  | .node _ _ _ => false

/-- Whether entry `i` is a child of an internal entry made before entry `j`: by then a merge has taken it (R133). -/
def takenBefore (nodes : List Node) (j : Nat) (i : Idx) : Prop :=
  ∃ m n, m < j ∧ nodes[m]? = some n ∧ n.kind = .int ∧ (n.left = i ∨ n.right = i)

/-- The entries in the queue when `BLD` makes entry `j`: made before it and not yet merged (R131, R133). -/
def waiting (nodes : List Node) (j : Nat) (i : Idx) : Prop := i.toNat < j ∧ ¬ takenBefore nodes j i

/-- The queue's order on entries (R132): less weight, or equal weight and less sequence number. `BLD` inserts every entry
when it allocates it, so the sequence number of entry `i` is `i` (R131, R134). -/
def precedes (nodes : List Node) (a b : Idx) : Prop :=
  (weightAt nodes a).toNat < (weightAt nodes b).toNat ∨
    ((weightAt nodes a).toNat = (weightAt nodes b).toNat ∧ a.toNat < b.toNat)

/-- Entry `j` is what one merge step makes (R133): internal, over the two least entries of those waiting, the least of all on
the left and the next on the right, with the exact sum of their weights. -/
def mergesLeast (nodes : List Node) (j : Nat) : Prop :=
  ∃ n, nodes[j]? = some n ∧ n.kind = .int ∧ n.sym = 0 ∧ waiting nodes j n.left ∧ waiting nodes j n.right ∧
    precedes nodes n.left n.right ∧ (∀ c, waiting nodes j c → c ≠ n.left → c ≠ n.right → precedes nodes n.right c) ∧
    n.weight.toNat = (weightAt nodes n.left).toNat + (weightAt nodes n.right).toNat

/-! ## Headers that do not end -/

/-- What one node gives a header (R162). -/
inductive HeaderItem
  | node
  | leaf (sym : Sym)
  deriving DecidableEq, Repr

/-- Its bits (R162): a 0, or a 1 and the symbol's nine. -/
def HeaderItem.bits : HeaderItem → List Bool
  | .node => [false]
  | .leaf sym => true :: msbBits sym

/-- The bits of a list of items. -/
def itemBits (items : List HeaderItem) : List Bool := items.flatMap HeaderItem.bits

/-- How many subtrees are still to be read after the items, when `n` were before them (R164); 0 once all are complete. -/
def subtreesDue : Nat → List HeaderItem → Nat
  | n, [] => n
  | 0, _ :: _ => 0
  | n + 1, .node :: items => subtreesDue (n + 2) items
  | n + 1, .leaf _ :: items => subtreesDue n items

/-- Items that begin a header and do not end it: none of them is at fault, and more must follow (R164, R165, R169). -/
structure OpenHeader (items : List HeaderItem) : Prop where
  due : subtreesDue 1 items ≠ 0
  symbols : ∀ sym, .leaf sym ∈ items → sym.toNat ≤ 256
  size : items.length ≤ 513

/-- `HeaderFault n tail code info used`: with `n` nodes read and one more expected, the bits `tail`, all there are, raise the
cause `code` with `info` after `used` of them are consumed (R165, R168, R169, R211). -/
inductive HeaderFault (n : Nat) : List Bool → BitVec 5 → Word64 → Nat → Prop
  /-- No tag bit: `TruncatedHeader`. -/
  | noTag : HeaderFault n [] 2 (BitVec.ofNat 64 n) 0
  /-- A leaf's tag and fewer than nine bits: `TruncatedHeader`, the cut leaf counted and its field not consumed. -/
  | cutField (field : List Bool) : n < 513 → field.length < 9 → HeaderFault n (true :: field) 2 (BitVec.ofNat 64 (n + 1)) 1
  /-- A leaf with a field above 256: `BadSymbol`. -/
  | badSymbol (sym : Sym) (rest : List Bool) : n < 513 → 256 < sym.toNat →
      HeaderFault n (true :: msbBits sym ++ rest) 8 (sym.setWidth 64) 10
  /-- The first bit of a 514th node: `TreeOverflow`. -/
  | tooMany (b : Bool) (rest : List Bool) : n = 513 → HeaderFault n (b :: rest) 9 513 1

/-! ## Decoding -/

/-- The entry reached from entry `i` by one transition a bit: 0 to the left child, 1 to the right (R182). -/
def walkFrom (nodes : List Node) (i : Idx) : List Bool → Option Idx
  | [] => some i
  | b :: bits =>
    match nodes[i.toNat]? with
    | none => none
    | some n => walkFrom nodes (if b then n.right else n.left) bits

/-- `Body t syms bits`: `bits` is the codes of `syms` in a row, each the path of a leaf of `t` that carries the symbol (R182),
none of them the sentinel. -/
inductive Body (t : CodeTree) : List Sym → List Bool → Prop
  | nil : Body t [] []
  | cons (sym : Sym) (p : List Bool) (syms : List Sym) (bits : List Bool) :
      (sym, p) ∈ t.codes [] → sym ≠ 256#9 → Body t syms bits → Body t (sym :: syms) (p ++ bits)

/-- `DsymRun s v`: `v` is the state after the sequence of `DSYM` commands from `s` that ends with the first `END` = 1
response or the first fault (R185). -/
inductive DsymRun : State → State → Prop
  | last (s v : State) : exec .dsym s = .next v → (v.done = true ∨ v.cause ≠ 0#5) → DsymRun s v
  | more (s m v : State) : exec .dsym s = .next m → m.done = false → m.cause = 0#5 → DsymRun m v → DsymRun s v

/-! ## Command sequences -/

/-- The state after a sequence of commands each of which answers `OK` with no data; `none` when one does not (R99). -/
def runOk : List Instr → State → Option State
  | [], s => some s
  | i :: rest, s =>
    match exec i s with
    | .next t => if t.rsp = some ⟨0, 0⟩ then runOk rest t else none
    | .fault _ => none
    | .refused _ => none

end Sys2Proof.Machine
end

