-- ==== Sys2Proof/Certificates/Slice0/Obligations.lean ====
section
/-! DEFINITION. The statements for the provers, each named after what it says; the rule it formalises stands in its docstring
and in OBLIGATIONS.json. A statement of a command's result is written `exec i s = .next { s with … }` or `there is t with
exec i s = .next t and t = { s with … }`: what is not named after `with` is unchanged, so the result, the completion and the
frame are one statement. `ops` is the model's own record of stream operations (notes/assumptions/5): where a command performs
some, its statement leaves the record free (`ops := t.ops`), and `StreamOperationsAreThoseOfTheTable` says what it is. -/

open Sys2Proof Sys2Proof.Machine

/-! ## Encoding -/

/-- R91, R93, R95: decoding the word of a command gives the command back, with every operand at every value of its field. -/
def Obligations.DecodeOfEncodeIsTheCommand : Prop :=
  ∀ i : Instr, decode (encode i) = .ok i

/-- A word that decodes is the encoding of the command it decodes to, so what `INFO` records for `BadOperand` and
`SequenceError` is the word the host presented (R211). -/
def Obligations.EncodeOfADecodedWordIsTheWord : Prop :=
  ∀ (w : Word64) (i : Instr), decode w = .ok i → encode i = w

/-- R94, R95: the decoder accepts exactly the words that match a row of the opcode map under its format's mask. -/
def Obligations.DecodeAcceptsExactlyTheLegalWords : Prop :=
  ∀ w : Word64, (∃ i, decode w = .ok i) ↔ legalWord w = true

/-- R93, R95: words written out from the opcode map, one family each, and words that are illegal. -/
def Obligations.WordsWrittenOutDecode : Prop :=
  decode 0x0200000300000000#64 = .ok (.rds 3) ∧ decode 0x1000004100000002#64 = .ok (.ldf 65 2) ∧
  decode 0x2100000400000000#64 = .ok (.rdn 4) ∧ decode 0x3100004200000001#64 = .ok (.rdc 66 1) ∧
  decode 0x4300000000000000#64 = .ok .hdr ∧ decode 0x5200000000000000#64 = .ok .dsym ∧
  decode 0x0000000000000000#64 = .error (.unknownOpcode 0) ∧ decode 0x2000000000000001#64 = .error (.unusedField .n) ∧
  decode 0x0100040000000000#64 = .error (.reservedBits 1)

/-! ## The ports, reset -/

/-- A command word presented on a ready port that decodes is executed: the step is `exec` of the command at the state in
which the host's action is used up and the record of stream operations is empty (R90, R221 step 1). That the host's actions
stand in a list, and that one step takes a command from its acceptance to its response, is the model's choice
(notes/assumptions/4). -/
def Obligations.StepRunsTheDecodedCommand : Prop :=
  ∀ (s : State) (w : Word64) (rest : List HostEvent) (i : Instr),
    s.host = .command w :: rest → s.rsp = none → decode w = .ok i →
      step s = exec i { s with host := rest, ops := [] }

/-- R94, with R211 and R220: an illegal word raises `IllegalCommand` with `INFO` = the word, which is recorded when no fault
was; nothing else changes and no stream operation is performed. The step is the model's (notes/assumptions/4). -/
def Obligations.IllegalWordRaisesIllegalCommand : Prop :=
  ∀ (s : State) (w : Word64) (rest : List HostEvent),
    s.host = .command w :: rest → s.rsp = none → legalWord w = false →
      (s.cause = 0#5 → step s = .next { s with
        host := rest, ops := [], cause := 4, info := w, rsp := some ⟨4, 0⟩ }) ∧
      (s.cause ≠ 0#5 → step s = .next { s with host := rest, ops := [], rsp := some ⟨4, 0⟩ })

/-- R90: with nothing to do the block waits; a command is not accepted while a response is pending; taking the response
frees the port; and every accepted command ends with a response offered. The list of the host's actions, and what a step does
when there is none, are the model's choice (notes/assumptions/4). -/
def Obligations.OneResponseForEveryAcceptedCommand : Prop :=
  ∀ s : State,
    (s.host = [] → step s = .next s) ∧
    (∀ w rest, s.host = .command w :: rest → s.rsp ≠ none → step s = .next s) ∧
    (∀ rest, s.host = .takeResponse :: rest → step s = .next { s with host := rest, rsp := none }) ∧
    (∀ w rest t, s.host = .command w :: rest → s.rsp = none → step s = .next t → t.rsp ≠ none ∧ t.host = rest)

/-- R46: every piece of the block has its reset value after a reset, from whatever state, and `CLR`'s state differs from it in
nothing but the response port; the streams and the constants are as before. -/
def Obligations.ResetLeavesEveryPieceAtItsResetValue : Prop :=
  configWord = 0x03008060#32 ∧
  ∀ s : State, ∃ t, s.resetBlock = t ∧
    (∀ i, i < 256 → t.freqAt i = 0) ∧ t.freqAt 256 = 1 ∧ t.nn = 0 ∧ t.nodes = [] ∧ t.pq = [] ∧ t.csr 6 = 0 ∧ t.seq = 0 ∧
    (∀ i, i ≤ 256 → t.codeAt i = ⟨false, 0, []⟩) ∧ t.codeOk = false ∧ t.done = false ∧ t.root = 0x3FF#10 ∧
    t.cur = 0x3FF ∧ t.cause = 0 ∧ t.info = 0 ∧ t.statusWord = 0 ∧ t.magic = s.magic ∧ t.busy = false ∧ t.err = false ∧
    t.cmdReady = true ∧ t.rsp = none ∧ t.inBits = s.inBits ∧ t.inPos = s.inPos ∧ t.outItems = s.outItems ∧
    t = { s.clearBlock with rsp := none } ∧
    t = { State.reset with
      magic := s.magic, inBits := s.inBits, inPos := s.inPos, outItems := s.outItems, ops := s.ops, host := s.host }

/-- R250 as the model takes it: the host's action `reset` gives the reset state and leaves no response pending; the streams,
the constant `MAGIC` and the host's further actions are as before. That a reset is an action of the host in a list is the
model's choice (notes/assumptions/4). -/
def Obligations.ResetActionResetsTheBlock : Prop :=
  ∀ (s : State) (rest : List HostEvent), s.host = .reset :: rest →
    step s = .next { State.reset with
      magic := s.magic, inBits := s.inBits, inPos := s.inPos, outItems := s.outItems, ops := s.ops, host := rest }

/-- R251: a reset during a command leaves the block as after reset and the streams at a point the command could have
reached: IN's cursor and OUT are as the command's first `k` stream operations, replayed in order from the state it started in,
leave them. So for `k = 0` they are as before, from the number of operations on as the whole command leaves them, and OUT always
lies between the two. That the host's action carries `k` is the model's choice (notes/assumptions/6), and so is the record of
stream operations (notes/assumptions/5). -/
def Obligations.ResetDuringACommandStopsBetweenStreamOperations : Prop :=
  ∀ (s t : State) (w : Word64) (k : Nat) (rest : List HostEvent),
    s.host = .resetDuring w k :: rest → s.rsp = none → runWord w { s with host := rest, ops := [] } = .next t →
      ∃ u, step s = .next u ∧
        u = { State.reset with
          magic := s.magic, inBits := s.inBits, inPos := (replay (t.ops.take k) { s with ops := [] }).inPos,
          outItems := (replay (t.ops.take k) { s with ops := [] }).outItems, ops := t.ops.take k, host := rest } ∧
        s.outItems <+: u.outItems ∧ u.outItems <+: t.outItems ∧
        (k = 0 → u.inPos = s.inPos ∧ u.outItems = s.outItems) ∧
        (t.ops.length ≤ k → u.inPos = t.inPos ∧ u.outItems = t.outItems)

/-! ## Control family -/

/-- R200: after `CLR`, in error or not, every piece of the block has its reset value; the streams are untouched and the
response is `OK`. -/
def Obligations.ClrRestoresTheResetState : Prop :=
  encode .clr = 0x0100000000000000#64 ∧
  ∀ s : State, exec .clr s = .next { State.reset with
    magic := s.magic, inBits := s.inBits, inPos := s.inPos, outItems := s.outItems, ops := s.ops, host := s.host,
    rsp := some ⟨0, 0⟩ }

/-- R201: `FLS` appends one `FLUSH` marker to OUT and changes nothing else; in error it is refused. -/
def Obligations.FlsAppendsOneFlushMarker : Prop :=
  encode .fls = 0x0300000000000000#64 ∧
  ∀ s : State,
    (s.cause = 0#5 → ∃ t, exec .fls s = .next t ∧
      t = { s with outItems := s.outItems ++ [.flush], ops := t.ops, rsp := some ⟨0, 0⟩ }) ∧
    (s.cause ≠ 0#5 → exec .fls s = .next { s with rsp := some ⟨0x0C, 0⟩ })

/-- R202, R37, R40: `RDS` answers the control register, zero-extended, in every state, and changes nothing else; a number from
10 on is a `BadOperand`, which in error only the response tells of. -/
def Obligations.RdsAnswersTheControlRegister : Prop :=
  encode (.rds 3) = 0x0200000300000000#64 ∧
  ∀ s : State,
    exec (.rds 0) s = .next { s with rsp := some ⟨0, s.statusWord⟩ } ∧
    exec (.rds 1) s = .next { s with rsp := some ⟨0, s.cause.setWidth 64⟩ } ∧
    exec (.rds 2) s = .next { s with rsp := some ⟨0, s.info⟩ } ∧
    exec (.rds 3) s = .next { s with rsp := some ⟨0, s.root.setWidth 64⟩ } ∧
    exec (.rds 4) s = .next { s with rsp := some ⟨0, (BitVec.ofNat 10 s.nodes.length).setWidth 64⟩ } ∧
    exec (.rds 5) s = .next { s with rsp := some ⟨0, s.cur.setWidth 64⟩ } ∧
    (s.pq = [] → exec (.rds 6) s = .next { s with rsp := some ⟨0, 0⟩ }) ∧
    exec (.rds 7) s = .next { s with rsp := some ⟨0, s.seq.setWidth 64⟩ } ∧
    exec (.rds 8) s = .next { s with rsp := some ⟨0, 0x03008060⟩ } ∧
    exec (.rds 9) s = .next { s with rsp := some ⟨0, s.magic.setWidth 64⟩ } ∧
    ∀ idx : BitVec 10, 9 < idx.toNat →
      (s.cause = 0#5 → exec (.rds idx) s = .next { s with
        cause := 5, info := encode (.rds idx), rsp := some ⟨5, 0⟩ }) ∧
      (s.cause ≠ 0#5 → exec (.rds idx) s = .next { s with rsp := some ⟨5, 0⟩ })

/-- R36: bit by bit, what `STATUS` shows, and that it is 0 after reset. -/
def Obligations.StatusShowsTheFourFlags : Prop :=
  State.reset.statusWord = 0 ∧
  ∀ s : State,
    s.statusWord.getLsbD 0 = decide (s.cause ≠ 0#5) ∧ s.statusWord.getLsbD 1 = decide (s.root ≠ 0x3FF#10) ∧
    s.statusWord.getLsbD 2 = s.codeOk ∧ s.statusWord.getLsbD 3 = s.done ∧
    ∀ j, 4 ≤ j → s.statusWord.getLsbD j = false

/-! ## Frequency family -/

/-- R120, R23: `LDF` writes one count and nothing else; for the sentinel it answers `OK` and writes nothing; an index above 256
is a `BadOperand`; in error it is refused. -/
def Obligations.LdfLoadsOneCount : Prop :=
  encode (.ldf 65 2) = 0x1000004100000002#64 ∧
  ∀ (s : State) (idx : BitVec 10) (data : Count),
    (s.cause = 0#5 → idx.toNat ≤ 256 →
      ∃ t, exec (.ldf idx data) s = .next t ∧ t = { s with freq := t.freq, rsp := some ⟨0, 0⟩ } ∧
        t.freqAt 256 = 1 ∧ ∀ j, j < 256 → t.freqAt j = if j = idx.toNat then data else s.freqAt j) ∧
    (s.cause = 0#5 → 256 < idx.toNat → exec (.ldf idx data) s = .next { s with
      cause := 5, info := encode (.ldf idx data), rsp := some ⟨5, 0⟩ }) ∧
    (s.cause ≠ 0#5 → exec (.ldf idx data) s = .next { s with rsp := some ⟨0x0C, 0⟩ })

/-- R121, R22, R23: `RDF` answers the count of a byte value, and always 1 for the sentinel, in error or not; an index above 256
is a `BadOperand`; no other state changes. -/
def Obligations.RdfAnswersTheCount : Prop :=
  encode (.rdf 65) = 0x1100004100000000#64 ∧
  ∀ (s : State) (idx : BitVec 10),
    (∀ h : idx.toNat < 256, exec (.rdf idx) s = .next { s with rsp := some ⟨0, (s.freq[idx.toNat]).setWidth 64⟩ }) ∧
    (idx.toNat = 256 → exec (.rdf idx) s = .next { s with rsp := some ⟨0, 1⟩ }) ∧
    (256 < idx.toNat → s.cause = 0#5 → exec (.rdf idx) s = .next { s with
      cause := 5, info := encode (.rdf idx), rsp := some ⟨5, 0⟩ }) ∧
    (256 < idx.toNat → s.cause ≠ 0#5 → exec (.rdf idx) s = .next { s with rsp := some ⟨5, 0⟩ })

/-- R122: `CNT` leaves the exact occurrence counts of the bytes ahead of the cursor, whatever `FREQ` held, rewinds IN, and
changes nothing else; it makes one read for each byte and one more (R261), as the model's record of stream operations says
(notes/assumptions/5). -/
def Obligations.CntCountsTheBytesAhead : Prop :=
  ∀ s : State, s.cause = 0#5 → (∀ v : Byte, (takeBytes s.ahead).count v < 2 ^ 32) →
    ∃ t, exec .cnt s = .next t ∧
      t = { s with freq := t.freq, inPos := 0, ops := t.ops, rsp := some ⟨0, 0⟩ } ∧
      t.ops = s.ops ++ List.replicate ((takeBytes s.ahead).length + 1) (.read 8) ++ [.rewind] ∧
      t.freqAt 256 = 1 ∧ ∀ v : Byte, (t.freqAt v.toNat).toNat = (takeBytes s.ahead).count v

/-- R122, R11, R227: when a byte value occurs for the `2^32`-th time, `CNT` raises `CountOverflow` there: the counts made so
far stay, the overflowing one at `2^32 - 1`, and IN is not rewound. -/
def Obligations.CntRaisesCountOverflow : Prop :=
  ∀ (s : State) (pre post : List Byte) (v : Byte), s.cause = 0#5 → takeBytes s.ahead = pre ++ v :: post →
    (∀ u : Byte, pre.count u < 2 ^ 32) → pre.count v = 2 ^ 32 - 1 →
      ∃ t, exec .cnt s = .next t ∧
        t = { s with
          freq := t.freq, inPos := s.inPos + 8 * (pre.length + 1), ops := t.ops, cause := 7, info := v.setWidth 64,
          rsp := some ⟨7, 0⟩ } ∧
        t.freqAt 256 = 1 ∧ ∀ u : Byte, (t.freqAt u.toNat).toNat = pre.count u

/-! ## Tree builder family -/

/-- R132, R133, R137 d. `ExtractMin` removes an entry such that no other entry has less weight, nor equal weight and a lower
sequence number, and it answers whenever the queue is not empty; of two entries extracted in a row the first never has the
greater weight. And in the arena `BLD` leaves, with `k` of at least two positive counts, every entry from `k` on is the merge of
the two least entries of those not merged before it: the least is the left child, the next the right child, the weight is their
exact sum. The entry's index stands for its sequence number, since every entry is inserted when it is allocated (R131, R134). -/
def Obligations.ExtractMinTakesTheLeastEntry : Prop :=
  (∀ q : List QEntry,
    (extractMin q = none → q = []) ∧
    ∀ m rest, extractMin q = some (m, rest) → q.Perm (m :: rest) ∧
      (∀ e ∈ rest, m.weight.toNat < e.weight.toNat ∨ (m.weight.toNat = e.weight.toNat ∧ m.seq.toNat ≤ e.seq.toNat)) ∧
      ∀ b rest', extractMin rest = some (b, rest') →
        m.weight.toNat ≤ b.weight.toNat ∧ (m.weight = b.weight → m.seq.toNat ≤ b.seq.toNat)) ∧
  ∀ s : State, s.cause = 0#5 → 2 ≤ (positiveSyms s).length →
    ∃ t, exec .bld s = .next t ∧ t.nodes.length = 2 * (positiveSyms s).length - 1 ∧
      ∀ j, (positiveSyms s).length ≤ j → j < t.nodes.length → mergesLeast t.nodes j

/-- R136, R25: `BLD` answers `OK` from every state that is not in error, with a tree that satisfies the invariant; the walker,
the code table and the two flags are discarded, the queue is left empty, and nothing else changes. -/
def Obligations.BldBuildsASoundTree : Prop :=
  ∀ s : State, s.cause = 0#5 →
    ∃ t, exec .bld s = .next t ∧ ArenaOk t ∧ t.root ≠ 0x3FF#10 ∧
      t = { s with
        nodes := t.nodes, root := t.root, seq := t.seq, pq := [], cur := 0x3FF, codeOk := false, done := false,
        code := Vector.replicate 257 ⟨false, 0, []⟩, rsp := some ⟨0, 0⟩ }

/-- R131, R133, R134, R138, for at least two positive counts: the leaves of the tree `BLD` builds are the symbols with a
positive count with their counts as weights, each once, and they occupy the first arena entries in ascending order; there are `2k - 1` nodes, the last of them the root, as
many insertions, and the root's weight is the exact sum of the counts. -/
def Obligations.BldLeavesAreThePositiveCounts : Prop :=
  ∀ s t : State, s.cause = 0#5 → exec .bld s = .next t → 2 ≤ (positiveSyms s).length →
    t.nodes.length = 2 * (positiveSyms s).length - 1 ∧ t.root.toNat = 2 * (positiveSyms s).length - 2 ∧
    t.seq.toNat = 2 * (positiveSyms s).length - 1 ∧
    t.nodes.take (positiveSyms s).length =
      ((positiveSyms s).map fun i => ⟨.leaf, BitVec.ofNat 9 i, 0x3FF, 0x3FF, (s.freqAt i).setWidth 41⟩) ∧
    ∃ tr, t.tree = some tr ∧
      tr.leafList.Perm ((positiveSyms s).map fun i => (BitVec.ofNat 9 i, (s.freqAt i).setWidth 41)) ∧
      tr.weight.toNat = ((List.range 257).map fun i => (s.freqAt i).toNat).sum

/-- R135: with every byte count 0 the tree is a root above the sentinel's leaf and its twin of weight 0. -/
def Obligations.BldOfAnEmptyCountMakesTheTwinLeaf : Prop :=
  ∀ s : State, s.cause = 0#5 → (∀ i, i < 256 → s.freqAt i = 0#32) →
    exec .bld s = .next { s with
      nodes := [⟨.leaf, 256, 0x3FF, 0x3FF, 1⟩, ⟨.leaf, 256, 0x3FF, 0x3FF, 0⟩, ⟨.int, 0, 0, 1, 1⟩], root := 2, seq := 1,
      pq := [], cur := 0x3FF, codeOk := false, done := false, code := Vector.replicate 257 ⟨false, 0, []⟩,
      rsp := some ⟨0, 0⟩ }

/-- R132: `BLD` is a function of the frequency table alone: equal tables give equal arenas, bit for bit. -/
def Obligations.BldDependsOnTheCountsAlone : Prop :=
  ∀ s s' t t' : State, s.cause = 0#5 → s'.cause = 0#5 → s.freq = s'.freq → exec .bld s = .next t → exec .bld s' = .next t' →
    t.nodes = t'.nodes ∧ t.root = t'.root ∧ t.seq = t'.seq

/-- R140, R141: `RDN` answers the record of an allocated node, field by field, `RDW` its weight with bit 63 set, and both
answer 0 from `NN` on, in error or not; an index above 512 is a `BadOperand`; no other state changes. -/
def Obligations.RdnAndRdwAnswerTheNode : Prop :=
  encode (.rdn 4) = 0x2100000400000000#64 ∧ encode (.rdw 4) = 0x2200000400000000#64 ∧
  ∀ (s : State) (idx : BitVec 10),
    (idx.toNat ≤ 512 → s.nodes.length ≤ idx.toNat →
      exec (.rdn idx) s = .next { s with rsp := some ⟨0, 0⟩ } ∧ exec (.rdw idx) s = .next { s with rsp := some ⟨0, 0⟩ }) ∧
    (∀ n, idx.toNat ≤ 512 → s.nodes[idx.toNat]? = some n →
      (∃ d, exec (.rdw idx) s = .next { s with rsp := some ⟨0, d⟩ } ∧
        d.extractLsb' 0 41 = n.weight ∧ d.extractLsb' 41 22 = 0 ∧ d.extractLsb' 63 1 = 1) ∧
      ∃ d, exec (.rdn idx) s = .next { s with rsp := some ⟨0, d⟩ } ∧
        d.extractLsb' 0 1 = 1 ∧ d.extractLsb' 1 1 = (if n.kind = .leaf then 1 else 0) ∧ d.extractLsb' 2 9 = n.sym ∧
        d.extractLsb' 11 10 = n.left ∧ d.extractLsb' 21 10 = n.right ∧ d.extractLsb' 31 33 = 0) ∧
    (512 < idx.toNat →
      (s.cause = 0#5 →
        exec (.rdn idx) s = .next { s with cause := 5, info := encode (.rdn idx), rsp := some ⟨5, 0⟩ } ∧
        exec (.rdw idx) s = .next { s with cause := 5, info := encode (.rdw idx), rsp := some ⟨5, 0⟩ }) ∧
      (s.cause ≠ 0#5 →
        exec (.rdn idx) s = .next { s with rsp := some ⟨5, 0⟩ } ∧ exec (.rdw idx) s = .next { s with rsp := some ⟨5, 0⟩ }))

/-! ## Code-table family -/

/-- R150, R151: after `GEN` the entry of a symbol is the path of the leaf visited last that carries it, and the entries of
the other symbols are invalid; nothing else changes but `CODE_OK`. Without a tree it raises `SequenceError`; in error it is
refused. -/
def Obligations.GenRecordsTheLastPathOfEverySymbol : Prop :=
  encode .gen = 0x3000000000000000#64 ∧
  (∀ (sym : Sym) (w : Weight) (p : List Bool), (CodeTree.leaf sym w).codes p = [(sym, p)]) ∧
  (∀ (l r : CodeTree) (w : Weight) (p : List Bool),
    (CodeTree.node l r w).codes p = l.codes (p ++ [false]) ++ r.codes (p ++ [true])) ∧
  ∀ s : State,
    (∀ t : CodeTree, s.cause = 0#5 → s.root ≠ 0x3FF#10 → s.tree = some t →
      ∃ u, exec .gen s = .next u ∧ u = { s with code := u.code, codeOk := true, rsp := some ⟨0, 0⟩ } ∧
        ∀ i, i ≤ 256 → u.codeAt i =
          match (t.codes []).reverse.find? fun p => p.1.toNat == i with
          | some p => ⟨true, BitVec.ofNat 9 p.2.length, p.2⟩
          | none => ⟨false, 0, []⟩) ∧
    (s.cause = 0#5 → s.root = 0x3FF#10 → exec .gen s = .next { s with
      cause := 6, info := 0x3000000000000000, rsp := some ⟨6, 0⟩ }) ∧
    (s.cause ≠ 0#5 → exec .gen s = .next { s with rsp := some ⟨0x0C, 0⟩ })

/-- R153: in a table made by `GEN`, no valid entry's code is a prefix of another's. -/
def Obligations.GeneratedCodesArePrefixFree : Prop :=
  ∀ s u : State, s.cause = 0#5 → exec .gen s = .next u → u.cause = 0#5 →
    ∀ a b, a ≤ 256 → b ≤ 256 → a ≠ b → (u.codeAt a).valid = true → (u.codeAt b).valid = true →
      ¬ (u.codeAt a).bits <+: (u.codeAt b).bits

/-- R151 corner case a, R27: from a sound arena every valid entry of the table `GEN` makes has a length of 1 to 256, which is
what its `len` field says. -/
def Obligations.GeneratedCodesHaveLegalLengths : Prop :=
  ∀ s u : State, ArenaOk s → s.cause = 0#5 → exec .gen s = .next u → u.cause = 0#5 →
    ∀ i, i ≤ 256 → (u.codeAt i).valid = true →
      1 ≤ (u.codeAt i).bits.length ∧ (u.codeAt i).bits.length ≤ 256 ∧ (u.codeAt i).len.toNat = (u.codeAt i).bits.length

/-- R152: `RDC` answers one chunk of a code, the earlier bit in the more significant position, with the length and the valid
bit, in error or not; an index above 256 is a `BadOperand`; no other state changes. -/
def Obligations.RdcAnswersTheChunk : Prop :=
  encode (.rdc 66 1) = 0x3100004200000001#64 ∧
  ∀ (s : State) (idx : BitVec 10) (c : BitVec 3),
    (idx.toNat ≤ 256 → ∃ d, exec (.rdc idx c) s = .next { s with rsp := some ⟨0, d⟩ } ∧
      (∀ j, j < 32 → d.getLsbD (31 - j) =
        (decide (32 * c.toNat + j < (s.codeAt idx.toNat).len.toNat) &&
          ((s.codeAt idx.toNat).bits[32 * c.toNat + j]?).getD false)) ∧
      d.extractLsb' 32 9 = (s.codeAt idx.toNat).len ∧ d.extractLsb' 41 22 = 0 ∧
      d.getLsbD 63 = (s.codeAt idx.toNat).valid) ∧
    (256 < idx.toNat → s.cause = 0#5 → exec (.rdc idx c) s = .next { s with
      cause := 5, info := encode (.rdc idx c), rsp := some ⟨5, 0⟩ }) ∧
    (256 < idx.toNat → s.cause ≠ 0#5 → exec (.rdc idx c) s = .next { s with rsp := some ⟨5, 0⟩ })

/-! ## Header family -/

/-- R160: `MGW` appends the 32 bits of the magic, most significant first, and changes nothing else; in error it is refused.
It holds for every value of the parameter `MAGIC`. -/
def Obligations.MgwAppendsTheMagic : Prop :=
  encode .mgw = 0x4000000000000000#64 ∧
  ∀ s : State,
    (s.cause = 0#5 → ∃ t, exec .mgw s = .next t ∧
      t = { s with outItems := s.outItems ++ (msbBits s.magic).map .bit, ops := t.ops, rsp := some ⟨0, 0⟩ }) ∧
    (s.cause ≠ 0#5 → exec .mgw s = .next { s with rsp := some ⟨0x0C, 0⟩ })

/-- R161: `MGR` accepts the magic and moves the cursor by 32; another value raises `BadMagic` with that value, the bits
consumed; fewer than 32 bits raise it with bit 32 of `INFO`, nothing consumed; in error it is refused. -/
def Obligations.MgrChecksTheMagic : Prop :=
  encode .mgr = 0x4100000000000000#64 ∧
  ∀ s : State,
    (∀ rest, s.cause = 0#5 → s.ahead = msbBits s.magic ++ rest → ∃ t, exec .mgr s = .next t ∧
      t = { s with inPos := s.inPos + 32, ops := t.ops, rsp := some ⟨0, 0⟩ }) ∧
    (∀ (v : BitVec 32) (rest : List Bool), s.cause = 0#5 → v ≠ s.magic → s.ahead = msbBits v ++ rest →
      ∃ t, exec .mgr s = .next t ∧ t = { s with
        inPos := s.inPos + 32, ops := t.ops, cause := 1, info := v.setWidth 64, rsp := some ⟨1, 0⟩ }) ∧
    (s.cause = 0#5 → s.ahead.length < 32 → ∃ t, exec .mgr s = .next t ∧
      t = { s with ops := t.ops, cause := 1, info := 0x100000000, rsp := some ⟨1, 0⟩ }) ∧
    (s.cause ≠ 0#5 → exec .mgr s = .next { s with rsp := some ⟨0x0C, 0⟩ })

/-- R163: `HDW` appends exactly the header of the tree in the arena and changes nothing else. Without a tree it raises
`SequenceError`, nothing written; in error it is refused. -/
def Obligations.HdwAppendsTheHeader : Prop :=
  encode .hdw = 0x4200000000000000#64 ∧
  ∀ s : State,
    (∀ t : CodeTree, s.cause = 0#5 → s.root ≠ 0x3FF#10 → s.tree = some t →
      ∃ u, exec .hdw s = .next u ∧
        u = { s with outItems := s.outItems ++ t.hdr.map .bit, ops := u.ops, rsp := some ⟨0, 0⟩ }) ∧
    (s.cause = 0#5 → s.root = 0x3FF#10 → exec .hdw s = .next { s with
      cause := 6, info := 0x4200000000000000, rsp := some ⟨6, 0⟩ }) ∧
    (s.cause ≠ 0#5 → exec .hdw s = .next { s with rsp := some ⟨0x0C, 0⟩ })

/-- R162: the header of a leaf and of a node; a header of `k` leaves has `11k - 1` bits; and the format is prefix-free and
self-delimiting: two headers followed by anything agree only when the trees agree but for their weights. -/
def Obligations.HeadersAreSelfDelimiting : Prop :=
  (∀ (sym : Sym) (w : Weight), (CodeTree.leaf sym w).hdr = true :: msbBits sym) ∧
  (∀ (l r : CodeTree) (w : Weight), (CodeTree.node l r w).hdr = false :: (l.hdr ++ r.hdr)) ∧
  (∀ t : CodeTree, t.hdr.length = 11 * t.leaves - 1) ∧
  ∀ (t u : CodeTree) (rest rest' : List Bool), t.hdr ++ rest = u.hdr ++ rest' → t.unweighted = u.unweighted ∧ rest = rest'

/-- R170, R164, R166, R168: reading the header of a tree that satisfies R25 succeeds, consumes exactly its bits, and gives the
same tree with every weight 0, its root at entry 0 and its entries numbered in pre-order; nothing else changes but what `HDR`
discards; that tree has the same code table and the same header. -/
def Obligations.HdrReadsBackTheHeader : Prop :=
  ∀ (s : State) (t : CodeTree) (rest : List Bool), s.cause = 0#5 → s.ahead = t.hdr ++ rest → t.isLeaf = false →
    t.leaves ≤ 257 → (∀ sym ∈ t.syms, sym.toNat ≤ 256) →
      ∃ u, exec .hdr s = .next u ∧
        u = { s with
          nodes := u.nodes, root := 0, cur := 0x3FF, codeOk := false, done := false,
          code := Vector.replicate 257 ⟨false, 0, []⟩, inPos := s.inPos + t.hdr.length, ops := u.ops,
          rsp := some ⟨0, 0⟩ } ∧
        u.nodes.length = 2 * t.leaves - 1 ∧ u.tree = some t.unweighted ∧
        reach u.nodes u.nodes.length u.root = some (List.range u.nodes.length) ∧
        tableOf t.unweighted = tableOf t ∧ t.unweighted.hdr = t.hdr

/-- R168, R227: an `HDR` that faults leaves no tree, no code table and no walker, and changes nothing else but IN's cursor and
the fault registers; its causes are the four of R211. -/
def Obligations.FaultingHdrLeavesNoTree : Prop :=
  ∀ s u : State, s.cause = 0#5 → exec .hdr s = .next u → u.cause ≠ 0#5 →
    (u.cause = 2 ∨ u.cause = 8 ∨ u.cause = 9 ∨ u.cause = 10) ∧ s.inPos ≤ u.inPos ∧
    u = { s with
      nodes := [], root := 0x3FF, cur := 0x3FF, codeOk := false, done := false,
      code := Vector.replicate 257 ⟨false, 0, []⟩, inPos := u.inPos, ops := u.ops, cause := u.cause, info := u.info,
      rsp := some ⟨u.cause.setWidth 8, 0⟩ }

/-- R165, R167, R169, R168, R211: which fault `HDR` raises, with its `INFO` and IN's cursor. A lone leaf is a
`DegenerateTree`. After any items that begin a header and do not end it, in whatever shape, the four ways to stop are those of
`HeaderFault`: IN ends before a tag or inside a field (`TruncatedHeader` with the nodes allocated so far, a cut leaf counted), a
field above 256 (`BadSymbol`, a lone leaf's and an inner leaf's), the first bit of a 514th node (`TreeOverflow`). And every proper
beginning of a sound header is the first or the second of these. -/
def Obligations.HdrNamesTheFaultItMeets : Prop :=
  ∀ s : State, s.cause = 0#5 →
    (∀ (sym : Sym) (rest : List Bool), sym.toNat ≤ 256 → s.ahead = true :: msbBits sym ++ rest →
      ∃ u, exec .hdr s = .next u ∧ u.cause = 10 ∧ u.info = sym.setWidth 64 ∧ u.inPos = s.inPos + 10) ∧
    (∀ (items : List HeaderItem) (tail : List Bool) (code : BitVec 5) (info : Word64) (used : Nat),
      OpenHeader items → HeaderFault items.length tail code info used → s.ahead = itemBits items ++ tail →
        ∃ u, exec .hdr s = .next u ∧ u.cause = code ∧ u.info = info ∧ u.inPos = s.inPos + (itemBits items).length + used) ∧
    ∀ t : CodeTree, t.leaves ≤ 257 → (∀ sym ∈ t.syms, sym.toNat ≤ 256) → s.ahead <+: t.hdr → s.ahead ≠ t.hdr →
      ∃ items tail info used, OpenHeader items ∧ HeaderFault items.length tail 2 info used ∧
        s.ahead = itemBits items ++ tail ∧
        ∃ u, exec .hdr s = .next u ∧ u.cause = 2 ∧ u.info = info ∧ u.inPos = s.inPos + (itemBits items).length + used

/-! ## Body family -/

/-- R181: `ENC` rewinds IN, appends the code of every byte and then the sentinel's, and changes nothing else; IN's cursor ends
after the last whole byte. -/
def Obligations.EncAppendsTheCodes : Prop :=
  ∀ s : State, s.cause = 0#5 → s.codeOk = true → (∀ b ∈ takeBytes s.inBits, (s.codeAt b.toNat).valid = true) →
    (s.codeAt 256).valid = true →
      ∃ u, exec .enc s = .next u ∧
        u = { s with
          inPos := 8 * (takeBytes s.inBits).length,
          outItems := s.outItems ++
            ((takeBytes s.inBits).flatMap (fun b => (s.codeAt b.toNat).bits) ++ (s.codeAt 256).bits).map .bit,
          ops := u.ops, rsp := some ⟨0, 0⟩ }

/-- R181, R227: the first byte without a code, or else the sentinel, raises `MissingCode`; the codes before it stay in OUT. -/
def Obligations.EncRaisesMissingCode : Prop :=
  ∀ s : State, s.cause = 0#5 → s.codeOk = true →
    (∀ (pre post : List Byte) (b : Byte), takeBytes s.inBits = pre ++ b :: post →
      (∀ a ∈ pre, (s.codeAt a.toNat).valid = true) → (s.codeAt b.toNat).valid = false →
        ∃ u, exec .enc s = .next u ∧
          u = { s with
            inPos := 8 * (pre.length + 1), ops := u.ops,
            outItems := s.outItems ++ (pre.flatMap fun a => (s.codeAt a.toNat).bits).map .bit,
            cause := 11, info := b.setWidth 64, rsp := some ⟨11, 0⟩ }) ∧
    ((∀ b ∈ takeBytes s.inBits, (s.codeAt b.toNat).valid = true) → (s.codeAt 256).valid = false →
      ∃ u, exec .enc s = .next u ∧
        u = { s with
          inPos := 8 * (takeBytes s.inBits).length, ops := u.ops,
          outItems := s.outItems ++ ((takeBytes s.inBits).flatMap fun a => (s.codeAt a.toNat).bits).map .bit,
          cause := 11, info := 256, rsp := some ⟨11, 0⟩ })

/-- R182, R183: with the path of a leaf ahead, `DSYM` consumes exactly it. At the sentinel's leaf it sets `DONE`, stays on the
entry that the path leads to from the root, and writes nothing; at another leaf it writes the byte and goes back to the root.
Nothing else changes. -/
def Obligations.DsymDecodesTheLeafItsBitsLeadTo : Prop :=
  ∀ (s : State) (t : CodeTree) (sym : Sym) (p rest : List Bool),
    s.cause = 0#5 → s.root ≠ 0x3FF#10 → s.done = false → s.tree = some t → t.isLeaf = false →
    (sym, p) ∈ t.codes [] → s.ahead = p ++ rest →
      (sym = 256#9 → ∃ u, exec .dsym s = .next u ∧
        u = { s with
          cur := u.cur, done := true, inPos := s.inPos + p.length, ops := u.ops, rsp := some ⟨0, 0x300⟩ } ∧
        walkFrom s.nodes s.root p = some u.cur ∧ ∃ n, u.nodeAt u.cur = some n ∧ n.kind = .leaf ∧ n.sym = 256#9) ∧
      (sym ≠ 256#9 → ∃ u, exec .dsym s = .next u ∧
        u = { s with
          cur := s.root, inPos := s.inPos + p.length,
          outItems := s.outItems ++ (msbBits (sym.setWidth 8 : Byte)).map .bit, ops := u.ops,
          rsp := some ⟨0, sym.setWidth 64⟩ })

/-- R182, R183, R227: when IN ends before a leaf is reached, `DSYM` raises `TruncatedBody` with the node the walker stands on,
which is the entry the bits ahead lead to from the root: an internal node, the root itself when IN was at its end. All bits are
consumed and nothing is written. -/
def Obligations.DsymRaisesTruncatedBody : Prop :=
  ∀ (s : State) (t : CodeTree) (sym : Sym) (p : List Bool),
    s.cause = 0#5 → s.root ≠ 0x3FF#10 → s.done = false → s.tree = some t → t.isLeaf = false →
    (sym, p) ∈ t.codes [] → s.ahead <+: p → s.ahead ≠ p →
      ∃ u, exec .dsym s = .next u ∧
        u = { s with
          cur := u.cur, inPos := s.inPos + s.ahead.length, ops := u.ops, cause := 3, info := u.cur.setWidth 64,
          rsp := some ⟨3, 0⟩ } ∧
        walkFrom s.nodes s.root s.ahead = some u.cur ∧ (s.ahead = [] → u.cur = s.root) ∧ ∃ n, u.nodeAt u.cur = some n ∧ n.kind = .int

/-- R185: with the codes of `syms` and then the sentinel's ahead, `DEC` writes their bytes, consumes exactly those bits,
whatever follows them, and halts on the sentinel's leaf that the last code leads to from the root. -/
def Obligations.DecDecodesABody : Prop :=
  ∀ (s : State) (t : CodeTree) (syms : List Sym) (bits p rest : List Bool),
    s.cause = 0#5 → s.root ≠ 0x3FF#10 → s.done = false → s.tree = some t → t.isLeaf = false →
    Body t syms bits → (256#9, p) ∈ t.codes [] → s.ahead = bits ++ p ++ rest →
      ∃ u, exec .dec s = .next u ∧
        u = { s with
          cur := u.cur, done := true, inPos := s.inPos + bits.length + p.length,
          outItems := s.outItems ++ (bitsOfBytes (syms.map fun sym => sym.setWidth 8)).map .bit, ops := u.ops,
          rsp := some ⟨0, 0⟩ } ∧
        walkFrom s.nodes s.root p = some u.cur ∧ ∃ n, u.nodeAt u.cur = some n ∧ n.kind = .leaf ∧ n.sym = 256#9

/-- R185: state and streams after `DEC` are exactly those after the sequence of `DSYM` commands that ends with the first
`END` = 1 response or the first fault; only the response differs. -/
def Obligations.DecIsRepeatedDsym : Prop :=
  ∀ s u : State, s.cause = 0#5 → s.root ≠ 0x3FF#10 → s.done = false → exec .dec s = .next u →
    ∃ v, DsymRun s v ∧ { u with rsp := v.rsp } = v

/-! ## Faults -/

/-- R222: in error every command but `CLR` and the five read commands is refused: nothing but the response changes; `CLR` ends
normally, and so does a read command whose operand is in range. -/
def Obligations.CommandsAreRefusedInError : Prop :=
  ∀ (i : Instr) (s : State), s.cause ≠ 0#5 →
    (i ≠ .clr → (∀ n, i ≠ .rds n) → (∀ n, i ≠ .rdf n) → (∀ n, i ≠ .rdn n) → (∀ n, i ≠ .rdw n) → (∀ n c, i ≠ .rdc n c) →
      exec i s = .next { s with rsp := some ⟨0x0C, 0⟩ }) ∧
    (i = .clr → ∃ t, exec i s = .next t ∧ t.rsp = some ⟨0, 0⟩ ∧ t.cause = 0) ∧
    (i.isRead = true → i.operandInRange = true → ∃ d, exec i s = .next { s with rsp := some ⟨0, d⟩ })

/-- R220, R223: once a fault is recorded, `CAUSE` and `INFO` keep the first one through every command but `CLR`. -/
def Obligations.FirstFaultStaysUntilClr : Prop :=
  ∀ (i : Instr) (s t : State), s.cause ≠ 0#5 → i ≠ .clr → exec i s = .next t → t.cause = s.cause ∧ t.info = s.info

/-- R210, R220, R92: a command that is not refused ends with the status of the fault it latched, or with `OK` and no fault
latched; every status but `OK` comes with data 0. -/
def Obligations.ResponseStatusIsTheLatchedCause : Prop :=
  ∀ (i : Instr) (s t : State), s.cause = 0#5 → exec i s = .next t →
    ∃ r, t.rsp = some r ∧ r.status = t.cause.setWidth 8 ∧ (r.status ≠ 0 → r.data = 0)

/-- R211: which commands raise which cause. -/
def Obligations.EachCauseComesFromItsCommands : Prop :=
  ∀ (i : Instr) (s t : State), s.cause = 0#5 → exec i s = .next t →
    (t.cause = 1 → i = .mgr) ∧ (t.cause = 2 ∨ t.cause = 8 ∨ t.cause = 9 ∨ t.cause = 10 → i = .hdr) ∧
    (t.cause = 3 → i = .dec ∨ i = .dsym) ∧ t.cause ≠ 4 ∧ (t.cause = 5 → i.operandInRange = false) ∧
    (t.cause = 6 → i = .gen ∨ i = .hdw ∨ i = .enc ∨ i = .dec ∨ i = .dsym) ∧ (t.cause = 7 → i = .cnt) ∧
    (t.cause = 11 → i = .enc) ∧ t.cause.toNat ≤ 11

/-- R96, R221 step 3, R211: an operand outside its space raises `BadOperand` with the command word; nothing else changes. For
a read command in error only the response tells of it. -/
def Obligations.OperandOutOfRangeRaisesBadOperand : Prop :=
  ∀ (i : Instr) (s : State), i.operandInRange = false →
    (s.cause = 0#5 → exec i s = .next { s with cause := 5, info := encode i, rsp := some ⟨5, 0⟩ }) ∧
    (s.cause ≠ 0#5 → i.isRead = true → exec i s = .next { s with rsp := some ⟨5, 0⟩ })

/-- R221 step 4, R184, R211: a precondition that fails raises `SequenceError` with the command word; nothing else changes. -/
def Obligations.FailedPreconditionRaisesSequenceError : Prop :=
  ∀ (i : Instr) (s : State), s.cause = 0#5 →
    ((i = .gen ∨ i = .hdw) ∧ s.root = 0x3FF#10) ∨ (i = .enc ∧ s.codeOk = false) ∨
      ((i = .dec ∨ i = .dsym) ∧ (s.root = 0x3FF#10 ∨ s.done = true)) →
    exec i s = .next { s with cause := 6, info := encode i, rsp := some ⟨6, 0⟩ }

/-! ## Rules about every command -/

/-- R77, R37, R222: a read command whose operand is in range answers `OK` and changes nothing but the response, in error or
not. -/
def Obligations.ReadCommandsChangeNothing : Prop :=
  ∀ (i : Instr) (s : State), i.isRead = true → i.operandInRange = true →
    ∃ d, exec i s = .next { s with rsp := some ⟨0, d⟩ }

/-- R22, R24, R26, R27, R30, R38, R75 and R61, R64, R37: who writes what. A command outside the list of a table or register
leaves it alone; no command writes the bits of IN, the parameter `MAGIC` or what the host does next, and OUT only grows. -/
def Obligations.EachPieceOfStateHasItsWriters : Prop :=
  ∀ (i : Instr) (s t : State), exec i s = .next t →
    (t.inBits = s.inBits ∧ t.magic = s.magic ∧ t.host = s.host ∧ s.outItems <+: t.outItems) ∧
    (i ≠ .clr →
    ((∀ idx data, i ≠ .ldf idx data) → i ≠ .cnt → t.freq = s.freq) ∧
    (i ≠ .bld → i ≠ .hdr → t.nodes = s.nodes ∧ t.root = s.root) ∧
    (i ≠ .bld → t.seq = s.seq ∧ t.pq = s.pq) ∧
    (i ≠ .bld → i ≠ .hdr → i ≠ .gen → t.code = s.code ∧ t.codeOk = s.codeOk) ∧
    (i ≠ .bld → i ≠ .hdr → i ≠ .dec → i ≠ .dsym → t.cur = s.cur ∧ t.done = s.done))

/-- R63, R66, R68, R72: which stream operations each command performs, with which widths; and the ordered list of them is all
the command does to the streams: replaying the list from the state the command started in gives the cursor and the output
it left. The list is the model's own record of R68's ordered effects (notes/assumptions/5). -/
def Obligations.StreamOperationsAreThoseOfTheTable : Prop :=
  ∀ (i : Instr) (s t : State), exec i s = .next t →
    ∃ l, t.ops = s.ops ++ l ∧ (∀ op ∈ l, allowedOp i op = true) ∧
      t.inPos = (replay l s).inPos ∧ t.outItems = (replay l s).outItems

/-! ## Invariants -/

/-- The state after reset meets every invariant below: R46's values do, and with no streams attached, which is the model's choice
(notes/assumptions/1), IN's cursor lies within IN (R61). -/
def Obligations.ResetMeetsTheInvariants : Prop :=
  ArenaOk State.reset ∧ CodeOk State.reset ∧ WalkerOk State.reset ∧ FaultOk State.reset ∧ State.reset.pq = [] ∧
    State.reset.inPos ≤ State.reset.inBits.length

/-- R25: every step keeps the tree invariant. -/
def Obligations.StepKeepsTheTreeInvariant : Prop :=
  ∀ s t : State, ArenaOk s → step s = .next t → ArenaOk t

/-- R47, R28: every step keeps `CODE` the table of the tree in the arena while `CODE_OK` = 1, and empty while it is 0. -/
def Obligations.StepKeepsTheCodeTableCurrent : Prop :=
  ∀ s t : State, CodeOk s → step s = .next t → CodeOk t

/-- R47, R32: every step keeps the walker on a node it may stand on, and on a sentinel's leaf while `DONE` = 1. -/
def Obligations.StepKeepsTheWalkerInTheTree : Prop :=
  ∀ s t : State, ArenaOk s → WalkerOk s → step s = .next t → WalkerOk t

/-- R33, R35, R211, R92: every step keeps the fault registers and the response within what the spec lets them hold. -/
def Obligations.StepKeepsTheFaultRegistersLegal : Prop :=
  ∀ s t : State, FaultOk s → step s = .next t → FaultOk t

/-- R26, R47, R61: every step leaves the priority queue empty and IN's cursor within IN. -/
def Obligations.StepKeepsTheQueueEmptyAndTheCursorInside : Prop :=
  ∀ s t : State, s.pq = [] → s.inPos ≤ s.inBits.length → step s = .next t → t.pq = [] ∧ t.inPos ≤ t.inBits.length

/-- R25 items 2 and 5: in a sound arena the tree is there, is not a single leaf, has `(NN + 1) / 2` leaves and a depth of at
most 256, and its symbols are at most 256. -/
def Obligations.SoundArenaHoldsABoundedTree : Prop :=
  ∀ s : State, ArenaOk s → s.root ≠ 0x3FF#10 →
    ∃ t, s.tree = some t ∧ t.isLeaf = false ∧ 2 * t.leaves = s.nodes.length + 1 ∧ t.depth ≤ 256 ∧
      ∀ sym ∈ t.syms, sym.toNat ≤ 256

/-- From a sound arena no step ends in a fault or a refusal: every command, every word and every action of the host has a
next state (R210, R261). -/
def Obligations.StepFromASoundArenaAlwaysGoesOn : Prop :=
  ∀ s : State, ArenaOk s → ∃ t, step s = .next t

/-! ## Whole calls -/

/-- R99, R100: `COMPRESS` of a byte sequence ends with every response `OK` and writes the magic, the header of its tree, the
codes of the bytes and the sentinel's, and one flush marker. -/
def Obligations.CompressWritesMagicHeaderAndBody : Prop :=
  ∀ (bytes : List Byte) (s : State), (∀ v : Byte, bytes.count v < 2 ^ 32) → s.inBits = bitsOfBytes bytes → s.inPos = 0 →
    ∃ t tr, runOk Pseudo.compress.expand s = some t ∧ t.tree = some tr ∧ t.code = tableOf tr ∧
      (∀ v ∈ bytes, (t.codeAt v.toNat).valid = true) ∧ (t.codeAt 256).valid = true ∧
      t.outItems = s.outItems ++ (msbBits s.magic ++ tr.hdr ++
        (bytes.flatMap (fun v => (t.codeAt v.toNat).bits) ++ (t.codeAt 256).bits)).map .bit ++ [.flush]

/-- R186: decompress(compress(S)) = S, for every byte sequence in which no byte value occurs more than `2^32 - 1` times and
whatever bits follow the compressed ones; the two runs may start in any states that hold the same `MAGIC`. -/
def Obligations.DecompressUndoesCompress : Prop :=
  ∀ (bytes : List Byte) (s s' : State) (pad : List Bool),
    (∀ v : Byte, bytes.count v < 2 ^ 32) → s.inBits = bitsOfBytes bytes → s.inPos = 0 → s.outItems = [] →
      ∃ t, runOk Pseudo.compress.expand s = some t ∧
        (s'.magic = s.magic → s'.inBits = outBitsOf t.outItems ++ pad → s'.inPos = 0 → s'.outItems = [] →
          ∃ u, runOk Pseudo.decompress.expand s' = some u ∧ outBitsOf u.outItems = bitsOfBytes bytes)
end

