-- ==== Sys2Proof/Laws/Bits.lean ====
section
/-! SUPPORT. The laws of bit sequences: `val` and `msb_n` are inverse to each other (`00_scope.md` R8), and the bytes of a
stream come back as they were laid out (`20_memory.md` R69). -/

namespace Sys2Proof.Machine

@[simp] theorem msbBits_length {n : Nat} (v : BitVec n) : (msbBits v).length = n := by simp [msbBits]

theorem bitsVal_snoc (l : List Bool) (b : Bool) : bitsVal (l ++ [b]) = 2 * bitsVal l + b.toNat := by
  simp [bitsVal]

@[simp] theorem bitsVal_nil : bitsVal [] = 0 := rfl

theorem bitsVal_append (a b : List Bool) : bitsVal (a ++ b) = bitsVal a * 2 ^ b.length + bitsVal b := by
  induction b using List.reverseRecOn with
  | nil => simp
  | append_singleton b x ih =>
    rw [← List.append_assoc, bitsVal_snoc, ih, bitsVal_snoc, List.length_append, pow_add]
    simp; ring

theorem bitsVal_lt (l : List Bool) : bitsVal l < 2 ^ l.length := by
  induction l using List.reverseRecOn with
  | nil => simp
  | append_singleton l b ih =>
    rw [bitsVal_snoc, List.length_append, pow_add]
    have : b.toNat ≤ 1 := Bool.toNat_le b
    simp; omega

/-- Bit `j` of `val(s)`, counted from the least significant, is the element `j` places from the end of `s`. -/
theorem bitsVal_testBit (l : List Bool) (j : Nat) : (bitsVal l).testBit j = (l.reverse[j]?).getD false := by
  induction l using List.reverseRecOn generalizing j with
  | nil => simp
  | append_singleton l b ih =>
    rw [bitsVal_snoc]
    cases j with
    | zero => cases b <;> simp [Nat.testBit_zero]
    | succ j =>
      have h : (2 * bitsVal l + b.toNat) / 2 = bitsVal l := by
        have : b.toNat ≤ 1 := Bool.toNat_le b
        omega
      rw [Nat.testBit_succ, h, ih]; simp

/-- `msb_n(val(s))` is `s` (R8). -/
theorem msbBits_bitsVal (l : List Bool) : msbBits (BitVec.ofNat l.length (bitsVal l)) = l := by
  apply List.ext_getElem (by simp)
  intro i h _
  have hi : i < l.length := by simpa using h
  simp only [msbBits, List.getElem_map, List.getElem_range]
  rw [BitVec.getMsbD_eq_getLsbD, BitVec.getLsbD_ofNat, bitsVal_testBit]
  have h2 : l.length - 1 - i < l.length := by omega
  have h3 : l.length - 1 - (l.length - 1 - i) = i := by omega
  simp [hi, h2, h3]

theorem msbBits_ofNat_bitsVal {n : Nat} (l : List Bool) (h : l.length = n) :
    msbBits (BitVec.ofNat n (bitsVal l)) = l := by
  subst h; exact msbBits_bitsVal l

theorem msbBits_injective {n : Nat} {v w : BitVec n} (h : msbBits v = msbBits w) : v = w := by
  apply BitVec.eq_of_getMsbD_eq
  intro i hi
  have := congrArg (fun l => l[i]?) h
  simpa [msbBits, hi] using this

/-- `val(msb_n(v))` is `v` (R8). -/
theorem ofNat_bitsVal_msbBits {n : Nat} (v : BitVec n) : BitVec.ofNat n (bitsVal (msbBits v)) = v :=
  msbBits_injective (msbBits_ofNat_bitsVal _ (msbBits_length v))

theorem bitsVal_msbBits {n : Nat} (v : BitVec n) : bitsVal (msbBits v) = v.toNat := by
  have h := congrArg BitVec.toNat (ofNat_bitsVal_msbBits v)
  have hl : bitsVal (msbBits v) < 2 ^ n := by simpa using bitsVal_lt (msbBits v)
  rwa [BitVec.toNat_ofNat, Nat.mod_eq_of_lt hl] at h

/-! ## Bytes -/

@[simp] theorem bitsOfBytes_nil : bitsOfBytes [] = [] := rfl

@[simp] theorem bitsOfBytes_cons (b : Byte) (bs : List Byte) :
    bitsOfBytes (b :: bs) = msbBits b ++ bitsOfBytes bs := rfl

@[simp] theorem bitsOfBytes_append (a b : List Byte) :
    bitsOfBytes (a ++ b) = bitsOfBytes a ++ bitsOfBytes b := by simp [bitsOfBytes]

@[simp] theorem bitsOfBytes_length (bs : List Byte) : (bitsOfBytes bs).length = 8 * bs.length := by
  induction bs with
  | nil => rfl
  | cons b bs ih => simp [ih]; omega

/-- Eight bits ahead make a byte. -/
theorem takeBytes_of_le (l : List Bool) (h : 8 ≤ l.length) :
    takeBytes l = BitVec.ofNat 8 (bitsVal (l.take 8)) :: takeBytes (l.drop 8) := by
  match l, h with
  | b7 :: b6 :: b5 :: b4 :: b3 :: b2 :: b1 :: b0 :: rest, _ => rfl

/-- Fewer than eight bits ahead make none (R62). -/
theorem takeBytes_of_lt (l : List Bool) (h : l.length < 8) : takeBytes l = [] := by
  unfold takeBytes
  split
  · simp at h; omega
  · rfl

theorem takeBytes_msbBits_append (b : Byte) (l : List Bool) : takeBytes (msbBits b ++ l) = b :: takeBytes l := by
  rw [takeBytes_of_le _ (by simp)]
  have h : (msbBits b).length = 8 := msbBits_length b
  rw [List.take_append_of_le_length (by omega), List.take_of_length_le (by omega),
    List.drop_append_of_le_length (by omega), List.drop_of_length_le (by omega), List.nil_append,
    ofNat_bitsVal_msbBits]

/-- The bytes of a stream of bytes with a tail of fewer than eight bits are those bytes (R69, R122). -/
theorem takeBytes_bitsOfBytes (bs : List Byte) (tail : List Bool) (h : tail.length < 8) :
    takeBytes (bitsOfBytes bs ++ tail) = bs := by
  induction bs with
  | nil => simpa using takeBytes_of_lt tail h
  | cons b bs ih => rw [bitsOfBytes_cons, List.append_assoc, takeBytes_msbBits_append, ih]

/-- The byte view of a stream of whole bytes, whatever the pad bit (R69). -/
theorem bytesOfBits_bitsOfBytes (pad : Bool) (bs : List Byte) : bytesOfBits pad (bitsOfBytes bs) = bs := by
  induction bs with
  | nil => rfl
  | cons b bs ih =>
    have h := ofNat_bitsVal_msbBits b
    rw [bitsOfBytes_cons]
    generalize hm : msbBits b = m at h
    have hl : m.length = 8 := by rw [← hm]; exact msbBits_length b
    match m, hl with
    | [b7, b6, b5, b4, b3, b2, b1, b0], _ =>
      simp only [List.cons_append, List.nil_append, bytesOfBits, h, ih]

end Sys2Proof.Machine
end

