-- ==== Sys2Proof/Laws/State.lean ====
section
/-! SUPPORT. What each named operation does to each field of the state: one lemma per field and operation, all by
unfolding, so that no later proof unfolds a record update. `raise` and `inRead`, which branch, stand at the end. -/

namespace Sys2Proof.Machine

variable (s : State)

/-! ## `setFreq` -/

@[simp] theorem State.setFreq_freq (i : Nat) (v : Count) : (s.setFreq i v).freq = s.freq.setIfInBounds i v := rfl
@[simp] theorem State.setFreq_nodes (i : Nat) (v : Count) : (s.setFreq i v).nodes = s.nodes := rfl
@[simp] theorem State.setFreq_pq (i : Nat) (v : Count) : (s.setFreq i v).pq = s.pq := rfl
@[simp] theorem State.setFreq_seq (i : Nat) (v : Count) : (s.setFreq i v).seq = s.seq := rfl
@[simp] theorem State.setFreq_code (i : Nat) (v : Count) : (s.setFreq i v).code = s.code := rfl
@[simp] theorem State.setFreq_codeOk (i : Nat) (v : Count) : (s.setFreq i v).codeOk = s.codeOk := rfl
@[simp] theorem State.setFreq_done (i : Nat) (v : Count) : (s.setFreq i v).done = s.done := rfl
@[simp] theorem State.setFreq_root (i : Nat) (v : Count) : (s.setFreq i v).root = s.root := rfl
@[simp] theorem State.setFreq_cur (i : Nat) (v : Count) : (s.setFreq i v).cur = s.cur := rfl
@[simp] theorem State.setFreq_cause (i : Nat) (v : Count) : (s.setFreq i v).cause = s.cause := rfl
@[simp] theorem State.setFreq_info (i : Nat) (v : Count) : (s.setFreq i v).info = s.info := rfl
@[simp] theorem State.setFreq_magic (i : Nat) (v : Count) : (s.setFreq i v).magic = s.magic := rfl
@[simp] theorem State.setFreq_rsp (i : Nat) (v : Count) : (s.setFreq i v).rsp = s.rsp := rfl
@[simp] theorem State.setFreq_inBits (i : Nat) (v : Count) : (s.setFreq i v).inBits = s.inBits := rfl
@[simp] theorem State.setFreq_inPos (i : Nat) (v : Count) : (s.setFreq i v).inPos = s.inPos := rfl
@[simp] theorem State.setFreq_outItems (i : Nat) (v : Count) : (s.setFreq i v).outItems = s.outItems := rfl
@[simp] theorem State.setFreq_ops (i : Nat) (v : Count) : (s.setFreq i v).ops = s.ops := rfl
@[simp] theorem State.setFreq_host (i : Nat) (v : Count) : (s.setFreq i v).host = s.host := rfl

/-! ## `clearFreq` -/

@[simp] theorem State.clearFreq_freq : (s.clearFreq).freq = Vector.replicate 256 0 := rfl
@[simp] theorem State.clearFreq_nodes : (s.clearFreq).nodes = s.nodes := rfl
@[simp] theorem State.clearFreq_pq : (s.clearFreq).pq = s.pq := rfl
@[simp] theorem State.clearFreq_seq : (s.clearFreq).seq = s.seq := rfl
@[simp] theorem State.clearFreq_code : (s.clearFreq).code = s.code := rfl
@[simp] theorem State.clearFreq_codeOk : (s.clearFreq).codeOk = s.codeOk := rfl
@[simp] theorem State.clearFreq_done : (s.clearFreq).done = s.done := rfl
@[simp] theorem State.clearFreq_root : (s.clearFreq).root = s.root := rfl
@[simp] theorem State.clearFreq_cur : (s.clearFreq).cur = s.cur := rfl
@[simp] theorem State.clearFreq_cause : (s.clearFreq).cause = s.cause := rfl
@[simp] theorem State.clearFreq_info : (s.clearFreq).info = s.info := rfl
@[simp] theorem State.clearFreq_magic : (s.clearFreq).magic = s.magic := rfl
@[simp] theorem State.clearFreq_rsp : (s.clearFreq).rsp = s.rsp := rfl
@[simp] theorem State.clearFreq_inBits : (s.clearFreq).inBits = s.inBits := rfl
@[simp] theorem State.clearFreq_inPos : (s.clearFreq).inPos = s.inPos := rfl
@[simp] theorem State.clearFreq_outItems : (s.clearFreq).outItems = s.outItems := rfl
@[simp] theorem State.clearFreq_ops : (s.clearFreq).ops = s.ops := rfl
@[simp] theorem State.clearFreq_host : (s.clearFreq).host = s.host := rfl

/-! ## `allocNode` -/

@[simp] theorem State.allocNode_freq (n : Node) : (s.allocNode n).freq = s.freq := rfl
@[simp] theorem State.allocNode_nodes (n : Node) : (s.allocNode n).nodes = s.nodes ++ [n] := rfl
@[simp] theorem State.allocNode_pq (n : Node) : (s.allocNode n).pq = s.pq := rfl
@[simp] theorem State.allocNode_seq (n : Node) : (s.allocNode n).seq = s.seq := rfl
@[simp] theorem State.allocNode_code (n : Node) : (s.allocNode n).code = s.code := rfl
@[simp] theorem State.allocNode_codeOk (n : Node) : (s.allocNode n).codeOk = s.codeOk := rfl
@[simp] theorem State.allocNode_done (n : Node) : (s.allocNode n).done = s.done := rfl
@[simp] theorem State.allocNode_root (n : Node) : (s.allocNode n).root = s.root := rfl
@[simp] theorem State.allocNode_cur (n : Node) : (s.allocNode n).cur = s.cur := rfl
@[simp] theorem State.allocNode_cause (n : Node) : (s.allocNode n).cause = s.cause := rfl
@[simp] theorem State.allocNode_info (n : Node) : (s.allocNode n).info = s.info := rfl
@[simp] theorem State.allocNode_magic (n : Node) : (s.allocNode n).magic = s.magic := rfl
@[simp] theorem State.allocNode_rsp (n : Node) : (s.allocNode n).rsp = s.rsp := rfl
@[simp] theorem State.allocNode_inBits (n : Node) : (s.allocNode n).inBits = s.inBits := rfl
@[simp] theorem State.allocNode_inPos (n : Node) : (s.allocNode n).inPos = s.inPos := rfl
@[simp] theorem State.allocNode_outItems (n : Node) : (s.allocNode n).outItems = s.outItems := rfl
@[simp] theorem State.allocNode_ops (n : Node) : (s.allocNode n).ops = s.ops := rfl
@[simp] theorem State.allocNode_host (n : Node) : (s.allocNode n).host = s.host := rfl

/-! ## `setNode` -/

@[simp] theorem State.setNode_freq (i : Idx) (n : Node) : (s.setNode i n).freq = s.freq := rfl
@[simp] theorem State.setNode_nodes (i : Idx) (n : Node) : (s.setNode i n).nodes = s.nodes.set i.toNat n := rfl
@[simp] theorem State.setNode_pq (i : Idx) (n : Node) : (s.setNode i n).pq = s.pq := rfl
@[simp] theorem State.setNode_seq (i : Idx) (n : Node) : (s.setNode i n).seq = s.seq := rfl
@[simp] theorem State.setNode_code (i : Idx) (n : Node) : (s.setNode i n).code = s.code := rfl
@[simp] theorem State.setNode_codeOk (i : Idx) (n : Node) : (s.setNode i n).codeOk = s.codeOk := rfl
@[simp] theorem State.setNode_done (i : Idx) (n : Node) : (s.setNode i n).done = s.done := rfl
@[simp] theorem State.setNode_root (i : Idx) (n : Node) : (s.setNode i n).root = s.root := rfl
@[simp] theorem State.setNode_cur (i : Idx) (n : Node) : (s.setNode i n).cur = s.cur := rfl
@[simp] theorem State.setNode_cause (i : Idx) (n : Node) : (s.setNode i n).cause = s.cause := rfl
@[simp] theorem State.setNode_info (i : Idx) (n : Node) : (s.setNode i n).info = s.info := rfl
@[simp] theorem State.setNode_magic (i : Idx) (n : Node) : (s.setNode i n).magic = s.magic := rfl
@[simp] theorem State.setNode_rsp (i : Idx) (n : Node) : (s.setNode i n).rsp = s.rsp := rfl
@[simp] theorem State.setNode_inBits (i : Idx) (n : Node) : (s.setNode i n).inBits = s.inBits := rfl
@[simp] theorem State.setNode_inPos (i : Idx) (n : Node) : (s.setNode i n).inPos = s.inPos := rfl
@[simp] theorem State.setNode_outItems (i : Idx) (n : Node) : (s.setNode i n).outItems = s.outItems := rfl
@[simp] theorem State.setNode_ops (i : Idx) (n : Node) : (s.setNode i n).ops = s.ops := rfl
@[simp] theorem State.setNode_host (i : Idx) (n : Node) : (s.setNode i n).host = s.host := rfl

/-! ## `setLeft` -/

@[simp] theorem State.setLeft_freq (i c : Idx) : (s.setLeft i c).freq = s.freq := rfl
@[simp] theorem State.setLeft_nodes (i c : Idx) : (s.setLeft i c).nodes = s.nodes.modify i.toNat (fun n => { n with left := c }) := rfl
@[simp] theorem State.setLeft_pq (i c : Idx) : (s.setLeft i c).pq = s.pq := rfl
@[simp] theorem State.setLeft_seq (i c : Idx) : (s.setLeft i c).seq = s.seq := rfl
@[simp] theorem State.setLeft_code (i c : Idx) : (s.setLeft i c).code = s.code := rfl
@[simp] theorem State.setLeft_codeOk (i c : Idx) : (s.setLeft i c).codeOk = s.codeOk := rfl
@[simp] theorem State.setLeft_done (i c : Idx) : (s.setLeft i c).done = s.done := rfl
@[simp] theorem State.setLeft_root (i c : Idx) : (s.setLeft i c).root = s.root := rfl
@[simp] theorem State.setLeft_cur (i c : Idx) : (s.setLeft i c).cur = s.cur := rfl
@[simp] theorem State.setLeft_cause (i c : Idx) : (s.setLeft i c).cause = s.cause := rfl
@[simp] theorem State.setLeft_info (i c : Idx) : (s.setLeft i c).info = s.info := rfl
@[simp] theorem State.setLeft_magic (i c : Idx) : (s.setLeft i c).magic = s.magic := rfl
@[simp] theorem State.setLeft_rsp (i c : Idx) : (s.setLeft i c).rsp = s.rsp := rfl
@[simp] theorem State.setLeft_inBits (i c : Idx) : (s.setLeft i c).inBits = s.inBits := rfl
@[simp] theorem State.setLeft_inPos (i c : Idx) : (s.setLeft i c).inPos = s.inPos := rfl
@[simp] theorem State.setLeft_outItems (i c : Idx) : (s.setLeft i c).outItems = s.outItems := rfl
@[simp] theorem State.setLeft_ops (i c : Idx) : (s.setLeft i c).ops = s.ops := rfl
@[simp] theorem State.setLeft_host (i c : Idx) : (s.setLeft i c).host = s.host := rfl

/-! ## `setRight` -/

@[simp] theorem State.setRight_freq (i c : Idx) : (s.setRight i c).freq = s.freq := rfl
@[simp] theorem State.setRight_nodes (i c : Idx) : (s.setRight i c).nodes = s.nodes.modify i.toNat (fun n => { n with right := c }) := rfl
@[simp] theorem State.setRight_pq (i c : Idx) : (s.setRight i c).pq = s.pq := rfl
@[simp] theorem State.setRight_seq (i c : Idx) : (s.setRight i c).seq = s.seq := rfl
@[simp] theorem State.setRight_code (i c : Idx) : (s.setRight i c).code = s.code := rfl
@[simp] theorem State.setRight_codeOk (i c : Idx) : (s.setRight i c).codeOk = s.codeOk := rfl
@[simp] theorem State.setRight_done (i c : Idx) : (s.setRight i c).done = s.done := rfl
@[simp] theorem State.setRight_root (i c : Idx) : (s.setRight i c).root = s.root := rfl
@[simp] theorem State.setRight_cur (i c : Idx) : (s.setRight i c).cur = s.cur := rfl
@[simp] theorem State.setRight_cause (i c : Idx) : (s.setRight i c).cause = s.cause := rfl
@[simp] theorem State.setRight_info (i c : Idx) : (s.setRight i c).info = s.info := rfl
@[simp] theorem State.setRight_magic (i c : Idx) : (s.setRight i c).magic = s.magic := rfl
@[simp] theorem State.setRight_rsp (i c : Idx) : (s.setRight i c).rsp = s.rsp := rfl
@[simp] theorem State.setRight_inBits (i c : Idx) : (s.setRight i c).inBits = s.inBits := rfl
@[simp] theorem State.setRight_inPos (i c : Idx) : (s.setRight i c).inPos = s.inPos := rfl
@[simp] theorem State.setRight_outItems (i c : Idx) : (s.setRight i c).outItems = s.outItems := rfl
@[simp] theorem State.setRight_ops (i c : Idx) : (s.setRight i c).ops = s.ops := rfl
@[simp] theorem State.setRight_host (i c : Idx) : (s.setRight i c).host = s.host := rfl

/-! ## `dropArena` -/

@[simp] theorem State.dropArena_freq : (s.dropArena).freq = s.freq := rfl
@[simp] theorem State.dropArena_nodes : (s.dropArena).nodes = [] := rfl
@[simp] theorem State.dropArena_pq : (s.dropArena).pq = s.pq := rfl
@[simp] theorem State.dropArena_seq : (s.dropArena).seq = s.seq := rfl
@[simp] theorem State.dropArena_code : (s.dropArena).code = s.code := rfl
@[simp] theorem State.dropArena_codeOk : (s.dropArena).codeOk = s.codeOk := rfl
@[simp] theorem State.dropArena_done : (s.dropArena).done = s.done := rfl
@[simp] theorem State.dropArena_root : (s.dropArena).root = s.root := rfl
@[simp] theorem State.dropArena_cur : (s.dropArena).cur = s.cur := rfl
@[simp] theorem State.dropArena_cause : (s.dropArena).cause = s.cause := rfl
@[simp] theorem State.dropArena_info : (s.dropArena).info = s.info := rfl
@[simp] theorem State.dropArena_magic : (s.dropArena).magic = s.magic := rfl
@[simp] theorem State.dropArena_rsp : (s.dropArena).rsp = s.rsp := rfl
@[simp] theorem State.dropArena_inBits : (s.dropArena).inBits = s.inBits := rfl
@[simp] theorem State.dropArena_inPos : (s.dropArena).inPos = s.inPos := rfl
@[simp] theorem State.dropArena_outItems : (s.dropArena).outItems = s.outItems := rfl
@[simp] theorem State.dropArena_ops : (s.dropArena).ops = s.ops := rfl
@[simp] theorem State.dropArena_host : (s.dropArena).host = s.host := rfl

/-! ## `insertQueue` -/

@[simp] theorem State.insertQueue_freq (w : Weight) (i : Idx) : (s.insertQueue w i).freq = s.freq := rfl
@[simp] theorem State.insertQueue_nodes (w : Weight) (i : Idx) : (s.insertQueue w i).nodes = s.nodes := rfl
@[simp] theorem State.insertQueue_pq (w : Weight) (i : Idx) : (s.insertQueue w i).pq = s.pq ++ [⟨w, s.seq, i⟩] := rfl
@[simp] theorem State.insertQueue_seq (w : Weight) (i : Idx) : (s.insertQueue w i).seq = s.seq + 1 := rfl
@[simp] theorem State.insertQueue_code (w : Weight) (i : Idx) : (s.insertQueue w i).code = s.code := rfl
@[simp] theorem State.insertQueue_codeOk (w : Weight) (i : Idx) : (s.insertQueue w i).codeOk = s.codeOk := rfl
@[simp] theorem State.insertQueue_done (w : Weight) (i : Idx) : (s.insertQueue w i).done = s.done := rfl
@[simp] theorem State.insertQueue_root (w : Weight) (i : Idx) : (s.insertQueue w i).root = s.root := rfl
@[simp] theorem State.insertQueue_cur (w : Weight) (i : Idx) : (s.insertQueue w i).cur = s.cur := rfl
@[simp] theorem State.insertQueue_cause (w : Weight) (i : Idx) : (s.insertQueue w i).cause = s.cause := rfl
@[simp] theorem State.insertQueue_info (w : Weight) (i : Idx) : (s.insertQueue w i).info = s.info := rfl
@[simp] theorem State.insertQueue_magic (w : Weight) (i : Idx) : (s.insertQueue w i).magic = s.magic := rfl
@[simp] theorem State.insertQueue_rsp (w : Weight) (i : Idx) : (s.insertQueue w i).rsp = s.rsp := rfl
@[simp] theorem State.insertQueue_inBits (w : Weight) (i : Idx) : (s.insertQueue w i).inBits = s.inBits := rfl
@[simp] theorem State.insertQueue_inPos (w : Weight) (i : Idx) : (s.insertQueue w i).inPos = s.inPos := rfl
@[simp] theorem State.insertQueue_outItems (w : Weight) (i : Idx) : (s.insertQueue w i).outItems = s.outItems := rfl
@[simp] theorem State.insertQueue_ops (w : Weight) (i : Idx) : (s.insertQueue w i).ops = s.ops := rfl
@[simp] theorem State.insertQueue_host (w : Weight) (i : Idx) : (s.insertQueue w i).host = s.host := rfl

/-! ## `setCode` -/

@[simp] theorem State.setCode_freq (i : Nat) (p : List Bool) : (s.setCode i p).freq = s.freq := rfl
@[simp] theorem State.setCode_nodes (i : Nat) (p : List Bool) : (s.setCode i p).nodes = s.nodes := rfl
@[simp] theorem State.setCode_pq (i : Nat) (p : List Bool) : (s.setCode i p).pq = s.pq := rfl
@[simp] theorem State.setCode_seq (i : Nat) (p : List Bool) : (s.setCode i p).seq = s.seq := rfl
@[simp] theorem State.setCode_code (i : Nat) (p : List Bool) : (s.setCode i p).code = s.code.setIfInBounds i (CodeEntry.ofPath p) := rfl
@[simp] theorem State.setCode_codeOk (i : Nat) (p : List Bool) : (s.setCode i p).codeOk = s.codeOk := rfl
@[simp] theorem State.setCode_done (i : Nat) (p : List Bool) : (s.setCode i p).done = s.done := rfl
@[simp] theorem State.setCode_root (i : Nat) (p : List Bool) : (s.setCode i p).root = s.root := rfl
@[simp] theorem State.setCode_cur (i : Nat) (p : List Bool) : (s.setCode i p).cur = s.cur := rfl
@[simp] theorem State.setCode_cause (i : Nat) (p : List Bool) : (s.setCode i p).cause = s.cause := rfl
@[simp] theorem State.setCode_info (i : Nat) (p : List Bool) : (s.setCode i p).info = s.info := rfl
@[simp] theorem State.setCode_magic (i : Nat) (p : List Bool) : (s.setCode i p).magic = s.magic := rfl
@[simp] theorem State.setCode_rsp (i : Nat) (p : List Bool) : (s.setCode i p).rsp = s.rsp := rfl
@[simp] theorem State.setCode_inBits (i : Nat) (p : List Bool) : (s.setCode i p).inBits = s.inBits := rfl
@[simp] theorem State.setCode_inPos (i : Nat) (p : List Bool) : (s.setCode i p).inPos = s.inPos := rfl
@[simp] theorem State.setCode_outItems (i : Nat) (p : List Bool) : (s.setCode i p).outItems = s.outItems := rfl
@[simp] theorem State.setCode_ops (i : Nat) (p : List Bool) : (s.setCode i p).ops = s.ops := rfl
@[simp] theorem State.setCode_host (i : Nat) (p : List Bool) : (s.setCode i p).host = s.host := rfl

/-! ## `clearCode` -/

@[simp] theorem State.clearCode_freq : (s.clearCode).freq = s.freq := rfl
@[simp] theorem State.clearCode_nodes : (s.clearCode).nodes = s.nodes := rfl
@[simp] theorem State.clearCode_pq : (s.clearCode).pq = s.pq := rfl
@[simp] theorem State.clearCode_seq : (s.clearCode).seq = s.seq := rfl
@[simp] theorem State.clearCode_code : (s.clearCode).code = Vector.replicate 257 CodeEntry.invalid := rfl
@[simp] theorem State.clearCode_codeOk : (s.clearCode).codeOk = s.codeOk := rfl
@[simp] theorem State.clearCode_done : (s.clearCode).done = s.done := rfl
@[simp] theorem State.clearCode_root : (s.clearCode).root = s.root := rfl
@[simp] theorem State.clearCode_cur : (s.clearCode).cur = s.cur := rfl
@[simp] theorem State.clearCode_cause : (s.clearCode).cause = s.cause := rfl
@[simp] theorem State.clearCode_info : (s.clearCode).info = s.info := rfl
@[simp] theorem State.clearCode_magic : (s.clearCode).magic = s.magic := rfl
@[simp] theorem State.clearCode_rsp : (s.clearCode).rsp = s.rsp := rfl
@[simp] theorem State.clearCode_inBits : (s.clearCode).inBits = s.inBits := rfl
@[simp] theorem State.clearCode_inPos : (s.clearCode).inPos = s.inPos := rfl
@[simp] theorem State.clearCode_outItems : (s.clearCode).outItems = s.outItems := rfl
@[simp] theorem State.clearCode_ops : (s.clearCode).ops = s.ops := rfl
@[simp] theorem State.clearCode_host : (s.clearCode).host = s.host := rfl

/-! ## `discardTree` -/

@[simp] theorem State.discardTree_freq : (s.discardTree).freq = s.freq := rfl
@[simp] theorem State.discardTree_nodes : (s.discardTree).nodes = [] := rfl
@[simp] theorem State.discardTree_pq : (s.discardTree).pq = s.pq := rfl
@[simp] theorem State.discardTree_seq : (s.discardTree).seq = s.seq := rfl
@[simp] theorem State.discardTree_code : (s.discardTree).code = Vector.replicate 257 CodeEntry.invalid := rfl
@[simp] theorem State.discardTree_codeOk : (s.discardTree).codeOk = false := rfl
@[simp] theorem State.discardTree_done : (s.discardTree).done = false := rfl
@[simp] theorem State.discardTree_root : (s.discardTree).root = Config.nil := rfl
@[simp] theorem State.discardTree_cur : (s.discardTree).cur = Config.nil := rfl
@[simp] theorem State.discardTree_cause : (s.discardTree).cause = s.cause := rfl
@[simp] theorem State.discardTree_info : (s.discardTree).info = s.info := rfl
@[simp] theorem State.discardTree_magic : (s.discardTree).magic = s.magic := rfl
@[simp] theorem State.discardTree_rsp : (s.discardTree).rsp = s.rsp := rfl
@[simp] theorem State.discardTree_inBits : (s.discardTree).inBits = s.inBits := rfl
@[simp] theorem State.discardTree_inPos : (s.discardTree).inPos = s.inPos := rfl
@[simp] theorem State.discardTree_outItems : (s.discardTree).outItems = s.outItems := rfl
@[simp] theorem State.discardTree_ops : (s.discardTree).ops = s.ops := rfl
@[simp] theorem State.discardTree_host : (s.discardTree).host = s.host := rfl

/-! ## `inRewind` -/

@[simp] theorem State.inRewind_freq : (s.inRewind).freq = s.freq := rfl
@[simp] theorem State.inRewind_nodes : (s.inRewind).nodes = s.nodes := rfl
@[simp] theorem State.inRewind_pq : (s.inRewind).pq = s.pq := rfl
@[simp] theorem State.inRewind_seq : (s.inRewind).seq = s.seq := rfl
@[simp] theorem State.inRewind_code : (s.inRewind).code = s.code := rfl
@[simp] theorem State.inRewind_codeOk : (s.inRewind).codeOk = s.codeOk := rfl
@[simp] theorem State.inRewind_done : (s.inRewind).done = s.done := rfl
@[simp] theorem State.inRewind_root : (s.inRewind).root = s.root := rfl
@[simp] theorem State.inRewind_cur : (s.inRewind).cur = s.cur := rfl
@[simp] theorem State.inRewind_cause : (s.inRewind).cause = s.cause := rfl
@[simp] theorem State.inRewind_info : (s.inRewind).info = s.info := rfl
@[simp] theorem State.inRewind_magic : (s.inRewind).magic = s.magic := rfl
@[simp] theorem State.inRewind_rsp : (s.inRewind).rsp = s.rsp := rfl
@[simp] theorem State.inRewind_inBits : (s.inRewind).inBits = s.inBits := rfl
@[simp] theorem State.inRewind_inPos : (s.inRewind).inPos = 0 := rfl
@[simp] theorem State.inRewind_outItems : (s.inRewind).outItems = s.outItems := rfl
@[simp] theorem State.inRewind_ops : (s.inRewind).ops = s.ops ++ [.rewind] := rfl
@[simp] theorem State.inRewind_host : (s.inRewind).host = s.host := rfl

/-! ## `outWrite` -/

@[simp] theorem State.outWrite_freq {n : Nat} (v : BitVec n) : (s.outWrite v).freq = s.freq := rfl
@[simp] theorem State.outWrite_nodes {n : Nat} (v : BitVec n) : (s.outWrite v).nodes = s.nodes := rfl
@[simp] theorem State.outWrite_pq {n : Nat} (v : BitVec n) : (s.outWrite v).pq = s.pq := rfl
@[simp] theorem State.outWrite_seq {n : Nat} (v : BitVec n) : (s.outWrite v).seq = s.seq := rfl
@[simp] theorem State.outWrite_code {n : Nat} (v : BitVec n) : (s.outWrite v).code = s.code := rfl
@[simp] theorem State.outWrite_codeOk {n : Nat} (v : BitVec n) : (s.outWrite v).codeOk = s.codeOk := rfl
@[simp] theorem State.outWrite_done {n : Nat} (v : BitVec n) : (s.outWrite v).done = s.done := rfl
@[simp] theorem State.outWrite_root {n : Nat} (v : BitVec n) : (s.outWrite v).root = s.root := rfl
@[simp] theorem State.outWrite_cur {n : Nat} (v : BitVec n) : (s.outWrite v).cur = s.cur := rfl
@[simp] theorem State.outWrite_cause {n : Nat} (v : BitVec n) : (s.outWrite v).cause = s.cause := rfl
@[simp] theorem State.outWrite_info {n : Nat} (v : BitVec n) : (s.outWrite v).info = s.info := rfl
@[simp] theorem State.outWrite_magic {n : Nat} (v : BitVec n) : (s.outWrite v).magic = s.magic := rfl
@[simp] theorem State.outWrite_rsp {n : Nat} (v : BitVec n) : (s.outWrite v).rsp = s.rsp := rfl
@[simp] theorem State.outWrite_inBits {n : Nat} (v : BitVec n) : (s.outWrite v).inBits = s.inBits := rfl
@[simp] theorem State.outWrite_inPos {n : Nat} (v : BitVec n) : (s.outWrite v).inPos = s.inPos := rfl
@[simp] theorem State.outWrite_outItems {n : Nat} (v : BitVec n) : (s.outWrite v).outItems = s.outItems ++ (msbBits v).map .bit := rfl
@[simp] theorem State.outWrite_ops {n : Nat} (v : BitVec n) : (s.outWrite v).ops = s.ops ++ [.write (msbBits v)] := rfl
@[simp] theorem State.outWrite_host {n : Nat} (v : BitVec n) : (s.outWrite v).host = s.host := rfl

/-! ## `outBits` -/

@[simp] theorem State.outBits_freq (p : List Bool) : (s.outBits p).freq = s.freq := rfl
@[simp] theorem State.outBits_nodes (p : List Bool) : (s.outBits p).nodes = s.nodes := rfl
@[simp] theorem State.outBits_pq (p : List Bool) : (s.outBits p).pq = s.pq := rfl
@[simp] theorem State.outBits_seq (p : List Bool) : (s.outBits p).seq = s.seq := rfl
@[simp] theorem State.outBits_code (p : List Bool) : (s.outBits p).code = s.code := rfl
@[simp] theorem State.outBits_codeOk (p : List Bool) : (s.outBits p).codeOk = s.codeOk := rfl
@[simp] theorem State.outBits_done (p : List Bool) : (s.outBits p).done = s.done := rfl
@[simp] theorem State.outBits_root (p : List Bool) : (s.outBits p).root = s.root := rfl
@[simp] theorem State.outBits_cur (p : List Bool) : (s.outBits p).cur = s.cur := rfl
@[simp] theorem State.outBits_cause (p : List Bool) : (s.outBits p).cause = s.cause := rfl
@[simp] theorem State.outBits_info (p : List Bool) : (s.outBits p).info = s.info := rfl
@[simp] theorem State.outBits_magic (p : List Bool) : (s.outBits p).magic = s.magic := rfl
@[simp] theorem State.outBits_rsp (p : List Bool) : (s.outBits p).rsp = s.rsp := rfl
@[simp] theorem State.outBits_inBits (p : List Bool) : (s.outBits p).inBits = s.inBits := rfl
@[simp] theorem State.outBits_inPos (p : List Bool) : (s.outBits p).inPos = s.inPos := rfl
@[simp] theorem State.outBits_outItems (p : List Bool) : (s.outBits p).outItems = s.outItems ++ p.map .bit := rfl
@[simp] theorem State.outBits_ops (p : List Bool) : (s.outBits p).ops = s.ops ++ p.map .codeBit := rfl
@[simp] theorem State.outBits_host (p : List Bool) : (s.outBits p).host = s.host := rfl

/-! ## `outFlush` -/

@[simp] theorem State.outFlush_freq : (s.outFlush).freq = s.freq := rfl
@[simp] theorem State.outFlush_nodes : (s.outFlush).nodes = s.nodes := rfl
@[simp] theorem State.outFlush_pq : (s.outFlush).pq = s.pq := rfl
@[simp] theorem State.outFlush_seq : (s.outFlush).seq = s.seq := rfl
@[simp] theorem State.outFlush_code : (s.outFlush).code = s.code := rfl
@[simp] theorem State.outFlush_codeOk : (s.outFlush).codeOk = s.codeOk := rfl
@[simp] theorem State.outFlush_done : (s.outFlush).done = s.done := rfl
@[simp] theorem State.outFlush_root : (s.outFlush).root = s.root := rfl
@[simp] theorem State.outFlush_cur : (s.outFlush).cur = s.cur := rfl
@[simp] theorem State.outFlush_cause : (s.outFlush).cause = s.cause := rfl
@[simp] theorem State.outFlush_info : (s.outFlush).info = s.info := rfl
@[simp] theorem State.outFlush_magic : (s.outFlush).magic = s.magic := rfl
@[simp] theorem State.outFlush_rsp : (s.outFlush).rsp = s.rsp := rfl
@[simp] theorem State.outFlush_inBits : (s.outFlush).inBits = s.inBits := rfl
@[simp] theorem State.outFlush_inPos : (s.outFlush).inPos = s.inPos := rfl
@[simp] theorem State.outFlush_outItems : (s.outFlush).outItems = s.outItems ++ [.flush] := rfl
@[simp] theorem State.outFlush_ops : (s.outFlush).ops = s.ops ++ [.flush] := rfl
@[simp] theorem State.outFlush_host : (s.outFlush).host = s.host := rfl

/-! ## `respond` -/

@[simp] theorem State.respond_freq (d : Word64) : (s.respond d).freq = s.freq := rfl
@[simp] theorem State.respond_nodes (d : Word64) : (s.respond d).nodes = s.nodes := rfl
@[simp] theorem State.respond_pq (d : Word64) : (s.respond d).pq = s.pq := rfl
@[simp] theorem State.respond_seq (d : Word64) : (s.respond d).seq = s.seq := rfl
@[simp] theorem State.respond_code (d : Word64) : (s.respond d).code = s.code := rfl
@[simp] theorem State.respond_codeOk (d : Word64) : (s.respond d).codeOk = s.codeOk := rfl
@[simp] theorem State.respond_done (d : Word64) : (s.respond d).done = s.done := rfl
@[simp] theorem State.respond_root (d : Word64) : (s.respond d).root = s.root := rfl
@[simp] theorem State.respond_cur (d : Word64) : (s.respond d).cur = s.cur := rfl
@[simp] theorem State.respond_cause (d : Word64) : (s.respond d).cause = s.cause := rfl
@[simp] theorem State.respond_info (d : Word64) : (s.respond d).info = s.info := rfl
@[simp] theorem State.respond_magic (d : Word64) : (s.respond d).magic = s.magic := rfl
@[simp] theorem State.respond_rsp (d : Word64) : (s.respond d).rsp = some ⟨0, d⟩ := rfl
@[simp] theorem State.respond_inBits (d : Word64) : (s.respond d).inBits = s.inBits := rfl
@[simp] theorem State.respond_inPos (d : Word64) : (s.respond d).inPos = s.inPos := rfl
@[simp] theorem State.respond_outItems (d : Word64) : (s.respond d).outItems = s.outItems := rfl
@[simp] theorem State.respond_ops (d : Word64) : (s.respond d).ops = s.ops := rfl
@[simp] theorem State.respond_host (d : Word64) : (s.respond d).host = s.host := rfl

/-! ## `refuse` -/

@[simp] theorem State.refuse_freq : (s.refuse).freq = s.freq := rfl
@[simp] theorem State.refuse_nodes : (s.refuse).nodes = s.nodes := rfl
@[simp] theorem State.refuse_pq : (s.refuse).pq = s.pq := rfl
@[simp] theorem State.refuse_seq : (s.refuse).seq = s.seq := rfl
@[simp] theorem State.refuse_code : (s.refuse).code = s.code := rfl
@[simp] theorem State.refuse_codeOk : (s.refuse).codeOk = s.codeOk := rfl
@[simp] theorem State.refuse_done : (s.refuse).done = s.done := rfl
@[simp] theorem State.refuse_root : (s.refuse).root = s.root := rfl
@[simp] theorem State.refuse_cur : (s.refuse).cur = s.cur := rfl
@[simp] theorem State.refuse_cause : (s.refuse).cause = s.cause := rfl
@[simp] theorem State.refuse_info : (s.refuse).info = s.info := rfl
@[simp] theorem State.refuse_magic : (s.refuse).magic = s.magic := rfl
@[simp] theorem State.refuse_rsp : (s.refuse).rsp = some ⟨0x0C, 0⟩ := rfl
@[simp] theorem State.refuse_inBits : (s.refuse).inBits = s.inBits := rfl
@[simp] theorem State.refuse_inPos : (s.refuse).inPos = s.inPos := rfl
@[simp] theorem State.refuse_outItems : (s.refuse).outItems = s.outItems := rfl
@[simp] theorem State.refuse_ops : (s.refuse).ops = s.ops := rfl
@[simp] theorem State.refuse_host : (s.refuse).host = s.host := rfl

/-! ## `clearBlock` -/

@[simp] theorem State.clearBlock_freq : (s.clearBlock).freq = Vector.replicate 256 0 := rfl
@[simp] theorem State.clearBlock_nodes : (s.clearBlock).nodes = [] := rfl
@[simp] theorem State.clearBlock_pq : (s.clearBlock).pq = [] := rfl
@[simp] theorem State.clearBlock_seq : (s.clearBlock).seq = 0 := rfl
@[simp] theorem State.clearBlock_code : (s.clearBlock).code = Vector.replicate 257 CodeEntry.invalid := rfl
@[simp] theorem State.clearBlock_codeOk : (s.clearBlock).codeOk = false := rfl
@[simp] theorem State.clearBlock_done : (s.clearBlock).done = false := rfl
@[simp] theorem State.clearBlock_root : (s.clearBlock).root = Config.nil := rfl
@[simp] theorem State.clearBlock_cur : (s.clearBlock).cur = Config.nil := rfl
@[simp] theorem State.clearBlock_cause : (s.clearBlock).cause = 0 := rfl
@[simp] theorem State.clearBlock_info : (s.clearBlock).info = 0 := rfl
@[simp] theorem State.clearBlock_magic : (s.clearBlock).magic = s.magic := rfl
@[simp] theorem State.clearBlock_rsp : (s.clearBlock).rsp = s.rsp := rfl
@[simp] theorem State.clearBlock_inBits : (s.clearBlock).inBits = s.inBits := rfl
@[simp] theorem State.clearBlock_inPos : (s.clearBlock).inPos = s.inPos := rfl
@[simp] theorem State.clearBlock_outItems : (s.clearBlock).outItems = s.outItems := rfl
@[simp] theorem State.clearBlock_ops : (s.clearBlock).ops = s.ops := rfl
@[simp] theorem State.clearBlock_host : (s.clearBlock).host = s.host := rfl

/-! ## `resetBlock` -/

@[simp] theorem State.resetBlock_freq : (s.resetBlock).freq = Vector.replicate 256 0 := rfl
@[simp] theorem State.resetBlock_nodes : (s.resetBlock).nodes = [] := rfl
@[simp] theorem State.resetBlock_pq : (s.resetBlock).pq = [] := rfl
@[simp] theorem State.resetBlock_seq : (s.resetBlock).seq = 0 := rfl
@[simp] theorem State.resetBlock_code : (s.resetBlock).code = Vector.replicate 257 CodeEntry.invalid := rfl
@[simp] theorem State.resetBlock_codeOk : (s.resetBlock).codeOk = false := rfl
@[simp] theorem State.resetBlock_done : (s.resetBlock).done = false := rfl
@[simp] theorem State.resetBlock_root : (s.resetBlock).root = Config.nil := rfl
@[simp] theorem State.resetBlock_cur : (s.resetBlock).cur = Config.nil := rfl
@[simp] theorem State.resetBlock_cause : (s.resetBlock).cause = 0 := rfl
@[simp] theorem State.resetBlock_info : (s.resetBlock).info = 0 := rfl
@[simp] theorem State.resetBlock_magic : (s.resetBlock).magic = s.magic := rfl
@[simp] theorem State.resetBlock_rsp : (s.resetBlock).rsp = none := rfl
@[simp] theorem State.resetBlock_inBits : (s.resetBlock).inBits = s.inBits := rfl
@[simp] theorem State.resetBlock_inPos : (s.resetBlock).inPos = s.inPos := rfl
@[simp] theorem State.resetBlock_outItems : (s.resetBlock).outItems = s.outItems := rfl
@[simp] theorem State.resetBlock_ops : (s.resetBlock).ops = s.ops := rfl
@[simp] theorem State.resetBlock_host : (s.resetBlock).host = s.host := rfl

/-! ## `raise` -/

@[simp] theorem State.raise_freq (c : Cause) (x : Word64) : (s.raise c x).freq = s.freq := by
  unfold State.raise; split <;> rfl
@[simp] theorem State.raise_nodes (c : Cause) (x : Word64) : (s.raise c x).nodes = s.nodes := by
  unfold State.raise; split <;> rfl
@[simp] theorem State.raise_pq (c : Cause) (x : Word64) : (s.raise c x).pq = s.pq := by
  unfold State.raise; split <;> rfl
@[simp] theorem State.raise_seq (c : Cause) (x : Word64) : (s.raise c x).seq = s.seq := by
  unfold State.raise; split <;> rfl
@[simp] theorem State.raise_code (c : Cause) (x : Word64) : (s.raise c x).code = s.code := by
  unfold State.raise; split <;> rfl
@[simp] theorem State.raise_codeOk (c : Cause) (x : Word64) : (s.raise c x).codeOk = s.codeOk := by
  unfold State.raise; split <;> rfl
@[simp] theorem State.raise_done (c : Cause) (x : Word64) : (s.raise c x).done = s.done := by
  unfold State.raise; split <;> rfl
@[simp] theorem State.raise_root (c : Cause) (x : Word64) : (s.raise c x).root = s.root := by
  unfold State.raise; split <;> rfl
@[simp] theorem State.raise_cur (c : Cause) (x : Word64) : (s.raise c x).cur = s.cur := by
  unfold State.raise; split <;> rfl
theorem State.raise_cause (c : Cause) (x : Word64) :
    (s.raise c x).cause = if s.cause = 0#5 then c.code else s.cause := by
  unfold State.raise; split <;> rfl
theorem State.raise_info (c : Cause) (x : Word64) :
    (s.raise c x).info = if s.cause = 0#5 then x else s.info := by
  unfold State.raise; split <;> rfl
@[simp] theorem State.raise_magic (c : Cause) (x : Word64) : (s.raise c x).magic = s.magic := by
  unfold State.raise; split <;> rfl
@[simp] theorem State.raise_rsp (c : Cause) (x : Word64) :
    (s.raise c x).rsp = some ⟨c.code.setWidth 8, 0⟩ := by
  unfold State.raise; split <;> rfl
@[simp] theorem State.raise_inBits (c : Cause) (x : Word64) : (s.raise c x).inBits = s.inBits := by
  unfold State.raise; split <;> rfl
@[simp] theorem State.raise_inPos (c : Cause) (x : Word64) : (s.raise c x).inPos = s.inPos := by
  unfold State.raise; split <;> rfl
@[simp] theorem State.raise_outItems (c : Cause) (x : Word64) : (s.raise c x).outItems = s.outItems := by
  unfold State.raise; split <;> rfl
@[simp] theorem State.raise_ops (c : Cause) (x : Word64) : (s.raise c x).ops = s.ops := by
  unfold State.raise; split <;> rfl
@[simp] theorem State.raise_host (c : Cause) (x : Word64) : (s.raise c x).host = s.host := by
  unfold State.raise; split <;> rfl

/-! ## `inRead` -/

@[simp] theorem State.inRead_freq (n : Nat) : (s.inRead n).2.freq = s.freq := by
  unfold State.inRead; split <;> rfl
@[simp] theorem State.inRead_nodes (n : Nat) : (s.inRead n).2.nodes = s.nodes := by
  unfold State.inRead; split <;> rfl
@[simp] theorem State.inRead_pq (n : Nat) : (s.inRead n).2.pq = s.pq := by
  unfold State.inRead; split <;> rfl
@[simp] theorem State.inRead_seq (n : Nat) : (s.inRead n).2.seq = s.seq := by
  unfold State.inRead; split <;> rfl
@[simp] theorem State.inRead_code (n : Nat) : (s.inRead n).2.code = s.code := by
  unfold State.inRead; split <;> rfl
@[simp] theorem State.inRead_codeOk (n : Nat) : (s.inRead n).2.codeOk = s.codeOk := by
  unfold State.inRead; split <;> rfl
@[simp] theorem State.inRead_done (n : Nat) : (s.inRead n).2.done = s.done := by
  unfold State.inRead; split <;> rfl
@[simp] theorem State.inRead_root (n : Nat) : (s.inRead n).2.root = s.root := by
  unfold State.inRead; split <;> rfl
@[simp] theorem State.inRead_cur (n : Nat) : (s.inRead n).2.cur = s.cur := by
  unfold State.inRead; split <;> rfl
@[simp] theorem State.inRead_cause (n : Nat) : (s.inRead n).2.cause = s.cause := by
  unfold State.inRead; split <;> rfl
@[simp] theorem State.inRead_info (n : Nat) : (s.inRead n).2.info = s.info := by
  unfold State.inRead; split <;> rfl
@[simp] theorem State.inRead_magic (n : Nat) : (s.inRead n).2.magic = s.magic := by
  unfold State.inRead; split <;> rfl
@[simp] theorem State.inRead_rsp (n : Nat) : (s.inRead n).2.rsp = s.rsp := by
  unfold State.inRead; split <;> rfl
@[simp] theorem State.inRead_inBits (n : Nat) : (s.inRead n).2.inBits = s.inBits := by
  unfold State.inRead; split <;> rfl
theorem State.inRead_inPos (n : Nat) :
    (s.inRead n).2.inPos = if s.inPos + n ≤ s.inBits.length then s.inPos + n else s.inPos := by
  unfold State.inRead; split <;> rfl
@[simp] theorem State.inRead_outItems (n : Nat) : (s.inRead n).2.outItems = s.outItems := by
  unfold State.inRead; split <;> rfl
@[simp] theorem State.inRead_ops (n : Nat) : (s.inRead n).2.ops = s.ops ++ [.read n] := by
  unfold State.inRead; split <;> rfl
@[simp] theorem State.inRead_host (n : Nat) : (s.inRead n).2.host = s.host := by
  unfold State.inRead; split <;> rfl

end Sys2Proof.Machine
end

