-- ==== Sys2Proof/Laws/Ops.lean ====
section
/-! SUPPORT. One lemma per shared operation that says everything it can do; later proofs cite these instead of unfolding. -/

namespace Sys2Proof.Machine

/-! ## Tables -/

theorem State.freqAt_sent (s : State) : s.freqAt 256 = 1 := by simp [State.freqAt]

theorem State.freqAt_of_lt (s : State) (i : Nat) (h : i < 256) : s.freqAt i = s.freq[i] := by simp [State.freqAt, h]

/-- A read after a write to `FREQ`: the value written for a byte value, the old value elsewhere; `FREQ[256]` is 1 (R22,
R23). -/
theorem State.freqAt_setFreq (s : State) (i j : Nat) (v : Count) :
    (s.setFreq i v).freqAt j = if i = j ∧ i < 256 then v else s.freqAt j := by
  simp only [State.freqAt, State.setFreq, Vector.getElem?_setIfInBounds]
  by_cases h : i = j
  · subst h
    by_cases hi : i < 256 <;> simp [hi]
  · simp [h]

theorem State.freqAt_clearFreq (s : State) (i : Nat) : s.clearFreq.freqAt i = if i < 256 then 0 else 1 := by
  simp only [State.freqAt, State.clearFreq, Vector.getElem?_replicate]
  split <;> rfl

/-- A read after a write to `CODE` (R27). -/
theorem State.codeAt_setCode (s : State) (i j : Nat) (p : List Bool) :
    (s.setCode i p).codeAt j = if i = j ∧ i < 257 then CodeEntry.ofPath p else s.codeAt j := by
  simp only [State.codeAt, State.setCode, Vector.getElem?_setIfInBounds]
  by_cases h : i = j
  · subst h
    by_cases hi : i < 257 <;> simp [hi]
  · simp [h]

theorem State.codeAt_clearCode (s : State) (i : Nat) : s.clearCode.codeAt i = CodeEntry.invalid := by
  simp only [State.codeAt, State.clearCode, Vector.getElem?_replicate]
  split <;> rfl

/-! ## Responses and checks -/

/-- Fault entry (R220): with no error recorded the cause and `INFO` are latched. -/
theorem State.raise_of_ok (s : State) (c : Cause) (x : Word64) (h : s.cause = 0#5) :
    s.raise c x = { s with cause := c.code, info := x, rsp := some ⟨c.code.setWidth 8, 0⟩ } := by
  simp [State.raise, h]

/-- Fault entry (R220): with an error recorded only the response tells of the new fault. -/
theorem State.raise_of_err (s : State) (c : Cause) (x : Word64) (h : s.cause ≠ 0#5) :
    s.raise c x = { s with rsp := some ⟨c.code.setWidth 8, 0⟩ } := if_neg h

theorem Cause.code_ne_zero (c : Cause) : c.code ≠ 0 := by cases c <;> decide

theorem Cause.code_le (c : Cause) : c.code.toNat ≤ 11 := by cases c <;> decide

theorem Cause.code_injective {c d : Cause} (h : c.code = d.code) : c = d := by
  revert h; cases c <;> cases d <;> decide

/-- R221 step 2. -/
theorem unlessInError_next {s t : State} {o : StepResult} (h : unlessInError s o = .next t) :
    (s.cause = 0#5 ∧ o = .next t) ∨ (s.cause ≠ 0#5 ∧ t = s.refuse) := by
  unfold unlessInError at h
  split at h
  · exact .inl ⟨‹_›, h⟩
  · exact .inr ⟨‹_›, by injection h with h; exact h.symm⟩

@[simp] theorem unlessInError_of_ok {s : State} (o : StepResult) (h : s.cause = 0#5) : unlessInError s o = o := by
  simp [unlessInError, h]

@[simp] theorem unlessInError_of_err {s : State} (o : StepResult) (h : s.cause ≠ 0#5) :
    unlessInError s o = .next s.refuse := if_neg h

/-- R221 step 3. -/
theorem withOperand_next {b : Bool} {i : Instr} {s t : State} {o : StepResult} (h : withOperand b i s o = .next t) :
    (b = true ∧ o = .next t) ∨ (b = false ∧ t = s.raise .badOperand (encode i)) := by
  cases b with
  | true => exact .inl ⟨rfl, by simpa [withOperand] using h⟩
  | false => exact .inr ⟨rfl, by simpa [withOperand] using h.symm⟩

/-- R221 step 4. -/
theorem withPrecondition_next {b : Bool} {i : Instr} {s t : State} {o : StepResult}
    (h : withPrecondition b i s o = .next t) :
    (b = true ∧ o = .next t) ∨ (b = false ∧ t = s.raise .sequenceError (encode i)) := by
  cases b with
  | true => exact .inl ⟨rfl, by simpa [withPrecondition] using h⟩
  | false => exact .inr ⟨rfl, by simpa [withPrecondition] using h.symm⟩

/-- The end of a command (R210): a response, or fault entry. -/
theorem Exec.finish_next {e : Exec Word64} {t : State} (h : e.finish = .next t) :
    (∃ d s, e = .ok d s ∧ t = s.respond d) ∨ (∃ c x s, e = .raised c x s ∧ t = s.raise c x) := by
  cases e with
  | ok d s => exact .inl ⟨d, s, rfl, by simpa [Exec.finish] using h.symm⟩
  | raised c x s => exact .inr ⟨c, x, s, rfl, by simpa [Exec.finish] using h.symm⟩
  | stuck f => simp [Exec.finish] at h

/-! ## Streams -/

/-- `InRead(n)` with `n` bits ahead (R62). -/
theorem State.inRead_of_le (s : State) (n : Nat) (h : s.inPos + n ≤ s.inBits.length) :
    s.inRead n = (some (BitVec.ofNat n (bitsVal (s.ahead.take n))),
      { s with inPos := s.inPos + n, ops := s.ops ++ [.read n] }) := by
  simp [State.inRead, h, State.ahead]

/-- `InRead(n)` with fewer than `n` bits ahead: `EOS`, and nothing is consumed (R62). -/
theorem State.inRead_of_lt (s : State) (n : Nat) (h : s.inBits.length < s.inPos + n) :
    s.inRead n = (none, { s with ops := s.ops ++ [.read n] }) := by
  simp [State.inRead, Nat.not_le.mpr h]

/-- Reading a field that was written as `msb_n(v)` gives `v` (R62, R65). -/
theorem State.inRead_msbBits (s : State) {n : Nat} (v : BitVec n) (rest : List Bool) (hn : 0 < n)
    (h : s.ahead = msbBits v ++ rest) :
    s.inRead n = (some v, { s with inPos := s.inPos + n, ops := s.ops ++ [.read n] }) := by
  have hl : s.ahead.length = n + rest.length := by rw [h]; simp
  have hle : s.inPos + n ≤ s.inBits.length := by
    simp only [State.ahead, List.length_drop] at hl; omega
  rw [State.inRead_of_le s n hle, h, List.take_append_of_le_length (by simp),
    List.take_of_length_le (by simp), ofNat_bitsVal_msbBits]

/-- The bits ahead after `n` of them were read. -/
theorem State.ahead_drop (s : State) (n : Nat) (ops : List StreamOp) :
    { s with inPos := s.inPos + n, ops := ops }.ahead = s.ahead.drop n := by
  simp [State.ahead, List.drop_drop]

/-- The bits ahead of a state whose cursor is `n` bits further on. -/
theorem State.ahead_of_inPos {s t : State} {n : Nat} (hb : t.inBits = s.inBits) (hp : t.inPos = s.inPos + n) :
    t.ahead = s.ahead.drop n := by simp [State.ahead, hb, hp, List.drop_drop]

theorem State.ahead_ne_nil_iff (s : State) : s.ahead ≠ [] ↔ s.inPos < s.inBits.length := by
  simp [State.ahead]

theorem State.ahead_length (s : State) : s.ahead.length = s.inBits.length - s.inPos := by simp [State.ahead]

@[simp] theorem outBitsOf_append (a b : List OutItem) : outBitsOf (a ++ b) = outBitsOf a ++ outBitsOf b := by
  simp [outBitsOf]

@[simp] theorem outBitsOf_map_bit (p : List Bool) : outBitsOf (p.map .bit) = p := by
  induction p with
  | nil => rfl
  | cons b p ih => simp [outBitsOf]

@[simp] theorem replay_nil (s : State) : replay [] s = s := rfl

@[simp] theorem replay_cons (op : StreamOp) (l : List StreamOp) (s : State) :
    replay (op :: l) s = replay l (op.apply s) := rfl

theorem replay_append (a b : List StreamOp) (s : State) : replay (a ++ b) s = replay b (replay a s) := by
  simp [replay]

/-- Replaying the bits of `OutBits` one by one appends them all (R65). -/
theorem replay_codeBits (p : List Bool) (s : State) : replay (p.map .codeBit) s = s.outBits p := by
  induction p generalizing s with
  | nil => simp [State.outBits]
  | cons b p ih => simp [StreamOp.apply, ih, State.outBits]

/-! ## Priority queue -/

/-- `ExtractMin` answers unless the queue is empty, and removes exactly the entry it answers (R132). -/
theorem extractMin_perm {q rest : List QEntry} {m : QEntry} (h : extractMin q = some (m, rest)) :
    q.Perm (m :: rest) := by
  induction q generalizing m rest with
  | nil => simp [extractMin] at h
  | cons e es ih =>
    unfold extractMin at h
    cases hes : extractMin es with
    | none =>
      have hn : es = [] := by
        cases es with
        | nil => rfl
        | cons a as =>
          exfalso
          unfold extractMin at hes
          split at hes
          · simp at hes
          · split at hes <;> simp at hes
      simp [hes] at h
      obtain ⟨rfl, rfl⟩ := h
      simp [hn]
    | some mr =>
      obtain ⟨m', r'⟩ := mr
      simp only [hes] at h
      split at h
      · simp at h
        obtain ⟨rfl, rfl⟩ := h
        exact (List.Perm.cons e (ih hes)).trans (List.Perm.swap _ _ _)
      · simp at h
        obtain ⟨rfl, rfl⟩ := h
        exact List.Perm.refl _

theorem extractMin_eq_none_iff {q : List QEntry} : extractMin q = none ↔ q = [] := by
  cases q with
  | nil => simp [extractMin]
  | cons e es =>
    simp only [reduceCtorEq, iff_false]
    unfold extractMin
    cases extractMin es with
    | none => simp
    | some mr => obtain ⟨m, r⟩ := mr; simp only []; split <;> simp

theorem extractMin_length {q rest : List QEntry} {m : QEntry} (h : extractMin q = some (m, rest)) :
    q.length = rest.length + 1 := by simpa using (extractMin_perm h).length_eq

theorem QEntry.before_iff (a b : QEntry) :
    a.before b = true ↔ a.weight.toNat < b.weight.toNat ∨
      (a.weight.toNat = b.weight.toNat ∧ a.seq.toNat < b.seq.toNat) := by
  simp [QEntry.before, BitVec.ult, ← BitVec.toNat_inj]

/-- No entry left precedes the one `ExtractMin` takes (R132). -/
theorem extractMin_least {q rest : List QEntry} {m : QEntry} (h : extractMin q = some (m, rest)) :
    ∀ e ∈ rest, e.before m = false := by
  induction q generalizing m rest with
  | nil => simp [extractMin] at h
  | cons a es ih =>
    unfold extractMin at h
    cases hes : extractMin es with
    | none =>
      simp only [hes, Option.some.injEq, Prod.mk.injEq] at h
      obtain ⟨-, rfl⟩ := h
      simp
    | some mr =>
      obtain ⟨m', r'⟩ := mr
      have hle := ih hes
      simp only [hes] at h
      split at h
      · rename_i hb
        simp only [Option.some.injEq, Prod.mk.injEq] at h
        obtain ⟨rfl, rfl⟩ := h
        intro e he
        obtain rfl | he := List.mem_cons.mp he
        · rw [← Bool.not_eq_true, QEntry.before_iff]
          rw [QEntry.before_iff] at hb
          omega
        · exact hle e he
      · rename_i hb
        simp only [Option.some.injEq, Prod.mk.injEq] at h
        obtain ⟨rfl, rfl⟩ := h
        intro e he
        have key : e = m' ∨ e.before m' = false := by
          obtain h | h := List.mem_cons.mp ((extractMin_perm hes).subset he)
          · exact .inl h
          · exact .inr (hle e h)
        rw [← Bool.not_eq_true, QEntry.before_iff]
        rw [QEntry.before_iff] at hb
        obtain rfl | key := key
        · exact fun h => by omega
        · rw [← Bool.not_eq_true, QEntry.before_iff] at key
          omega

end Sys2Proof.Machine
end

