-- ==== Sys2Proof/Laws/Tree.lean ====
section
/-! SUPPORT. Trees as values: their codes (`42_code_table.md` R150, R153), their headers (`43_header.md` R162), and the walk
`tree(i)` of the arena (`10_state.md` R25). -/

namespace Sys2Proof.Machine

/-! ## Codes -/

/-- Starting the walk below a path puts that path in front of every code (R150). -/
theorem CodeTree.codes_eq_map (t : CodeTree) (p : List Bool) :
    t.codes p = (t.codes []).map fun x => (x.1, p ++ x.2) := by
  induction t generalizing p with
  | leaf sym w => simp [CodeTree.codes]
  | node l r w ihl ihr =>
    rw [CodeTree.codes, CodeTree.codes, ihl (p ++ [false]), ihr (p ++ [true]), ihl ([] ++ [false]), ihr ([] ++ [true])]
    simp [Function.comp_def]

/-- The codes of a node: those of the left subtree after a '0', those of the right after a '1' (R150). -/
theorem CodeTree.codes_node (l r : CodeTree) (w : Weight) :
    (CodeTree.node l r w).codes [] =
      ((l.codes []).map fun x => (x.1, false :: x.2)) ++ (r.codes []).map fun x => (x.1, true :: x.2) := by
  rw [CodeTree.codes, CodeTree.codes_eq_map l, CodeTree.codes_eq_map r]; simp

theorem CodeTree.mem_codes_node {l r : CodeTree} {w : Weight} {sym : Sym} {p : List Bool} :
    (sym, p) ∈ (CodeTree.node l r w).codes [] ↔
      (∃ q, p = false :: q ∧ (sym, q) ∈ l.codes []) ∨ ∃ q, p = true :: q ∧ (sym, q) ∈ r.codes [] := by
  rw [CodeTree.codes_node, List.mem_append, List.mem_map, List.mem_map]
  constructor
  · rintro (⟨⟨a, q⟩, h, he⟩ | ⟨⟨a, q⟩, h, he⟩)
    · simp only [Prod.mk.injEq] at he; obtain ⟨rfl, rfl⟩ := he; exact .inl ⟨q, rfl, h⟩
    · simp only [Prod.mk.injEq] at he; obtain ⟨rfl, rfl⟩ := he; exact .inr ⟨q, rfl, h⟩
  · rintro (⟨q, rfl, h⟩ | ⟨q, rfl, h⟩)
    · exact .inl ⟨(sym, q), h, rfl⟩
    · exact .inr ⟨(sym, q), h, rfl⟩

@[simp] theorem CodeTree.codes_length (t : CodeTree) (p : List Bool) : (t.codes p).length = t.leaves := by
  induction t generalizing p with
  | leaf => rfl
  | node l r w ihl ihr => simp [CodeTree.codes, CodeTree.leaves, ihl, ihr]

theorem CodeTree.codes_map_fst (t : CodeTree) (p : List Bool) : (t.codes p).map Prod.fst = t.syms := by
  induction t generalizing p with
  | leaf => rfl
  | node l r w ihl ihr => simp [CodeTree.codes, CodeTree.syms, ihl, ihr]

/-- Weights have no part in the codes. -/
theorem CodeTree.codes_unweighted (t : CodeTree) (p : List Bool) : t.unweighted.codes p = t.codes p := by
  induction t generalizing p with
  | leaf => rfl
  | node l r w ihl ihr => simp [CodeTree.codes, CodeTree.unweighted, ihl, ihr]

/-- A code is at most as long as the tree is deep (R25 item 5). -/
theorem CodeTree.code_length_le {t : CodeTree} {sym : Sym} {p : List Bool} (h : (sym, p) ∈ t.codes []) : p.length ≤ t.depth := by
  induction t generalizing p with
  | leaf s w => simp [CodeTree.codes] at h; simp [h]
  | node l r w ihl ihr =>
    rw [CodeTree.depth]
    obtain ⟨q, rfl, hq⟩ | ⟨q, rfl, hq⟩ := CodeTree.mem_codes_node.mp h
    · have := ihl hq; simp; omega
    · have := ihr hq; simp; omega

/-- A code is empty only in a tree that is a single leaf. -/
theorem CodeTree.code_ne_nil {t : CodeTree} {sym : Sym} {p : List Bool} (ht : t.isLeaf = false) (h : (sym, p) ∈ t.codes []) :
    p ≠ [] := by
  cases t with
  | leaf => simp [CodeTree.isLeaf] at ht
  | node l r w => obtain ⟨q, rfl, -⟩ | ⟨q, rfl, -⟩ := CodeTree.mem_codes_node.mp h <;> simp

/-- The paths of two leaves diverge: neither is a prefix of the other (R153). -/
theorem CodeTree.codes_pairwise (t : CodeTree) :
    (t.codes []).Pairwise fun x y => ¬ x.2 <+: y.2 ∧ ¬ y.2 <+: x.2 := by
  induction t with
  | leaf => simp [CodeTree.codes]
  | node l r w ihl ihr =>
    rw [CodeTree.codes_node, List.pairwise_append, List.pairwise_map, List.pairwise_map]
    refine ⟨ihl.imp (by simp [List.cons_prefix_cons]), ihr.imp (by simp [List.cons_prefix_cons]), ?_⟩
    intro a ha b hb
    obtain ⟨a', -, rfl⟩ := List.mem_map.mp ha
    obtain ⟨b', -, rfl⟩ := List.mem_map.mp hb
    simp [List.cons_prefix_cons]

/-! ## Size and header -/

theorem CodeTree.leaves_pos (t : CodeTree) : 0 < t.leaves := by
  induction t with
  | leaf => simp [CodeTree.leaves]
  | node l r w ihl ihr => simp [CodeTree.leaves]; omega

/-- A full binary tree is less deep than it has leaves (R25 item 5). -/
theorem CodeTree.depth_lt_leaves (t : CodeTree) : t.depth < t.leaves := by
  induction t with
  | leaf => simp [CodeTree.leaves, CodeTree.depth]
  | node l r w ihl ihr =>
    have := l.leaves_pos; have := r.leaves_pos
    simp only [CodeTree.leaves, CodeTree.depth]; omega

@[simp] theorem CodeTree.leaves_unweighted (t : CodeTree) : t.unweighted.leaves = t.leaves := by
  induction t with
  | leaf => rfl
  | node l r w ihl ihr => simp [CodeTree.leaves, CodeTree.unweighted, ihl, ihr]

@[simp] theorem CodeTree.depth_unweighted (t : CodeTree) : t.unweighted.depth = t.depth := by
  induction t with
  | leaf => rfl
  | node l r w ihl ihr => simp [CodeTree.depth, CodeTree.unweighted, ihl, ihr]

@[simp] theorem CodeTree.syms_unweighted (t : CodeTree) : t.unweighted.syms = t.syms := by
  induction t with
  | leaf => rfl
  | node l r w ihl ihr => simp [CodeTree.syms, CodeTree.unweighted, ihl, ihr]

@[simp] theorem CodeTree.hdr_unweighted (t : CodeTree) : t.unweighted.hdr = t.hdr := by
  induction t with
  | leaf => rfl
  | node l r w ihl ihr => simp [CodeTree.hdr, CodeTree.unweighted, ihl, ihr]

theorem CodeTree.hdr_ne_nil (t : CodeTree) : t.hdr ≠ [] := by cases t <;> simp [CodeTree.hdr]

/-! ## The walk of the arena -/

/-- One level of the walk. -/
theorem treeAt_succ (nodes : List Node) (d : Nat) (i : Idx) (t : CodeTree) :
    treeAt nodes (d + 1) i = some t ↔
      ∃ n, nodes[i.toNat]? = some n ∧
        ((n.kind = .leaf ∧ t = .leaf n.sym n.weight) ∨
          (n.kind = .int ∧ ∃ l r, treeAt nodes d n.left = some l ∧ treeAt nodes d n.right = some r ∧
            t = .node l r n.weight)) := by
  rw [treeAt]
  cases hn : nodes[i.toNat]? with
  | none => simp
  | some n =>
    cases hk : n.kind with
    | leaf => simp [hk, eq_comm]
    | int =>
      cases hl : treeAt nodes d n.left with
      | none => simp [hk, hl]
      | some l =>
        cases hr : treeAt nodes d n.right with
        | none => simp [hk, hr]
        | some r => simp [hk, hl, hr, eq_comm]

/-- A deeper bound finds the same tree, and so does an arena that agrees on the entries the first one has. -/
theorem treeAt_mono {nodes nodes' : List Node}
    (hn : ∀ (i : Nat) (n : Node), nodes[i]? = some n → nodes'[i]? = some n) :
    ∀ {d d' : Nat} {i : Idx} {t : CodeTree}, d ≤ d' → treeAt nodes d i = some t → treeAt nodes' d' i = some t := by
  intro d
  induction d with
  | zero => intro d' i t _ h; simp [treeAt] at h
  | succ d ih =>
    intro d' i t hd h
    obtain ⟨d', rfl⟩ : ∃ k, d' = k + 1 := ⟨d' - 1, by omega⟩
    rw [treeAt_succ] at h ⊢
    obtain ⟨n, hi, h⟩ := h
    refine ⟨n, hn _ _ hi, ?_⟩
    obtain h | ⟨hk, l, r, hl, hr, rfl⟩ := h
    · exact .inl h
    · exact .inr ⟨hk, l, r, ih (by omega) hl, ih (by omega) hr, rfl⟩

theorem treeAt_append {nodes : List Node} (more : List Node) {d d' : Nat} {i : Idx} {t : CodeTree} (hd : d ≤ d')
    (h : treeAt nodes d i = some t) : treeAt (nodes ++ more) d' i = some t :=
  treeAt_mono (fun j n hj => by
    have hlt : j < nodes.length := by
      by_contra hc
      rw [List.getElem?_eq_none (by omega)] at hj; simp at hj
    rw [List.getElem?_append_left hlt]; exact hj) hd h

/-- The walk needs no more depth than the tree has. -/
theorem treeAt_depth {nodes : List Node} : ∀ {d : Nat} {i : Idx} {t : CodeTree},
    treeAt nodes d i = some t → t.depth < d ∧ treeAt nodes (t.depth + 1) i = some t := by
  intro d
  induction d with
  | zero => intro i t h; simp [treeAt] at h
  | succ d ih =>
    intro i t h
    have h0 := h
    rw [treeAt_succ] at h
    obtain ⟨n, hi, ⟨hk, rfl⟩ | ⟨hk, l, r, hl, hr, rfl⟩⟩ := h
    · refine ⟨by simp [CodeTree.depth], ?_⟩
      rw [treeAt_succ]; exact ⟨n, hi, .inl ⟨hk, rfl⟩⟩
    · obtain ⟨hld, hl'⟩ := ih hl
      obtain ⟨hrd, hr'⟩ := ih hr
      refine ⟨by simp only [CodeTree.depth]; omega, ?_⟩
      rw [treeAt_succ]
      refine ⟨n, hi, .inr ⟨hk, l, r, ?_, ?_, rfl⟩⟩
      · exact treeAt_mono (fun _ _ h => h) (by simp only [CodeTree.depth]; omega) hl'
      · exact treeAt_mono (fun _ _ h => h) (by simp only [CodeTree.depth]; omega) hr'

/-- `reach` and `treeAt` walk the same way. -/
theorem reach_isSome_iff (nodes : List Node) : ∀ (d : Nat) (i : Idx),
    (∃ l, reach nodes d i = some l) ↔ ∃ t, treeAt nodes d i = some t := by
  intro d
  induction d with
  | zero => intro i; simp [reach, treeAt]
  | succ d ih =>
    intro i
    rw [reach, treeAt]
    cases hn : nodes[i.toNat]? with
    | none => simp
    | some n =>
      cases hk : n.kind with
      | leaf => simp [hk]
      | int =>
        have hl := ih n.left
        have hr := ih n.right
        cases h1 : reach nodes d n.left <;> cases h2 : reach nodes d n.right <;>
          cases h3 : treeAt nodes d n.left <;> cases h4 : treeAt nodes d n.right <;> simp_all

/-- The walk meets `2k - 1` indices in a tree of `k` leaves (R25 item 2). -/
theorem reach_length {nodes : List Node} : ∀ {d : Nat} {i : Idx} {l : List Nat} {t : CodeTree},
    reach nodes d i = some l → treeAt nodes d i = some t → l.length + 1 = 2 * t.leaves := by
  intro d
  induction d with
  | zero => intro i l t h; simp [reach] at h
  | succ d ih =>
    intro i l t hr ht
    rw [treeAt_succ] at ht
    rw [reach] at hr
    obtain ⟨n, hi, ⟨hk, rfl⟩ | ⟨hk, a, b, ha, hb, rfl⟩⟩ := ht
    · simp only [hi, hk, Option.some.injEq] at hr
      simp [← hr, CodeTree.leaves]
    · simp only [hi, hk] at hr
      cases h1 : reach nodes d n.left with
      | none => simp [h1] at hr
      | some la =>
        cases h2 : reach nodes d n.right with
        | none => simp [h1, h2] at hr
        | some lb =>
          simp only [h1, h2, Option.some.injEq] at hr
          have e1 := ih h1 ha
          have e2 := ih h2 hb
          simp only [← hr, List.length_cons, List.length_append, CodeTree.leaves]; omega

/-- Every index the walk meets is allocated. -/
theorem reach_lt {nodes : List Node} : ∀ {d : Nat} {i : Idx} {l : List Nat},
    reach nodes d i = some l → ∀ j ∈ l, j < nodes.length := by
  intro d
  induction d with
  | zero => intro i l h; simp [reach] at h
  | succ d ih =>
    intro i l h j hj
    rw [reach] at h
    cases hn : nodes[i.toNat]? with
    | none => simp [hn] at h
    | some n =>
      have hlt : i.toNat < nodes.length := by
        by_contra hc
        rw [List.getElem?_eq_none (by omega)] at hn; simp at hn
      cases hk : n.kind with
      | leaf => simp [hn, hk] at h; subst h; simp at hj; omega
      | int =>
        simp only [hn, hk] at h
        cases h1 : reach nodes d n.left with
        | none => simp [h1] at h
        | some la =>
          cases h2 : reach nodes d n.right with
          | none => simp [h1, h2] at h
          | some lb =>
            simp only [h1, h2, Option.some.injEq] at h
            rw [← h] at hj
            simp only [List.mem_cons, List.mem_append] at hj
            obtain rfl | hj | hj := hj
            · exact hlt
            · exact ih h1 j hj
            · exact ih h2 j hj

end Sys2Proof.Machine
end

