-- ==== Sys2Proof/Laws/Streams.lean ====
section
/-! SUPPORT. What every piece of a command does to the streams (`20_memory.md` R61 to R68): the relation `Streamed i s t`
says that `t` was reached from `s` by stream operations that command `i` may perform, each of them recorded, and that the
record accounts for the cursor and the output. Each loop of the model has one lemma. -/

namespace Sys2Proof.Machine

/-- The two states agree on the streams. -/
def SameStreams (s t : State) : Prop := t.inBits = s.inBits ∧ t.inPos = s.inPos ∧ t.outItems = s.outItems

/-- What `op` does depends on the streams alone. -/
theorem StreamOp.apply_sameStreams {s t : State} (op : StreamOp) (h : SameStreams s t) :
    SameStreams (op.apply s) (op.apply t) := by
  obtain ⟨h1, h2, h3⟩ := h
  cases op with
  | read n => refine ⟨?_, ?_, ?_⟩ <;> simp [StreamOp.apply, State.inRead_inPos, h1, h2, h3]
  | rewind => exact ⟨h1, rfl, h3⟩
  | write bits => exact ⟨h1, h2, by simp [StreamOp.apply, h3]⟩
  | codeBit b => exact ⟨h1, h2, by simp [StreamOp.apply, h3]⟩
  | flush => exact ⟨h1, h2, by simp [StreamOp.apply, h3]⟩

theorem replay_sameStreams {s t : State} (l : List StreamOp) (h : SameStreams s t) :
    SameStreams (replay l s) (replay l t) := by
  induction l generalizing s t with
  | nil => exact h
  | cons op l ih => exact ih (op.apply_sameStreams h)

/-- `t` is reached from `s` by recorded stream operations that satisfy `ok`; the record accounts for the streams. -/
def Streamed (ok : StreamOp → Bool) (s t : State) : Prop :=
  ∃ l, t.ops = s.ops ++ l ∧ (∀ op ∈ l, ok op = true) ∧ SameStreams (replay l s) t

theorem Streamed.of_same {ok : StreamOp → Bool} {s t : State} (ho : t.ops = s.ops) (h : SameStreams s t) :
    Streamed ok s t := ⟨[], by simp [ho], by simp, h⟩

theorem Streamed.refl {ok : StreamOp → Bool} (s : State) : Streamed ok s s := .of_same rfl ⟨rfl, rfl, rfl⟩

theorem Streamed.trans {ok : StreamOp → Bool} {s t u : State} (h1 : Streamed ok s t) (h2 : Streamed ok t u) :
    Streamed ok s u := by
  obtain ⟨l1, o1, a1, r1⟩ := h1
  obtain ⟨l2, o2, a2, r2⟩ := h2
  refine ⟨l1 ++ l2, by simp [o2, o1], ?_, ?_⟩
  · intro op h
    rcases List.mem_append.mp h with h | h
    · exact a1 op h
    · exact a2 op h
  · rw [replay_append]
    have h := replay_sameStreams l2 r1
    obtain ⟨b1, b2, b3⟩ := h
    obtain ⟨c1, c2, c3⟩ := r2
    exact ⟨c1.trans b1, c2.trans b2, c3.trans b3⟩

/-- One recorded operation. -/
theorem Streamed.of_op {ok : StreamOp → Bool} {s t : State} (op : StreamOp) (hok : ok op = true)
    (ho : t.ops = s.ops ++ [op]) (h : SameStreams (op.apply s) t) : Streamed ok s t :=
  ⟨[op], ho, by simpa using hok, h⟩

theorem Streamed.inRead {ok : StreamOp → Bool} (s : State) (n : Nat) (h : ok (.read n) = true) :
    Streamed ok s (s.inRead n).2 := .of_op (.read n) h (by simp) ⟨rfl, rfl, rfl⟩

/-- `InRead(n)`, by the value it gives. -/
theorem Streamed.of_inRead {ok : StreamOp → Bool} {s t : State} {n : Nat} {v : Option (BitVec n)}
    (h : s.inRead n = (v, t)) (hok : ok (.read n) = true) : Streamed ok s t := by
  have := Streamed.inRead s n hok
  rwa [h] at this

theorem Streamed.inRewind {ok : StreamOp → Bool} (s : State) (h : ok .rewind = true) : Streamed ok s s.inRewind :=
  .of_op .rewind h rfl ⟨rfl, rfl, rfl⟩

theorem Streamed.outWrite {ok : StreamOp → Bool} (s : State) {n : Nat} (v : BitVec n)
    (h : ok (.write (msbBits v)) = true) : Streamed ok s (s.outWrite v) :=
  .of_op (.write (msbBits v)) h rfl ⟨rfl, rfl, rfl⟩

theorem Streamed.outFlush {ok : StreamOp → Bool} (s : State) (h : ok .flush = true) : Streamed ok s s.outFlush :=
  .of_op .flush h rfl ⟨rfl, rfl, rfl⟩

theorem Streamed.outBits {ok : StreamOp → Bool} (s : State) (p : List Bool) (h : ∀ b, ok (.codeBit b) = true) :
    Streamed ok s (s.outBits p) :=
  ⟨p.map .codeBit, rfl, by intro op hop; obtain ⟨b, -, rfl⟩ := List.mem_map.mp hop; exact h b,
    by rw [replay_codeBits]; exact ⟨rfl, rfl, rfl⟩⟩

/-- OUT only grows (R64). -/
theorem replay_outItems_prefix (l : List StreamOp) (s : State) : s.outItems <+: (replay l s).outItems := by
  induction l generalizing s with
  | nil => exact List.prefix_refl _
  | cons op l ih =>
    refine List.IsPrefix.trans ?_ (ih (op.apply s))
    cases op <;> simp [StreamOp.apply]

@[simp] theorem replay_inBits (l : List StreamOp) (s : State) : (replay l s).inBits = s.inBits := by
  induction l generalizing s with
  | nil => rfl
  | cons op l ih => rw [replay_cons, ih]; cases op <;> simp [StreamOp.apply]

@[simp] theorem replay_ops (l : List StreamOp) (s : State) : (replay l s).ops = s.ops ++ l := by
  induction l generalizing s with
  | nil => simp
  | cons op l ih => rw [replay_cons, ih]; cases op <;> simp [StreamOp.apply]

theorem Streamed.inBits {ok : StreamOp → Bool} {s t : State} (h : Streamed ok s t) : t.inBits = s.inBits := by
  obtain ⟨l, -, -, h, -, -⟩ := h; simpa using h

theorem Streamed.outItems {ok : StreamOp → Bool} {s t : State} (h : Streamed ok s t) : s.outItems <+: t.outItems := by
  obtain ⟨l, -, -, -, -, h⟩ := h; rw [h]; exact replay_outItems_prefix l s

/-! ## Frames

`Frame s t` keeps what no command's loop touches; the loops of each family keep more. -/

/-- The parts of the state that only responses, fault entry, `CLR`, reset and the host change. -/
def Frame (s t : State) : Prop :=
  t.cause = s.cause ∧ t.info = s.info ∧ t.magic = s.magic ∧ t.rsp = s.rsp ∧ t.host = s.host

theorem Frame.refl (s : State) : Frame s s := ⟨rfl, rfl, rfl, rfl, rfl⟩

theorem Frame.trans {s t u : State} (h1 : Frame s t) (h2 : Frame t u) : Frame s u :=
  ⟨h2.1.trans h1.1, h2.2.1.trans h1.2.1, h2.2.2.1.trans h1.2.2.1, h2.2.2.2.1.trans h1.2.2.2.1,
    h2.2.2.2.2.trans h1.2.2.2.2⟩

/-- The tree and the code table are as they were. -/
def TreeFrame (s t : State) : Prop :=
  t.nodes = s.nodes ∧ t.root = s.root ∧ t.pq = s.pq ∧ t.seq = s.seq ∧ t.code = s.code ∧ t.codeOk = s.codeOk

theorem TreeFrame.refl (s : State) : TreeFrame s s := ⟨rfl, rfl, rfl, rfl, rfl, rfl⟩

theorem TreeFrame.trans {s t u : State} (h1 : TreeFrame s t) (h2 : TreeFrame t u) : TreeFrame s u :=
  ⟨h2.1.trans h1.1, h2.2.1.trans h1.2.1, h2.2.2.1.trans h1.2.2.1, h2.2.2.2.1.trans h1.2.2.2.1,
    h2.2.2.2.2.1.trans h1.2.2.2.2.1, h2.2.2.2.2.2.trans h1.2.2.2.2.2⟩

/-- `InRead(n)` moves the cursor and nothing else. -/
theorem inRead_frames {s t : State} {n : Nat} {v : Option (BitVec n)} (h : s.inRead n = (v, t)) :
    t = { s with inPos := t.inPos, ops := t.ops } ∧ s.inPos ≤ t.inPos := by
  unfold State.inRead at h
  split at h
  · injection h with _ h; subst h; exact ⟨rfl, Nat.le_add_right _ _⟩
  · injection h with _ h; subst h; exact ⟨rfl, Nat.le_refl _⟩

end Sys2Proof.Machine
end

