-- ==== Sys2Proof/Laws/Frequency.lean ====
section
/-! SUPPORT. Reading bytes, and the loop of `CNT` (`40_frequency.md` R122): what it does on every stream. -/

namespace Sys2Proof.Machine

/-- `InRead(8)` with a whole byte ahead. -/
theorem State.inRead8_cons {s : State} {b : Byte} {bs : List Byte} (h : takeBytes s.ahead = b :: bs) :
    s.inRead 8 = (some b, { s with inPos := s.inPos + 8, ops := s.ops ++ [.read 8] }) ∧
      takeBytes (s.ahead.drop 8) = bs := by
  have hl : 8 ≤ s.ahead.length := by
    by_contra hc
    rw [takeBytes_of_lt _ (by omega)] at h
    simp at h
  rw [takeBytes_of_le _ hl] at h
  injection h with h1 h2
  have hle : s.inPos + 8 ≤ s.inBits.length := by
    rw [State.ahead_length] at hl; omega
  exact ⟨by rw [State.inRead_of_le s 8 hle, h1], h2⟩

/-- `InRead(8)` without one: `EOS` (R62). -/
theorem State.inRead8_nil {s : State} (h : takeBytes s.ahead = []) :
    s.inRead 8 = (none, { s with ops := s.ops ++ [.read 8] }) := by
  have hl : s.ahead.length < 8 := by
    by_contra hc
    rw [takeBytes_of_le _ (by omega)] at h
    simp at h
  apply State.inRead_of_lt
  rw [State.ahead_length] at hl; omega

/-- The number of bytes in a bit sequence. -/
theorem takeBytes_length (l : List Bool) : (takeBytes l).length = l.length / 8 := by
  induction hn : l.length using Nat.strong_induction_on generalizing l with
  | _ n ih =>
    by_cases h : 8 ≤ l.length
    · rw [takeBytes_of_le l h, List.length_cons, ih (l.drop 8).length (by simp; omega) _ rfl]
      simp; omega
    · rw [takeBytes_of_lt l (by omega)]
      simp; omega

/-- Enough turns for a loop that reads bytes. -/
theorem takeBytes_ahead_length_le (s : State) : (takeBytes s.ahead).length ≤ s.inBits.length / 8 := by
  rw [takeBytes_length, State.ahead_length]
  exact Nat.div_le_div_right (by omega)

/-- The loop of `CNT` when no count overflows: every byte ahead is counted, one read for each and one more (R122). -/
theorem countLoop_ok (bs : List Byte) : ∀ (fuel : Nat) (s : State), takeBytes s.ahead = bs → bs.length < fuel →
    (∀ v : Byte, (s.freqAt v.toNat).toNat + bs.count v < 2 ^ 32) →
    ∃ t, countLoop fuel s = .ok 0 t ∧
      t = { s with
        freq := t.freq, inPos := s.inPos + 8 * bs.length,
        ops := s.ops ++ List.replicate (bs.length + 1) (.read 8) } ∧
      ∀ v : Byte, (t.freqAt v.toNat).toNat = (s.freqAt v.toNat).toNat + bs.count v := by
  induction bs with
  | nil =>
    intro fuel s h hf _
    obtain ⟨fuel, rfl⟩ : ∃ k, fuel = k + 1 := ⟨fuel - 1, by simp at hf; omega⟩
    refine ⟨{ s with ops := s.ops ++ [.read 8] }, ?_, ?_, ?_⟩
    · rw [countLoop, State.inRead8_nil h]
    · simp
    · intro v; simp [State.freqAt]
  | cons b bs ih =>
    intro fuel s h hf hc
    obtain ⟨fuel, rfl⟩ : ∃ k, fuel = k + 1 := ⟨fuel - 1, by simp at hf; omega⟩
    obtain ⟨hr, hbs⟩ := State.inRead8_cons h
    rw [countLoop, hr]
    set s1 : State := { s with inPos := s.inPos + 8, ops := s.ops ++ [.read 8] } with hs1
    have hfq : ∀ v, s1.freqAt v = s.freqAt v := fun v => rfl
    have hb := hc b
    rw [List.count_cons_self] at hb
    have hne : s1.freqAt b.toNat ≠ BitVec.allOnes 32 := by
      intro he
      have := congrArg BitVec.toNat he
      rw [hfq, BitVec.toNat_allOnes] at this
      omega
    have h1 : (s.freqAt b.toNat + 1).toNat = (s.freqAt b.toNat).toNat + 1 := by
      rw [BitVec.toNat_add]; simp; omega
    have hset : ∀ v : Byte, ((s1.setFreq b.toNat (s1.freqAt b.toNat + 1)).freqAt v.toNat).toNat =
        (s.freqAt v.toNat).toNat + if v = b then 1 else 0 := by
      intro v
      rw [State.freqAt_setFreq]
      by_cases hv : v = b
      · subst hv
        rw [if_pos ⟨rfl, by have := v.isLt; omega⟩, hfq, h1, if_pos rfl]
      · rw [if_neg (by rintro ⟨he, _⟩; exact hv (BitVec.eq_of_toNat_eq he.symm)), hfq, if_neg hv]
        omega
    simp only [hne, if_false]
    obtain ⟨t, ht, hte, htf⟩ := ih fuel (s1.setFreq b.toNat (s1.freqAt b.toNat + 1))
      (by simpa [State.ahead, hs1, List.drop_drop] using hbs) (by simp at hf; omega)
      (by
        intro v
        have := hc v
        rw [hset v]
        rw [List.count_cons] at this
        by_cases hv : v = b <;> simp_all <;> omega)
    refine ⟨t, ht, ?_, ?_⟩
    · rw [hte]
      simp only [State.setFreq, hs1, List.append_assoc, List.length_cons, State.mk.injEq, true_and, and_true]
      refine ⟨by omega, ?_⟩
      simp [List.replicate_succ]
    · intro v
      rw [htf v, hset v, List.count_cons]
      by_cases hv : v = b
      · subst hv; simp; omega
      · have : ¬ (b == v) = true := fun h => hv (beq_iff_eq.mp h).symm
        simp [hv, this]

/-- The loop of `CNT` at the first byte whose count is at `2^32 - 1`: it stops there with the counts made so far (R122). -/
theorem countLoop_overflow (pre : List Byte) : ∀ (fuel : Nat) (s : State) (v : Byte) (post : List Byte),
    takeBytes s.ahead = pre ++ v :: post → pre.length < fuel →
    (∀ u : Byte, (s.freqAt u.toNat).toNat + pre.count u < 2 ^ 32) →
    (s.freqAt v.toNat).toNat + pre.count v = 2 ^ 32 - 1 →
    ∃ t, countLoop fuel s = .raised .countOverflow (v.setWidth 64) t ∧
      t = { s with
        freq := t.freq, inPos := s.inPos + 8 * (pre.length + 1),
        ops := s.ops ++ List.replicate (pre.length + 1) (.read 8) } ∧
      ∀ u : Byte, (t.freqAt u.toNat).toNat = (s.freqAt u.toNat).toNat + pre.count u := by
  induction pre with
  | nil =>
    intro fuel s v post h hf _ hv
    obtain ⟨fuel, rfl⟩ : ∃ k, fuel = k + 1 := ⟨fuel - 1, by simp at hf; omega⟩
    obtain ⟨hr, _⟩ := State.inRead8_cons h
    have he : s.freqAt v.toNat = BitVec.allOnes 32 := by
      apply BitVec.eq_of_toNat_eq
      rw [BitVec.toNat_allOnes]; simpa using hv
    refine ⟨{ s with inPos := s.inPos + 8, ops := s.ops ++ [.read 8] }, ?_, ?_, ?_⟩
    · rw [countLoop, hr]
      exact if_pos he
    · simp
    · intro u; simp [State.freqAt]
  | cons b pre ih =>
    intro fuel s v post h hf hc hv
    obtain ⟨fuel, rfl⟩ : ∃ k, fuel = k + 1 := ⟨fuel - 1, by simp at hf; omega⟩
    obtain ⟨hr, hbs⟩ := State.inRead8_cons h
    rw [countLoop, hr]
    set s1 : State := { s with inPos := s.inPos + 8, ops := s.ops ++ [.read 8] } with hs1
    have hfq : ∀ v, s1.freqAt v = s.freqAt v := fun v => rfl
    have hb := hc b
    rw [List.count_cons_self] at hb
    have hne : s1.freqAt b.toNat ≠ BitVec.allOnes 32 := by
      intro he
      have := congrArg BitVec.toNat he
      rw [hfq, BitVec.toNat_allOnes] at this
      omega
    have h1 : (s.freqAt b.toNat + 1).toNat = (s.freqAt b.toNat).toNat + 1 := by
      rw [BitVec.toNat_add]; simp; omega
    have hset : ∀ v : Byte, ((s1.setFreq b.toNat (s1.freqAt b.toNat + 1)).freqAt v.toNat).toNat =
        (s.freqAt v.toNat).toNat + if v = b then 1 else 0 := by
      intro v
      rw [State.freqAt_setFreq]
      by_cases hv : v = b
      · subst hv
        rw [if_pos ⟨rfl, by have := v.isLt; omega⟩, hfq, h1, if_pos rfl]
      · rw [if_neg (by rintro ⟨he, _⟩; exact hv (BitVec.eq_of_toNat_eq he.symm)), hfq, if_neg hv]
        omega
    have hcount : ∀ u : Byte, ((s1.setFreq b.toNat (s1.freqAt b.toNat + 1)).freqAt u.toNat).toNat + pre.count u =
        (s.freqAt u.toNat).toNat + (b :: pre).count u := by
      intro u
      rw [hset u, List.count_cons]
      by_cases hu : u = b
      · subst hu; simp; omega
      · have : ¬ (b == u) = true := fun h => hu (beq_iff_eq.mp h).symm
        simp [hu, this]
    simp only [hne, if_false]
    obtain ⟨t, ht, hte, htf⟩ := ih fuel (s1.setFreq b.toNat (s1.freqAt b.toNat + 1)) v post
      (by simpa [State.ahead, hs1, List.drop_drop] using hbs) (by simp at hf; omega)
      (fun u => by rw [hcount u]; exact hc u) (by rw [hcount v]; exact hv)
    refine ⟨t, ht, ?_, ?_⟩
    · rw [hte]
      simp only [State.setFreq, hs1, List.append_assoc, List.length_cons, State.mk.injEq, true_and, and_true]
      refine ⟨by omega, ?_⟩
      simp [List.replicate_succ]
    · intro u
      rw [htf u, hcount u]

/-- What the loop of `CNT` can do on any stream (R122): write counts and move the cursor. -/
theorem countLoop_spec : ∀ (fuel : Nat) (s : State),
    (∀ d u, countLoop fuel s = .ok d u → d = 0 ∧ u = { s with freq := u.freq, inPos := u.inPos, ops := u.ops } ∧
      s.inPos ≤ u.inPos ∧ Streamed (allowedOp .cnt) s u) ∧
    (∀ c x u, countLoop fuel s = .raised c x u → c = .countOverflow ∧
      u = { s with freq := u.freq, inPos := u.inPos, ops := u.ops } ∧
      s.inPos ≤ u.inPos ∧ Streamed (allowedOp .cnt) s u) ∧
    (∀ f, countLoop fuel s ≠ .stuck f) := by
  intro fuel
  induction fuel with
  | zero =>
    intro s
    refine ⟨fun d u h => ?_, fun c x u h => by simp [countLoop] at h, fun f h => by simp [countLoop] at h⟩
    simp only [countLoop, Exec.ok.injEq] at h
    obtain ⟨rfl, rfl⟩ := h
    exact ⟨rfl, rfl, Nat.le_refl _, .refl _⟩
  | succ fuel ih =>
    intro s
    rw [countLoop]
    cases hr : s.inRead 8 with
    | mk v s1 =>
      have hst : Streamed (allowedOp .cnt) s s1 := .of_inRead hr rfl
      obtain ⟨hfr, hle⟩ := inRead_frames hr
      cases v with
      | none =>
        refine ⟨fun d u h => ?_, fun c x u h => by simp at h, fun f h => by simp at h⟩
        simp only [Exec.ok.injEq] at h
        obtain ⟨rfl, rfl⟩ := h
        exact ⟨rfl, by rw [hfr], hle, hst⟩
      | some b =>
        simp only []
        split
        · refine ⟨fun d u h => by simp at h, fun c x u h => ?_, fun f h => by simp at h⟩
          simp only [Exec.raised.injEq] at h
          obtain ⟨rfl, -, rfl⟩ := h
          exact ⟨rfl, by rw [hfr], hle, hst⟩
        · obtain ⟨h1, h2, h3⟩ := ih (s1.setFreq b.toNat (s1.freqAt b.toNat + 1))
          have hs2 : Streamed (allowedOp .cnt) s (s1.setFreq b.toNat (s1.freqAt b.toNat + 1)) :=
            hst.trans (.of_same rfl ⟨rfl, rfl, rfl⟩)
          refine ⟨fun d u h => ?_, fun c x u h => ?_, h3⟩
          · obtain ⟨a1, a2, a3, a4⟩ := h1 d u h
            exact ⟨a1, by rw [a2, hfr]; rfl, Nat.le_trans hle a3, hs2.trans a4⟩
          · obtain ⟨a1, a2, a3, a4⟩ := h2 c x u h
            exact ⟨a1, by rw [a2, hfr]; rfl, Nat.le_trans hle a3, hs2.trans a4⟩

/-- What the body of `CNT` can do on any stream (R122). -/
theorem countBytes_spec (s : State) :
    (∀ d u, countBytes s = .ok d u → d = 0 ∧ u = { s with freq := u.freq, inPos := 0, ops := u.ops } ∧
      Streamed (allowedOp .cnt) s u) ∧
    (∀ c x u, countBytes s = .raised c x u → c = .countOverflow ∧
      u = { s with freq := u.freq, inPos := u.inPos, ops := u.ops } ∧
      s.inPos ≤ u.inPos ∧ Streamed (allowedOp .cnt) s u) ∧
    (∀ f, countBytes s ≠ .stuck f) := by
  obtain ⟨h1, h2, h3⟩ := countLoop_spec (s.inBits.length / 8 + 1) s.clearFreq
  have h0 : Streamed (allowedOp .cnt) s s.clearFreq := .of_same rfl ⟨rfl, rfl, rfl⟩
  rw [countBytes]
  cases hc : countLoop (s.inBits.length / 8 + 1) s.clearFreq with
  | stuck f => exact absurd hc (h3 f)
  | ok d u =>
    obtain ⟨rfl, a2, a3, a4⟩ := h1 _ _ hc
    refine ⟨fun d v h => ?_, fun c x v h => by simp at h, fun f h => by simp at h⟩
    simp only [Exec.ok.injEq] at h
    obtain ⟨rfl, rfl⟩ := h
    exact ⟨rfl, by rw [a2]; rfl, (h0.trans a4).trans (.inRewind u rfl)⟩
  | raised c x u =>
    obtain ⟨rfl, a2, a3, a4⟩ := h2 _ _ _ hc
    refine ⟨fun d v h => by simp at h, fun c x v h => ?_, fun f h => by simp at h⟩
    simp only [Exec.raised.injEq] at h
    obtain ⟨rfl, -, rfl⟩ := h
    exact ⟨rfl, by rw [a2]; rfl, a3, h0.trans a4⟩

end Sys2Proof.Machine
end

