-- ==== Sys2Proof/Laws/Body.lean ====
section
/-! SUPPORT. The loops of the body codec (`44_body.md` R181 to R185): what `ENC` emits for a stream of bytes, where one walk
of the tree ends, and when a walk runs out of bits. -/

namespace Sys2Proof.Machine

/-! ## Encode -/

/-- One symbol that has a code (R181). -/
theorem encodeSymbol_of_valid {s : State} {v : Nat} (h : (s.codeAt v).valid = true) :
    encodeSymbol v s = .ok 0 (s.outBits (s.codeAt v).bits) := by simp [encodeSymbol, h]

/-- One symbol that has none (R181). -/
theorem encodeSymbol_of_invalid {s : State} {v : Nat} (h : (s.codeAt v).valid = false) :
    encodeSymbol v s = .raised .missingCode (BitVec.ofNat 64 v) s := by simp [encodeSymbol, h]

/-- The loop of `ENC` over bytes that all have a code (R181). -/
theorem encodeLoop_ok (bs : List Byte) : ∀ (fuel : Nat) (s : State), takeBytes s.ahead = bs → bs.length < fuel →
    (∀ b ∈ bs, (s.codeAt b.toNat).valid = true) →
    ∃ t, encodeLoop fuel s = .ok 0 t ∧
      t = { s with
        inPos := s.inPos + 8 * bs.length, ops := t.ops,
        outItems := s.outItems ++ (bs.flatMap fun b => (s.codeAt b.toNat).bits).map .bit } := by
  induction bs with
  | nil =>
    intro fuel s h hf _
    obtain ⟨fuel, rfl⟩ : ∃ k, fuel = k + 1 := ⟨fuel - 1, by simp at hf; omega⟩
    refine ⟨{ s with ops := s.ops ++ [.read 8] }, ?_, ?_⟩
    · rw [encodeLoop, State.inRead8_nil h]
    · simp
  | cons b bs ih =>
    intro fuel s h hf hc
    obtain ⟨fuel, rfl⟩ : ∃ k, fuel = k + 1 := ⟨fuel - 1, by simp at hf; omega⟩
    obtain ⟨hr, hbs⟩ := State.inRead8_cons h
    rw [encodeLoop, hr]
    set s1 : State := { s with inPos := s.inPos + 8, ops := s.ops ++ [.read 8] } with hs1
    have hv : (s1.codeAt b.toNat).valid = true := hc b (by simp)
    simp only [encodeSymbol_of_valid hv]
    obtain ⟨t, ht, hte⟩ := ih fuel (s1.outBits (s1.codeAt b.toNat).bits)
      (by simpa [State.ahead, hs1, State.outBits, List.drop_drop] using hbs) (by simp at hf; omega)
      (fun a ha => hc a (by simp [ha]))
    refine ⟨t, ht, ?_⟩
    rw [hte]
    simp only [State.outBits, hs1, State.codeAt, List.flatMap_cons, List.map_append, List.append_assoc, List.length_cons,
      State.mk.injEq, true_and, and_true]
    omega

/-- The loop of `ENC` at the first byte without a code: the codes before it are out (R181). -/
theorem encodeLoop_missing (pre : List Byte) : ∀ (fuel : Nat) (s : State) (b : Byte) (post : List Byte),
    takeBytes s.ahead = pre ++ b :: post → pre.length < fuel →
    (∀ a ∈ pre, (s.codeAt a.toNat).valid = true) → (s.codeAt b.toNat).valid = false →
    ∃ t, encodeLoop fuel s = .raised .missingCode (b.setWidth 64) t ∧
      t = { s with
        inPos := s.inPos + 8 * (pre.length + 1), ops := t.ops,
        outItems := s.outItems ++ (pre.flatMap fun a => (s.codeAt a.toNat).bits).map .bit } := by
  induction pre with
  | nil =>
    intro fuel s b post h hf _ hb
    obtain ⟨fuel, rfl⟩ : ∃ k, fuel = k + 1 := ⟨fuel - 1, by simp at hf; omega⟩
    obtain ⟨hr, -⟩ := State.inRead8_cons h
    rw [encodeLoop, hr]
    set s1 : State := { s with inPos := s.inPos + 8, ops := s.ops ++ [.read 8] } with hs1
    have hv : (s1.codeAt b.toNat).valid = false := hb
    simp only [encodeSymbol_of_invalid hv]
    refine ⟨s1, ?_, by simp [hs1]⟩
    congr 1
    apply BitVec.eq_of_toNat_eq
    simp
  | cons a pre ih =>
    intro fuel s b post h hf hc hb
    obtain ⟨fuel, rfl⟩ : ∃ k, fuel = k + 1 := ⟨fuel - 1, by simp at hf; omega⟩
    obtain ⟨hr, hbs⟩ := State.inRead8_cons h
    rw [encodeLoop, hr]
    set s1 : State := { s with inPos := s.inPos + 8, ops := s.ops ++ [.read 8] } with hs1
    have hv : (s1.codeAt a.toNat).valid = true := hc a (by simp)
    simp only [encodeSymbol_of_valid hv]
    obtain ⟨t, ht, hte⟩ := ih fuel (s1.outBits (s1.codeAt a.toNat).bits) b post
      (by simpa [State.ahead, hs1, State.outBits, List.drop_drop] using hbs) (by simp at hf; omega)
      (fun c hm => hc c (by simp [hm])) hb
    refine ⟨t, ht, ?_⟩
    rw [hte]
    simp only [State.outBits, hs1, State.codeAt, List.flatMap_cons, List.map_append, List.append_assoc, List.length_cons,
      State.mk.injEq, true_and, and_true]
    omega

/-- What the encoder keeps: it moves IN's cursor and appends to OUT. -/
def EncFrame (s u : State) : Prop :=
  u = { s with inPos := u.inPos, outItems := u.outItems, ops := u.ops } ∧ Streamed (allowedOp .enc) s u

theorem EncFrame.trans {s u v : State} (h1 : EncFrame s u) (h2 : EncFrame u v) : EncFrame s v :=
  ⟨by rw [h2.1, h1.1], h1.2.trans h2.2⟩

theorem encodeSymbol_spec (v : Nat) (s : State) :
    (∀ d u, encodeSymbol v s = .ok d u → d = 0 ∧ EncFrame s u) ∧
    (∀ c x u, encodeSymbol v s = .raised c x u → c = .missingCode ∧ EncFrame s u) ∧ ∀ f, encodeSymbol v s ≠ .stuck f := by
  unfold encodeSymbol
  split
  · refine ⟨fun d u h => ?_, fun c x u h => by simp at h, fun f h => by simp at h⟩
    simp only [Exec.ok.injEq] at h
    obtain ⟨rfl, rfl⟩ := h
    exact ⟨rfl, rfl, .outBits s _ fun b => rfl⟩
  · refine ⟨fun d u h => by simp at h, fun c x u h => ?_, fun f h => by simp at h⟩
    simp only [Exec.raised.injEq] at h
    obtain ⟨rfl, -, rfl⟩ := h
    exact ⟨rfl, rfl, .refl _⟩

/-- What the loop of `ENC` can do on any stream (R181). -/
theorem encodeLoop_spec : ∀ (fuel : Nat) (s : State),
    (∀ d u, encodeLoop fuel s = .ok d u → d = 0 ∧ EncFrame s u) ∧
    (∀ c x u, encodeLoop fuel s = .raised c x u → c = .missingCode ∧ EncFrame s u) ∧ ∀ f, encodeLoop fuel s ≠ .stuck f := by
  intro fuel
  induction fuel with
  | zero =>
    intro s
    refine ⟨fun d u h => ?_, fun c x u h => by simp [encodeLoop] at h, fun f h => by simp [encodeLoop] at h⟩
    simp only [encodeLoop, Exec.ok.injEq] at h
    obtain ⟨rfl, rfl⟩ := h
    exact ⟨rfl, rfl, .refl _⟩
  | succ fuel ih =>
    intro s
    rw [encodeLoop]
    cases hr : s.inRead 8 with
    | mk v s1 =>
      have hs1 : EncFrame s s1 := ⟨by rw [(inRead_frames hr).1], .of_inRead hr rfl⟩
      cases v with
      | none =>
        refine ⟨fun d u h => ?_, fun c x u h => by simp at h, fun f h => by simp at h⟩
        simp only [Exec.ok.injEq] at h
        obtain ⟨rfl, rfl⟩ := h
        exact ⟨rfl, hs1⟩
      | some b =>
        simp only []
        obtain ⟨e1, e2, e3⟩ := encodeSymbol_spec b.toNat s1
        cases he : encodeSymbol b.toNat s1 with
        | stuck f => exact absurd he (e3 f)
        | raised c x u =>
          refine ⟨fun d u h => by simp at h, fun c' x' u' h => ?_, fun f h => by simp at h⟩
          simp only [Exec.raised.injEq] at h
          obtain ⟨rfl, rfl, rfl⟩ := h
          exact ⟨(e2 _ _ _ he).1, hs1.trans (e2 _ _ _ he).2⟩
        | ok d u =>
          have hu := hs1.trans (e1 _ _ he).2
          obtain ⟨i1, i2, i3⟩ := ih u
          exact ⟨fun d v h => ⟨(i1 d v h).1, hu.trans (i1 d v h).2⟩,
            fun c x v h => ⟨(i2 c x v h).1, hu.trans (i2 c x v h).2⟩, i3⟩

/-- What the body of `ENC` can do on any stream (R181). -/
theorem encodeBody_spec (s : State) :
    (∀ d u, encodeBody s = .ok d u → d = 0 ∧ EncFrame s u) ∧
    (∀ c x u, encodeBody s = .raised c x u → c = .missingCode ∧ EncFrame s u) ∧ ∀ f, encodeBody s ≠ .stuck f := by
  have h0 : EncFrame s s.inRewind := ⟨rfl, .inRewind s rfl⟩
  obtain ⟨l1, l2, l3⟩ := encodeLoop_spec (s.inBits.length / 8 + 1) s.inRewind
  rw [encodeBody]
  cases hl : encodeLoop (s.inBits.length / 8 + 1) s.inRewind with
  | stuck f => exact absurd hl (l3 f)
  | raised c x u =>
    refine ⟨fun d u h => by simp at h, fun c' x' u' h => ?_, fun f h => by simp at h⟩
    simp only [Exec.raised.injEq] at h
    obtain ⟨rfl, rfl, rfl⟩ := h
    exact ⟨(l2 _ _ _ hl).1, h0.trans (l2 _ _ _ hl).2⟩
  | ok d u =>
    have hu := h0.trans (l1 _ _ hl).2
    obtain ⟨i1, i2, i3⟩ := encodeSymbol_spec Config.sent u
    exact ⟨fun d v h => ⟨(i1 d v h).1, hu.trans (i1 d v h).2⟩,
      fun c x v h => ⟨(i2 c x v h).1, hu.trans (i2 c x v h).2⟩, i3⟩

/-! ## One walk -/

/-- One bit ahead. -/
theorem State.inRead1_cons {s : State} {b : Bool} {bs : List Bool} (h : s.ahead = b :: bs) :
    s.inRead 1 = (some (BitVec.ofBool b), { s with inPos := s.inPos + 1, ops := s.ops ++ [.read 1] }) ∧
      ({ s with inPos := s.inPos + 1, ops := s.ops ++ [.read 1] } : State).ahead = bs := by
  have hm : s.ahead = msbBits (BitVec.ofBool b) ++ bs := by rw [h]; cases b <;> rfl
  exact ⟨State.inRead_msbBits s _ bs (by omega) hm, by rw [State.ahead_drop, h]; rfl⟩

/-- No bit ahead. -/
theorem State.inRead1_nil {s : State} (h : s.ahead = []) :
    s.inRead 1 = (none, { s with ops := s.ops ++ [.read 1] }) := by
  apply State.inRead_of_lt
  have := congrArg List.length h
  rw [State.ahead_length] at this
  simp at this; omega

theorem Node.child_ofBool (n : Node) (b : Bool) : n.child (BitVec.ofBool b) = if b then n.right else n.left := by
  cases b <;> rfl

/-- One transition of `walkFrom` (R182). -/
theorem walkFrom_cons {nodes : List Node} {i : Idx} {n : Node} (h : nodes[i.toNat]? = some n) (b : Bool) (bits : List Bool) :
    walkFrom nodes i (b :: bits) = walkFrom nodes (n.child (BitVec.ofBool b)) bits := by
  rw [walkFrom, h, Node.child_ofBool]

/-- A walk from a node whose subtree is `t`, with the path of a leaf of `t` ahead: it consumes exactly the path and stops on
a leaf that carries the symbol, the one the path leads to (R182, R183). -/
theorem walkToLeaf_ok : ∀ (fuel d : Nat) (s : State) (t : CodeTree) (sym : Sym) (p rest : List Bool),
    treeAt s.nodes d s.cur = some t → t.isLeaf = false → (sym, p) ∈ t.codes [] → s.ahead = p ++ rest →
    p.length ≤ fuel →
    ∃ u n, walkToLeaf fuel s = .ok sym u ∧
      u = { s with
        cur := u.cur, inPos := s.inPos + p.length, ops := s.ops ++ List.replicate p.length (.read 1) } ∧
      walkFrom s.nodes s.cur p = some u.cur ∧ s.nodeAt u.cur = some n ∧ n.kind = .leaf ∧ n.sym = sym := by
  intro fuel
  induction fuel with
  | zero =>
    intro d s t sym p rest _ hl hm _ hf
    exact absurd (List.length_eq_zero_iff.mp (Nat.le_zero.mp hf)) (CodeTree.code_ne_nil hl hm)
  | succ fuel ih =>
    intro d s t sym p rest ht hl hm ha hf
    cases t with
    | leaf => simp [CodeTree.isLeaf] at hl
    | node l r w =>
      obtain ⟨d, rfl⟩ : ∃ k, d = k + 1 := by
        cases d with
        | zero => simp [treeAt] at ht
        | succ d => exact ⟨d, rfl⟩
      rw [treeAt_succ] at ht
      obtain ⟨n, hn, ⟨-, h⟩ | ⟨-, l', r', hl', hr', he⟩⟩ := ht
      · simp at h
      simp only [CodeTree.node.injEq] at he
      obtain ⟨rfl, rfl, rfl⟩ := he
      -- the bit consumed, and the subtree the walk is in after it
      obtain ⟨b, q, rfl, c, hc, hq⟩ : ∃ b q, p = b :: q ∧ ∃ c, treeAt s.nodes d (n.child (BitVec.ofBool b)) = some c ∧
          (sym, q) ∈ c.codes [] := by
        obtain ⟨q, rfl, hq⟩ | ⟨q, rfl, hq⟩ := CodeTree.mem_codes_node.mp hm
        · exact ⟨false, q, rfl, l, by rw [Node.child_ofBool]; exact hl', hq⟩
        · exact ⟨true, q, rfl, r, by rw [Node.child_ofBool]; exact hr', hq⟩
      obtain ⟨hr1, hr2⟩ := State.inRead1_cons (bs := q ++ rest) (by simpa using ha)
      have hna : s.nodeAt s.cur = some n := hn
      rw [walkToLeaf, hr1]
      simp only [State.nodeAt] at hna ⊢
      rw [hna]
      obtain ⟨d, rfl⟩ : ∃ k, d = k + 1 := by
        cases d with
        | zero => simp [treeAt] at hc
        | succ d => exact ⟨d, rfl⟩
      have hc0 := hc
      rw [treeAt_succ] at hc
      obtain ⟨m, hmn, ⟨hk, rfl⟩ | ⟨hk, l2, r2, -, -, rfl⟩⟩ := hc
      · simp only [CodeTree.codes, List.mem_singleton, Prod.mk.injEq] at hq
        obtain ⟨rfl, rfl⟩ := hq
        simp only [hmn, hk]
        exact ⟨_, m, rfl, rfl, walkFrom_cons hn b [], hmn, hk, rfl⟩
      · simp only [hmn, hk]
        obtain ⟨u, n', hu, hue, hwf, hn', hk', hs'⟩ := ih (d + 1)
          { s with inPos := s.inPos + 1, ops := s.ops ++ [.read 1], cur := n.child (BitVec.ofBool b) } _ sym q rest hc0 rfl hq
          hr2 (by simp at hf; omega)
        refine ⟨u, n', hu, ?_, (walkFrom_cons hn b q).trans hwf, hn', hk', hs'⟩
        rw [hue]
        simp only [State.mk.injEq, true_and, and_true, List.length_cons]
        refine ⟨by omega, ?_⟩
        simp [List.replicate_succ]

/-- A walk with fewer bits ahead than the path of a leaf: it consumes them all and ends on the internal node they lead to
(R182, R183). -/
theorem walkToLeaf_truncated : ∀ (fuel d : Nat) (s : State) (t : CodeTree) (sym : Sym) (p : List Bool),
    treeAt s.nodes d s.cur = some t → t.isLeaf = false → (sym, p) ∈ t.codes [] → s.ahead <+: p → s.ahead ≠ p →
    s.ahead.length < fuel →
    ∃ u n, walkToLeaf fuel s = .raised .truncatedBody (u.cur.setWidth 64) u ∧
      u = { s with
        cur := u.cur, inPos := s.inPos + s.ahead.length,
        ops := s.ops ++ List.replicate (s.ahead.length + 1) (.read 1) } ∧
      walkFrom s.nodes s.cur s.ahead = some u.cur ∧ s.nodeAt u.cur = some n ∧ n.kind = .int := by
  intro fuel
  induction fuel with
  | zero =>
    intro d s t sym p _ hl hm _ _ hf
    omega
  | succ fuel ih =>
    intro d s t sym p ht hl hm ha hne hf
    cases t with
    | leaf => simp [CodeTree.isLeaf] at hl
    | node l r w =>
      obtain ⟨d, rfl⟩ : ∃ k, d = k + 1 := by
        cases d with
        | zero => simp [treeAt] at ht
        | succ d => exact ⟨d, rfl⟩
      rw [treeAt_succ] at ht
      obtain ⟨n, hn, ⟨-, h⟩ | ⟨hkn, l', r', hl', hr', he⟩⟩ := ht
      · simp at h
      simp only [CodeTree.node.injEq] at he
      obtain ⟨rfl, rfl, rfl⟩ := he
      have hna : s.nodes[s.cur.toNat]? = some n := hn
      cases hah : s.ahead with
      | nil =>
        rw [walkToLeaf, State.inRead1_nil hah]
        refine ⟨_, n, rfl, ?_, rfl, hna, hkn⟩
        simp
      | cons b as =>
        rw [hah] at ha hne
        obtain ⟨q, rfl, c, hc, hq⟩ : ∃ q, p = b :: q ∧ ∃ c, treeAt s.nodes d (n.child (BitVec.ofBool b)) = some c ∧
            (sym, q) ∈ c.codes [] := by
          obtain ⟨q, rfl, hq⟩ | ⟨q, rfl, hq⟩ := CodeTree.mem_codes_node.mp hm
          · obtain ⟨rfl, -⟩ := List.cons_prefix_cons.mp ha
            exact ⟨q, rfl, l, by rw [Node.child_ofBool]; exact hl', hq⟩
          · obtain ⟨rfl, -⟩ := List.cons_prefix_cons.mp ha
            exact ⟨q, rfl, r, by rw [Node.child_ofBool]; exact hr', hq⟩
        obtain ⟨-, hpre⟩ := List.cons_prefix_cons.mp ha
        have hnq : as ≠ q := fun h => hne (by rw [h])
        obtain ⟨hr1, hr2⟩ := State.inRead1_cons hah
        rw [walkToLeaf, hr1]
        simp only [State.nodeAt]
        rw [hna]
        obtain ⟨d, rfl⟩ : ∃ k, d = k + 1 := by
          cases d with
          | zero => simp [treeAt] at hc
          | succ d => exact ⟨d, rfl⟩
        have hc0 := hc
        rw [treeAt_succ] at hc
        obtain ⟨m, hmn, ⟨hk, rfl⟩ | ⟨hk, l2, r2, -, -, rfl⟩⟩ := hc
        · simp only [CodeTree.codes, List.mem_singleton, Prod.mk.injEq] at hq
          obtain ⟨rfl, rfl⟩ := hq
          simp at hpre
          exact absurd hpre hnq
        · simp only [hmn, hk]
          obtain ⟨u, n', hu, hue, hwf, hn', hk'⟩ := ih (d + 1)
            { s with inPos := s.inPos + 1, ops := s.ops ++ [.read 1], cur := n.child (BitVec.ofBool b) } _ sym q hc0 rfl hq
            (hr2.symm ▸ hpre) (hr2.symm ▸ hnq) (by
              have := congrArg List.length hr2
              rw [hah] at hf
              simp [State.ahead] at this hf ⊢
              omega)
          have hlen : ({ s with
            inPos := s.inPos + 1, ops := s.ops ++ [.read 1], cur := n.child (BitVec.ofBool b) } : State).ahead.length =
              as.length := congrArg List.length hr2
          rw [show State.ahead { s with
            inPos := s.inPos + 1, ops := s.ops ++ [.read 1], cur := n.child (BitVec.ofBool b) } = as from hr2] at hwf
          refine ⟨u, n', hu, ?_, (walkFrom_cons hn b as).trans hwf, hn', hk'⟩
          rw [hue]
          simp only [State.mk.injEq, true_and, and_true, List.length_cons, hlen]
          refine ⟨by omega, ?_⟩
          simp [List.replicate_succ]

/-- Whatever bits lie ahead of a tree that is not a leaf, either the path of one of its leaves begins them, or they are a
proper beginning of one. -/
theorem CodeTree.path_or_truncated : ∀ (t : CodeTree) (bits : List Bool),
    (∃ sym p rest, (sym, p) ∈ t.codes [] ∧ bits = p ++ rest) ∨
      ∃ sym p, (sym, p) ∈ t.codes [] ∧ bits <+: p ∧ bits ≠ p := by
  intro t
  induction t with
  | leaf sym w => intro bits; exact .inl ⟨sym, [], bits, by simp [CodeTree.codes], rfl⟩
  | node l r w ihl ihr =>
    intro bits
    cases bits with
    | nil =>
      obtain ⟨sym, p, h⟩ : ∃ sym p, (sym, p) ∈ (CodeTree.node l r w).codes [] := by
        have : (CodeTree.node l r w).codes [] ≠ [] := by
          intro h
          have h2 := (CodeTree.node l r w).codes_length []
          rw [h] at h2
          have := (CodeTree.node l r w).leaves_pos
          simp at h2; omega
        obtain ⟨x, hx⟩ := List.exists_mem_of_ne_nil _ this
        exact ⟨x.1, x.2, hx⟩
      exact .inr ⟨sym, p, h, List.nil_prefix, fun he => CodeTree.code_ne_nil rfl h he.symm⟩
    | cons b bits =>
      cases b with
      | false =>
        obtain ⟨sym, p, rest, h, rfl⟩ | ⟨sym, p, h, h1, h2⟩ := ihl bits
        · exact .inl ⟨sym, false :: p, rest, CodeTree.mem_codes_node.mpr (.inl ⟨p, rfl, h⟩), rfl⟩
        · exact .inr ⟨sym, false :: p, CodeTree.mem_codes_node.mpr (.inl ⟨p, rfl, h⟩), by simpa using h1, by simpa using h2⟩
      | true =>
        obtain ⟨sym, p, rest, h, rfl⟩ | ⟨sym, p, h, h1, h2⟩ := ihr bits
        · exact .inl ⟨sym, true :: p, rest, CodeTree.mem_codes_node.mpr (.inr ⟨p, rfl, h⟩), rfl⟩
        · exact .inr ⟨sym, true :: p, CodeTree.mem_codes_node.mpr (.inr ⟨p, rfl, h⟩), by simpa using h1, by simpa using h2⟩

/-! ## One symbol, and the body -/

/-- What `decodeOne` does with the path of a leaf ahead (R183). -/
theorem decodeOne_ok {s : State} {t : CodeTree} {sym : Sym} {p rest : List Bool} (ht : s.tree = some t)
    (hl : t.isLeaf = false) (hm : (sym, p) ∈ t.codes []) (ha : s.ahead = p ++ rest) :
    (sym = 256#9 → ∃ u n, decodeOne s = .ok sym u ∧
      u = { s with
        cur := u.cur, done := true, inPos := s.inPos + p.length,
        ops := s.ops ++ List.replicate p.length (.read 1) } ∧
      walkFrom s.nodes s.root p = some u.cur ∧ u.nodeAt u.cur = some n ∧ n.kind = .leaf ∧ n.sym = 256#9) ∧
    (sym ≠ 256#9 → decodeOne s = .ok sym { s with
      cur := s.root, inPos := s.inPos + p.length,
      outItems := s.outItems ++ (msbBits (sym.setWidth 8 : Byte)).map .bit,
      ops := s.ops ++ List.replicate p.length (.read 1) ++ [.write (msbBits (sym.setWidth 8 : Byte))] }) := by
  have hp : p.length ≤ s.inBits.length + 1 := by
    have := congrArg List.length ha
    rw [State.ahead_length, List.length_append] at this; omega
  obtain ⟨u, n, hu, hue, hwf, hn, hk, hs⟩ := walkToLeaf_ok (s.inBits.length + 1) s.nodes.length { s with cur := s.root } t sym p
    rest ht hl hm ha hp
  constructor
  · intro he
    refine ⟨{ u with done := true }, n, by rw [decodeOne, hu]; simp [he], ?_, hwf, ?_, hk, hs.trans he⟩
    · rw [hue]
    · have : u.nodes = s.nodes := by rw [hue]
      simpa [State.nodeAt, this] using hn
  · intro he
    rw [decodeOne, hu]
    simp only [he, if_false]
    rw [hue]
    rfl

/-- What `decodeOne` does when the bits run out inside a path (R183). -/
theorem decodeOne_truncated {s : State} {t : CodeTree} {sym : Sym} {p : List Bool} (ht : s.tree = some t)
    (hl : t.isLeaf = false) (hm : (sym, p) ∈ t.codes []) (ha : s.ahead <+: p) (hne : s.ahead ≠ p) :
    ∃ u n, decodeOne s = .raised .truncatedBody (u.cur.setWidth 64) u ∧
      u = { s with
        cur := u.cur, inPos := s.inPos + s.ahead.length,
        ops := s.ops ++ List.replicate (s.ahead.length + 1) (.read 1) } ∧
      walkFrom s.nodes s.root s.ahead = some u.cur ∧ u.nodeAt u.cur = some n ∧ n.kind = .int := by
  obtain ⟨u, n, hu, hue, hc, hn, hk⟩ := walkToLeaf_truncated (s.inBits.length + 1) s.nodes.length { s with cur := s.root } t
    sym p ht hl hm ha hne (by show s.ahead.length < _; rw [State.ahead_length]; omega)
  have hue' : u = { s with
      cur := u.cur, inPos := s.inPos + s.ahead.length,
      ops := s.ops ++ List.replicate (s.ahead.length + 1) (.read 1) } := hue
  refine ⟨u, n, by rw [decodeOne, hu], hue', hc, ?_, hk⟩
  have : u.nodes = s.nodes := by rw [hue]
  simpa [State.nodeAt, this] using hn

/-- The loop of `DEC` over the codes of `syms` and then the sentinel's (R185). -/
theorem decodeLoop_ok {t : CodeTree} {p : List Bool} (hl : t.isLeaf = false) (hp : (256#9, p) ∈ t.codes [])
    {syms : List Sym} {bits : List Bool} (hb : Body t syms bits) :
    ∀ (fuel : Nat) (s : State) (rest : List Bool), s.tree = some t → s.done = false → s.ahead = bits ++ p ++ rest →
      syms.length < fuel →
      ∃ u n, decodeLoop fuel s = .ok 0 u ∧
        u = { s with
          cur := u.cur, done := true, inPos := s.inPos + bits.length + p.length,
          outItems := s.outItems ++ (bitsOfBytes (syms.map fun sym => sym.setWidth 8)).map .bit, ops := u.ops } ∧
        walkFrom s.nodes s.root p = some u.cur ∧ u.nodeAt u.cur = some n ∧ n.kind = .leaf ∧ n.sym = 256#9 := by
  induction hb with
  | nil =>
    intro fuel s rest ht _ ha hf
    obtain ⟨fuel, rfl⟩ : ∃ k, fuel = k + 1 := ⟨fuel - 1, by omega⟩
    obtain ⟨u, n, hu, hue, hn⟩ := (decodeOne_ok ht hl hp (by simpa using ha)).1 rfl
    have hd : u.done = true := by rw [hue]
    refine ⟨u, n, by rw [decodeLoop, hu]; simp [hd], ?_, hn⟩
    rw [hue]
    simp
  | cons sym q syms bits hq hne _ ih =>
    intro fuel s rest ht hd ha hf
    obtain ⟨fuel, rfl⟩ : ∃ k, fuel = k + 1 := ⟨fuel - 1, by omega⟩
    have hu := (decodeOne_ok ht hl hq (rest := bits ++ p ++ rest) (by simpa using ha)).2 hne
    set s1 : State := { s with
      cur := s.root, inPos := s.inPos + q.length,
      outItems := s.outItems ++ (msbBits (sym.setWidth 8 : Byte)).map .bit,
      ops := s.ops ++ List.replicate q.length (.read 1) ++ [.write (msbBits (sym.setWidth 8 : Byte))] } with hs1
    have hd1 : s1.done = false := hd
    have ha1 : s1.ahead = bits ++ p ++ rest := by
      have := State.ahead_of_inPos (s := s) (t := s1) (n := q.length) rfl rfl
      rw [this, ha]; simp
    obtain ⟨u, n, h1, h2, h3⟩ := ih fuel s1 rest ht hd1 ha1 (by simp at hf; omega)
    refine ⟨u, n, by rw [decodeLoop, hu]; simpa [hd1] using h1, ?_, h3⟩
    rw [h2]
    simp [hs1]
    omega

/-! ## The response has no part in it -/

/-- The same end with another response pending. -/
def Exec.withRsp {α : Type} (r : Option Response) : Exec α → Exec α
  | .ok a s => .ok a { s with rsp := r }
  | .raised c x s => .raised c x { s with rsp := r }
  | .stuck f => .stuck f

theorem State.inRead_withRsp (s : State) (r : Option Response) (n : Nat) :
    ({ s with rsp := r } : State).inRead n = ((s.inRead n).1, { (s.inRead n).2 with rsp := r }) := by
  simp only [State.inRead]; split <;> rfl

theorem walkToLeaf_withRsp (r : Option Response) : ∀ (fuel : Nat) (s : State),
    walkToLeaf fuel { s with rsp := r } = (walkToLeaf fuel s).withRsp r := by
  intro fuel
  induction fuel with
  | zero => intro s; rfl
  | succ fuel ih =>
    intro s
    rw [walkToLeaf, walkToLeaf, State.inRead_withRsp]
    cases s.inRead 1 with
    | mk v s1 =>
      cases v with
      | none => rfl
      | some b =>
        simp only [State.nodeAt]
        cases s1.nodes[s1.cur.toNat]? with
        | none => rfl
        | some n =>
          simp only
          cases s1.nodes[(n.child b).toNat]? with
          | none => rfl
          | some m =>
            simp only
            cases m.kind with
            | leaf => rfl
            | int => exact ih { s1 with cur := n.child b }

theorem decodeOne_withRsp (r : Option Response) (s : State) :
    decodeOne { s with rsp := r } = (decodeOne s).withRsp r := by
  have h := walkToLeaf_withRsp r (s.inBits.length + 1) { s with cur := s.root }
  rw [decodeOne, decodeOne]
  rw [show walkToLeaf _ _ = _ from h]
  cases walkToLeaf (s.inBits.length + 1) { s with cur := s.root } with
  | ok sym u => simp only [Exec.withRsp]; split <;> rfl
  | raised c x u => rfl
  | stuck f => rfl

theorem decodeLoop_withRsp (r : Option Response) : ∀ (fuel : Nat) (s : State),
    decodeLoop fuel { s with rsp := r } = (decodeLoop fuel s).withRsp r := by
  intro fuel
  induction fuel with
  | zero => intro s; rfl
  | succ fuel ih =>
    intro s
    rw [decodeLoop, decodeLoop, decodeOne_withRsp]
    cases decodeOne s with
    | ok sym u =>
      simp only [Exec.withRsp]
      split
      · rfl
      · exact ih u
    | raised c x u => rfl
    | stuck f => rfl

/-! ## Frames and streams -/

/-- What the walk, `DSYM` and `DEC` keep: they move the walker and IN's cursor, set `DONE` and append to OUT. -/
def BodyFrame (s u : State) : Prop :=
  u = { s with
    cur := u.cur, done := u.done, inPos := u.inPos, outItems := u.outItems, ops := u.ops } ∧ s.inPos ≤ u.inPos

theorem BodyFrame.refl (s : State) : BodyFrame s s := ⟨rfl, Nat.le_refl _⟩

theorem BodyFrame.trans {s u v : State} (h1 : BodyFrame s u) (h2 : BodyFrame u v) : BodyFrame s v := by
  refine ⟨?_, h1.2.trans h2.2⟩
  rw [h2.1, h1.1]

/-- The stream operations of the decoder (R72). -/
def decoderOp : StreamOp → Bool
  | .read n => n == 1
  | .write bits => bits.length == 8
  | _ => false

theorem allowedOp_dec : allowedOp .dec = decoderOp := by funext op; cases op <;> rfl

theorem allowedOp_dsym : allowedOp .dsym = decoderOp := by funext op; cases op <;> rfl

/-- What one walk can do (R183): consume bits, and end on a leaf or at the end of IN. -/
theorem walkToLeaf_spec : ∀ (fuel : Nat) (s : State),
    (∀ sym u, walkToLeaf fuel s = .ok sym u →
      BodyFrame s u ∧ Streamed decoderOp s u ∧ u.done = s.done ∧ u.outItems = s.outItems ∧ s.inPos < u.inPos ∧
        u.inPos ≤ u.inBits.length ∧ ∃ n, u.nodeAt u.cur = some n ∧ n.kind = .leaf ∧ n.sym = sym) ∧
    (∀ c x u, walkToLeaf fuel s = .raised c x u →
      BodyFrame s u ∧ Streamed decoderOp s u ∧ u.done = s.done ∧ u.outItems = s.outItems ∧ c = .truncatedBody ∧
        x = u.cur.setWidth 64 ∧ (u.cur = s.cur ∨ ∃ n, u.nodeAt u.cur = some n ∧ n.kind = .int)) := by
  intro fuel
  induction fuel with
  | zero =>
    intro s
    refine ⟨fun sym u h => by simp [walkToLeaf] at h, fun c x u h => ?_⟩
    simp only [walkToLeaf, Exec.raised.injEq] at h
    obtain ⟨rfl, rfl, rfl⟩ := h
    exact ⟨.refl _, .refl _, rfl, rfl, rfl, rfl, .inl rfl⟩
  | succ fuel ih =>
    intro s
    rw [walkToLeaf]
    cases hr : s.inRead 1 with
    | mk v s1 =>
      have hst : Streamed decoderOp s s1 := .of_inRead hr rfl
      obtain ⟨hfr, hle⟩ := inRead_frames hr
      have hbf : BodyFrame s s1 := ⟨by rw [hfr], hle⟩
      have hdn : s1.done = s.done := by rw [hfr]
      have hou : s1.outItems = s.outItems := by rw [hfr]
      cases v with
      | none =>
        refine ⟨fun sym u h => by simp at h, fun c x u h => ?_⟩
        simp only [Exec.raised.injEq] at h
        obtain ⟨rfl, rfl, rfl⟩ := h
        exact ⟨hbf, hst, hdn, hou, rfl, rfl, .inl (by rw [hfr])⟩
      | some b =>
        have hpos : s1.inPos = s.inPos + 1 ∧ s.inPos + 1 ≤ s.inBits.length := by
          unfold State.inRead at hr
          split at hr
          · injection hr with _ hr; subst hr; exact ⟨rfl, ‹_›⟩
          · simp at hr
        have hbits : s1.inBits = s.inBits := by rw [hfr]
        simp only
        cases hn : s1.nodeAt s1.cur with
        | none => exact ⟨fun sym u h => by simp at h, fun c x u h => by simp at h⟩
        | some n =>
          simp only
          cases hm : s1.nodeAt (n.child b) with
          | none => exact ⟨fun sym u h => by simp at h, fun c x u h => by simp at h⟩
          | some m =>
            simp only
            cases hk : m.kind with
            | leaf =>
              refine ⟨fun sym u h => ?_, fun c x u h => by simp at h⟩
              simp only [Exec.ok.injEq] at h
              obtain ⟨rfl, rfl⟩ := h
              refine ⟨⟨by rw [hfr], hle⟩, hst.trans (.of_same rfl ⟨rfl, rfl, rfl⟩), hdn, hou, ?_, ?_, m, hm, hk, rfl⟩
              · show s.inPos < s1.inPos; omega
              · show s1.inPos ≤ s1.inBits.length; rw [hbits]; omega
            | int =>
              simp only
              have hb2 : BodyFrame s { s1 with cur := n.child b } := ⟨by rw [hfr], hle⟩
              have hs2 : Streamed decoderOp s { s1 with cur := n.child b } :=
                hst.trans (.of_same rfl ⟨rfl, rfl, rfl⟩)
              obtain ⟨h1, h2⟩ := ih { s1 with cur := n.child b }
              refine ⟨fun sym u h => ?_, fun c x u h => ?_⟩
              · obtain ⟨a1, a2, a3, a4, a5, a6, a7⟩ := h1 sym u h
                refine ⟨hb2.trans a1, hs2.trans a2, a3.trans hdn, a4.trans hou, ?_, a6, a7⟩
                have : s1.inPos < u.inPos := a5
                omega
              · obtain ⟨a1, a2, a3, a4, a5, a6, a7⟩ := h2 c x u h
                refine ⟨hb2.trans a1, hs2.trans a2, a3.trans hdn, a4.trans hou, a5, a6, .inr ?_⟩
                obtain a7 | a7 := a7
                · have hun : u.nodes = s1.nodes := by rw [a1.1]
                  exact ⟨m, by rw [a7, State.nodeAt, hun]; exact hm, hk⟩
                · exact a7

/-- What the body of `DSYM` can do (R183). -/
theorem decodeOne_spec (s : State) :
    (∀ sym u, decodeOne s = .ok sym u →
      BodyFrame s u ∧ Streamed decoderOp s u ∧ s.inPos < u.inPos ∧ u.inPos ≤ u.inBits.length ∧
        ((sym = 256#9 ∧ u.done = true ∧ u.outItems = s.outItems ∧
            ∃ n, u.nodeAt u.cur = some n ∧ n.kind = .leaf ∧ n.sym = 256#9) ∨
          (sym ≠ 256#9 ∧ u.done = s.done ∧ u.cur = s.root ∧
            u.outItems = s.outItems ++ (msbBits (sym.setWidth 8 : Byte)).map .bit))) ∧
    (∀ c x u, decodeOne s = .raised c x u →
      BodyFrame s u ∧ Streamed decoderOp s u ∧ u.done = s.done ∧ u.outItems = s.outItems ∧ c = .truncatedBody ∧
        x = u.cur.setWidth 64 ∧ (u.cur = s.root ∨ ∃ n, u.nodeAt u.cur = some n ∧ n.kind = .int)) := by
  have hb0 : BodyFrame s { s with cur := s.root } := ⟨rfl, Nat.le_refl _⟩
  have hs0 : Streamed decoderOp s { s with cur := s.root } := .of_same rfl ⟨rfl, rfl, rfl⟩
  obtain ⟨h1, h2⟩ := walkToLeaf_spec (s.inBits.length + 1) { s with cur := s.root }
  rw [decodeOne]
  cases hw : walkToLeaf (s.inBits.length + 1) { s with cur := s.root } with
  | stuck f => exact ⟨fun sym u h => by simp at h, fun c x u h => by simp at h⟩
  | raised c x u =>
    refine ⟨fun sym u h => by simp at h, fun c' x' u' h => ?_⟩
    simp only [Exec.raised.injEq] at h
    obtain ⟨rfl, rfl, rfl⟩ := h
    obtain ⟨a1, a2, a3, a4, a5, a6⟩ := h2 _ _ _ hw
    exact ⟨hb0.trans a1, hs0.trans a2, a3, a4, a5, a6⟩
  | ok sym u =>
    obtain ⟨a1, a2, a3, a4, a5, a6, n, a7, a8, a9⟩ := h1 _ _ hw
    have b1 := hb0.trans a1
    have b2 := hs0.trans a2
    refine ⟨fun sym' u' h => ?_, fun c x u' h => ?_⟩
    · simp only at h
      split at h
      · rename_i he
        injection h with h3 h4
        subst h3 h4
        refine ⟨⟨by rw [b1.1], b1.2⟩, b2.trans (.of_same rfl ⟨rfl, rfl, rfl⟩), a5, a6, .inl ⟨he, rfl, a4, n, a7, a8, ?_⟩⟩
        rw [a9, he]
      · rename_i he
        injection h with h3 h4
        subst h3 h4
        have hroot : u.root = s.root := by rw [b1.1]
        refine ⟨⟨by rw [b1.1]; rfl, b1.2⟩, ?_, a5, a6, .inr ⟨he, a3, hroot, ?_⟩⟩
        · refine b2.trans (.trans (.outWrite u (sym.setWidth 8 : Byte) ?_) (.of_same rfl ⟨rfl, rfl, rfl⟩))
          simp [decoderOp]
        · show u.outItems ++ _ = _
          rw [a4]
    · simp only at h
      split at h <;> simp at h

/-- What the loop of `DEC` can do (R185). -/
theorem decodeLoop_spec : ∀ (fuel : Nat) (s : State),
    (∀ d u, decodeLoop fuel s = .ok d u →
      BodyFrame s u ∧ Streamed decoderOp s u ∧ d = 0 ∧ u.done = true ∧
        (s.done = false → ∃ n, u.nodeAt u.cur = some n ∧ n.kind = .leaf ∧ n.sym = 256#9)) ∧
    (∀ c x u, decodeLoop fuel s = .raised c x u →
      BodyFrame s u ∧ Streamed decoderOp s u ∧ u.done = s.done ∧ c = .truncatedBody ∧ x = u.cur.setWidth 64 ∧
        (0 < fuel → u.cur = s.root ∨ ∃ n, u.nodeAt u.cur = some n ∧ n.kind = .int)) := by
  intro fuel
  induction fuel with
  | zero =>
    intro s
    refine ⟨fun d u h => by simp [decodeLoop] at h, fun c x u h => ?_⟩
    simp only [decodeLoop, Exec.raised.injEq] at h
    obtain ⟨rfl, rfl, rfl⟩ := h
    exact ⟨.refl _, .refl _, rfl, rfl, rfl, fun h => absurd h (Nat.lt_irrefl 0)⟩
  | succ fuel ih =>
    intro s
    obtain ⟨h1, h2⟩ := decodeOne_spec s
    rw [decodeLoop]
    cases hw : decodeOne s with
    | stuck f => exact ⟨fun d u h => by simp at h, fun c x u h => by simp at h⟩
    | raised c x u =>
      refine ⟨fun d u h => by simp at h, fun c' x' u' h => ?_⟩
      simp only [Exec.raised.injEq] at h
      obtain ⟨rfl, rfl, rfl⟩ := h
      obtain ⟨a1, a2, a3, a4, a5, a6⟩ := h2 _ _ _ hw
      exact ⟨a1, a2, a3, a5, a6.1, fun _ => a6.2⟩
    | ok sym m =>
      obtain ⟨a1, a2, -, -, a5⟩ := h1 _ _ hw
      obtain ⟨i1, i2⟩ := ih m
      simp only
      by_cases hd : m.done = true
      · refine ⟨fun d u h => ?_, fun c x u h => by simp [hd] at h⟩
        simp only [hd, if_true, Exec.ok.injEq] at h
        obtain ⟨rfl, rfl⟩ := h
        refine ⟨a1, a2, rfl, hd, fun hs => ?_⟩
        obtain ⟨-, -, -, hn⟩ | ⟨-, hdd, -⟩ := a5
        · exact hn
        · rw [hdd, hs] at hd; simp at hd
      · simp only [hd, Bool.false_eq_true, if_false]
        have hmd : m.done = s.done := by
          obtain ⟨-, hdd, -⟩ | ⟨-, hdd, -⟩ := a5
          · exact absurd hdd hd
          · exact hdd
        refine ⟨fun d u h => ?_, fun c x u h => ?_⟩
        · obtain ⟨b1, b2, b3, b4, b5⟩ := i1 d u h
          exact ⟨a1.trans b1, a2.trans b2, b3, b4, fun hs => b5 (hmd.trans hs)⟩
        · obtain ⟨b1, b2, b3, b4, b5, b6⟩ := i2 c x u h
          refine ⟨a1.trans b1, a2.trans b2, b3.trans hmd, b4, b5, fun _ => ?_⟩
          have hmr : m.root = s.root := by rw [a1.1]
          by_cases hf : 0 < fuel
          · rw [← hmr]; exact b6 hf
          · obtain rfl : fuel = 0 := by omega
            simp only [decodeLoop, Exec.raised.injEq] at h
            obtain ⟨-, -, rfl⟩ := h
            obtain ⟨-, hdd, -⟩ | ⟨-, -, hcur, -⟩ := a5
            · exact absurd hdd hd
            · exact .inl hcur

/-- On a tree that is not a leaf the decoder never meets an entry that is not there (R182). -/
theorem decodeOne_not_stuck {s : State} {t : CodeTree} (ht : s.tree = some t) (hl : t.isLeaf = false) (f : Fault) :
    decodeOne s ≠ .stuck f := by
  obtain ⟨sym, p, rest, hm, ha⟩ | ⟨sym, p, hm, h1, h2⟩ := t.path_or_truncated s.ahead
  · obtain ⟨d1, d2⟩ := decodeOne_ok ht hl hm ha
    by_cases he : sym = 256#9
    · obtain ⟨u, n, hu, -⟩ := d1 he
      rw [hu]; simp
    · rw [d2 he]; simp
  · obtain ⟨u, n, hu, -⟩ := decodeOne_truncated ht hl hm h1 h2
    rw [hu]; simp

theorem decodeLoop_not_stuck {t : CodeTree} (hl : t.isLeaf = false) (f : Fault) : ∀ (fuel : Nat) (s : State),
    s.tree = some t → decodeLoop fuel s ≠ .stuck f := by
  intro fuel
  induction fuel with
  | zero => intro s _ h; simp [decodeLoop] at h
  | succ fuel ih =>
    intro s ht h
    rw [decodeLoop] at h
    cases hd : decodeOne s with
    | stuck g => exact decodeOne_not_stuck ht hl g hd
    | raised c x u => simp [hd] at h
    | ok sym u =>
      have hb := ((decodeOne_spec s).1 _ _ hd).1
      simp only [hd] at h
      split at h
      · simp at h
      · refine ih u ?_ h
        rw [State.tree, hb.1]; exact ht

end Sys2Proof.Machine
end

