-- ==== Sys2Proof/Laws/Builder.lean ====
section
/-! SUPPORT. The tree builder (`41_tree_builder.md` R131 to R138): the leaves it creates, the invariant its merge loop keeps,
and what `BLD` leaves. -/

namespace Sys2Proof.Machine

/-! ## The walk in a growing arena -/

/-- A deeper bound finds the same walk, and so does an arena with more entries. -/
theorem reach_append {nodes : List Node} (more : List Node) : ∀ {d d' : Nat} {i : Idx} {l : List Nat}, d ≤ d' →
    reach nodes d i = some l → reach (nodes ++ more) d' i = some l := by
  intro d
  induction d with
  | zero => intro d' i l _ h; simp [reach] at h
  | succ d ih =>
    intro d' i l hd h
    obtain ⟨d', rfl⟩ : ∃ k, d' = k + 1 := ⟨d' - 1, by omega⟩
    rw [reach] at h ⊢
    cases hn : nodes[i.toNat]? with
    | none => simp [hn] at h
    | some n =>
      have hlt : i.toNat < nodes.length := by
        by_contra hc
        rw [List.getElem?_eq_none (by omega)] at hn; simp at hn
      rw [List.getElem?_append_left hlt, hn]
      cases hk : n.kind with
      | leaf => simpa [hn, hk] using h
      | int =>
        simp only [hn, hk] at h ⊢
        cases h1 : reach nodes d n.left with
        | none => simp [h1] at h
        | some la =>
          cases h2 : reach nodes d n.right with
          | none => simp [h1, h2] at h
          | some lb =>
            rw [ih (by omega) h1, ih (by omega) h2]
            simpa [h1, h2] using h

/-- The indices met by the walk from entry `i`, none where there is no walk. -/
def reachOf (nodes : List Node) (i : Idx) : List Nat := (reach nodes nodes.length i).getD []

/-- The leaves below entry `i` with their weights. -/
def leavesOf (nodes : List Node) (i : Idx) : List (Sym × Weight) :=
  ((treeAt nodes nodes.length i).map CodeTree.leafList).getD []

theorem leavesOf_append {nodes : List Node} (n : Node) {i : Idx} {t : CodeTree}
    (h : treeAt nodes nodes.length i = some t) : leavesOf (nodes ++ [n]) i = leavesOf nodes i := by
  rw [leavesOf, leavesOf, h, treeAt_append [n] (by simp) h]

theorem reachOf_append {nodes : List Node} (n : Node) {i : Idx} {t : CodeTree}
    (h : treeAt nodes nodes.length i = some t) : reachOf (nodes ++ [n]) i = reachOf nodes i := by
  obtain ⟨l, hl⟩ := (reach_isSome_iff nodes nodes.length i).mpr ⟨t, h⟩
  rw [reachOf, reachOf, hl, reach_append [n] (by simp) hl]

theorem weightAt_of_treeAt {nodes : List Node} {d : Nat} {i : Idx} {t : CodeTree} (h : treeAt nodes d i = some t) :
    weightAt nodes i = t.weight ∧ i.toNat < nodes.length := by
  cases d with
  | zero => simp [treeAt] at h
  | succ d =>
    rw [treeAt_succ] at h
    obtain ⟨n, hn, h⟩ := h
    have hlt : i.toNat < nodes.length := by
      by_contra hc
      rw [List.getElem?_eq_none (by omega)] at hn; simp at hn
    refine ⟨?_, hlt⟩
    rw [weightAt, hn]
    obtain ⟨-, rfl⟩ | ⟨-, l, r, -, -, rfl⟩ := h <;> rfl

theorem weightAt_append {nodes : List Node} (n : Node) {i : Idx} (h : i.toNat < nodes.length) :
    weightAt (nodes ++ [n]) i = weightAt nodes i := by
  rw [weightAt, weightAt, List.getElem?_append_left h]

/-! ## The order of the merges -/

/-- What is waiting does not depend on the entries made later. -/
theorem waiting_append {nodes more : List Node} {j : Nat} (hj : j ≤ nodes.length) (i : Idx) :
    waiting (nodes ++ more) j i ↔ waiting nodes j i := by
  have h : takenBefore (nodes ++ more) j i ↔ takenBefore nodes j i := by
    constructor
    · rintro ⟨m, n, hm, hn, h⟩
      exact ⟨m, n, hm, by rwa [List.getElem?_append_left (by omega)] at hn, h⟩
    · rintro ⟨m, n, hm, hn, h⟩
      exact ⟨m, n, hm, by rwa [List.getElem?_append_left (by omega)], h⟩
  rw [waiting, waiting, h]

/-- One entry more: it waits, and its children wait no longer. -/
theorem waiting_succ {nodes : List Node} {x : Node} {i : Idx}
    (hold : ∀ n ∈ nodes, n.kind = .int → n.left.toNat < nodes.length ∧ n.right.toNat < nodes.length)
    (hx : x.kind = .int → x.left.toNat < nodes.length ∧ x.right.toNat < nodes.length) :
    waiting (nodes ++ [x]) (nodes.length + 1) i ↔
      i.toNat = nodes.length ∨ (waiting nodes nodes.length i ∧ ¬ (x.kind = .int ∧ (x.left = i ∨ x.right = i))) := by
  have h : takenBefore (nodes ++ [x]) (nodes.length + 1) i ↔
      takenBefore nodes nodes.length i ∨ (x.kind = .int ∧ (x.left = i ∨ x.right = i)) := by
    constructor
    · rintro ⟨m, n, hm, hn, h⟩
      by_cases hlt : m < nodes.length
      · exact .inl ⟨m, n, hlt, by rwa [List.getElem?_append_left hlt] at hn, h⟩
      · obtain rfl : m = nodes.length := by omega
        rw [List.getElem?_concat_length, Option.some.injEq] at hn
        subst hn
        exact .inr h
    · rintro (⟨m, n, hm, hn, h⟩ | h)
      · exact ⟨m, n, by omega, by rwa [List.getElem?_append_left hm], h⟩
      · exact ⟨nodes.length, x, by omega, List.getElem?_concat_length, h⟩
  have hnew : i.toNat = nodes.length → ¬ takenBefore nodes nodes.length i ∧ ¬ (x.kind = .int ∧ (x.left = i ∨ x.right = i)) := by
    intro he
    constructor
    · rintro ⟨m, n, -, hn, hk, rfl | rfl⟩
      · have := (hold n (List.mem_of_getElem? hn) hk).1; omega
      · have := (hold n (List.mem_of_getElem? hn) hk).2; omega
    · rintro ⟨hk, rfl | rfl⟩
      · have := (hx hk).1; omega
      · have := (hx hk).2; omega
  rw [waiting, waiting, h]
  constructor
  · rintro ⟨h1, h2⟩
    rw [not_or] at h2
    by_cases he : i.toNat = nodes.length
    · exact .inl he
    · exact .inr ⟨⟨by omega, h2.1⟩, h2.2⟩
  · rintro (he | ⟨⟨h1, h2⟩, h3⟩)
    · exact ⟨by omega, not_or.mpr (hnew he)⟩
    · exact ⟨by omega, not_or.mpr ⟨h2, h3⟩⟩

theorem precedes_append {nodes : List Node} (x : Node) {a b : Idx} (ha : a.toNat < nodes.length) (hb : b.toNat < nodes.length) :
    precedes (nodes ++ [x]) a b ↔ precedes nodes a b := by
  rw [precedes, precedes, weightAt_append x ha, weightAt_append x hb]

/-- What a merge made stays so when entries are added. -/
theorem mergesLeast_append {nodes : List Node} (x : Node) {j : Nat} (hj : j < nodes.length) (h : mergesLeast nodes j) :
    mergesLeast (nodes ++ [x]) j := by
  have hle := Nat.le_of_lt hj
  obtain ⟨n, h1, h2, h3, h4, h5, h6, h7, h8⟩ := h
  have hl : n.left.toNat < nodes.length := Nat.lt_trans h4.1 hj
  have hr : n.right.toNat < nodes.length := Nat.lt_trans h5.1 hj
  refine ⟨n, by rwa [List.getElem?_append_left hj], h2, h3, (waiting_append hle _).mpr h4, (waiting_append hle _).mpr h5,
    (precedes_append x hl hr).mpr h6, fun c hc hcl hcr => ?_, by rw [weightAt_append x hl, weightAt_append x hr, h8]⟩
  have hc' := (waiting_append hle _).mp hc
  exact (precedes_append x hr (Nat.lt_trans hc'.1 hj)).mpr (h7 c hc' hcl hcr)

/-- The queue holds the entries that wait, each under its index as sequence number, and every entry from `k` on is a merge of
the two least (R131 to R133). -/
structure MergeOrder (k : Nat) (nodes : List Node) (pq : List QEntry) : Prop where
  seqs : ∀ e ∈ pq, e.seq.toNat = e.node.toNat
  waits : ∀ i : Idx, waiting nodes nodes.length i ↔ ∃ e ∈ pq, e.node = i
  distinct : (pq.map QEntry.node).Nodup
  merged : ∀ j, k ≤ j → j < nodes.length → mergesLeast nodes j

/-- `ExtractMin` answers the entry that precedes all others, when sequence numbers are distinct indices. -/
theorem extractMin_precedes {nodes : List Node} {q rest : List QEntry} {m : QEntry} (h : extractMin q = some (m, rest))
    (hs : ∀ e ∈ q, e.seq.toNat = e.node.toNat) (hd : (q.map QEntry.node).Nodup)
    (hw : ∀ e ∈ q, weightAt nodes e.node = e.weight) : ∀ e ∈ rest, precedes nodes m.node e.node := by
  intro e he
  have hp := extractMin_perm h
  have hle := extractMin_least h e he
  have hm := hp.symm.subset (List.mem_cons_self (a := m) (l := rest))
  have he' := hp.symm.subset (List.mem_cons_of_mem m he)
  have hne : m.node.toNat ≠ e.node.toNat := by
    have := (hp.map QEntry.node).nodup_iff.mp hd
    rw [List.map_cons, List.nodup_cons] at this
    exact fun hc => this.1 (List.mem_map.mpr ⟨e, he, (BitVec.eq_of_toNat_eq hc).symm⟩)
  rw [← Bool.not_eq_true, QEntry.before_iff, hs e he', hs m hm] at hle
  rw [precedes, hw m hm, hw e he']
  omega

/-- One leaf more (R131). -/
theorem MergeOrder.makeLeaf {k : Nat} {nodes : List Node} {pq : List QEntry} (h : MergeOrder k nodes pq) (hk : nodes.length = k)
    {x : Node} (hx : x.kind = .leaf) {e : QEntry} (he : e.node.toNat = nodes.length) (hs : e.seq.toNat = nodes.length)
    (hold : ∀ n ∈ nodes, n.kind = .int → n.left.toNat < nodes.length ∧ n.right.toNat < nodes.length) :
    MergeOrder (k + 1) (nodes ++ [x]) (pq ++ [e]) := by
  have hwait : ∀ f ∈ pq, f.node.toNat < nodes.length := fun f hf => ((h.waits f.node).mpr ⟨f, hf, rfl⟩).1
  constructor
  · intro f hf
    obtain hf | hf := List.mem_append.mp hf
    · exact h.seqs f hf
    · rw [List.mem_singleton.mp hf, hs, he]
  · intro i
    rw [List.length_append, List.length_singleton, waiting_succ hold (fun hc => by rw [hx] at hc; cases hc), h.waits]
    simp only [hx, reduceCtorEq, false_and, not_false_eq_true, and_true, List.mem_append, List.mem_singleton]
    constructor
    · rintro (hi | ⟨f, hf, rfl⟩)
      · exact ⟨e, .inr rfl, BitVec.eq_of_toNat_eq (he.trans hi.symm)⟩
      · exact ⟨f, .inl hf, rfl⟩
    · rintro ⟨f, hf | rfl, rfl⟩
      · exact .inr ⟨f, hf, rfl⟩
      · exact .inl he
  · rw [List.map_append, List.nodup_append]
    refine ⟨h.distinct, by simp, fun a ha b hb => ?_⟩
    obtain ⟨f, hf, rfl⟩ := List.mem_map.mp ha
    rw [List.map_singleton, List.mem_singleton] at hb
    subst hb
    have := hwait f hf
    exact fun hc => by rw [hc, he] at this; omega
  · intro j hj hjl
    rw [List.length_append, List.length_singleton] at hjl
    omega

/-- One merge step (R133). -/
theorem MergeOrder.mergeStep {k : Nat} {nodes : List Node} {pq rest rest' : List QEntry} {a b e : QEntry}
    (h : MergeOrder k nodes pq) (ha : extractMin pq = some (a, rest)) (hb : extractMin rest = some (b, rest'))
    (hw : ∀ f ∈ pq, weightAt nodes f.node = f.weight) (hsum : a.weight.toNat + b.weight.toNat < 2 ^ 41)
    (he : e.node.toNat = nodes.length) (hs : e.seq.toNat = nodes.length)
    (hold : ∀ n ∈ nodes, n.kind = .int → n.left.toNat < nodes.length ∧ n.right.toNat < nodes.length) :
    MergeOrder k (nodes ++ [Node.mkInt a.node b.node (a.weight + b.weight)]) (rest' ++ [e]) := by
  have hp1 := extractMin_perm ha
  have hp2 := extractMin_perm hb
  have hperm : pq.Perm (a :: b :: rest') := hp1.trans (hp2.cons a)
  have hin : ∀ f ∈ pq, waiting nodes nodes.length f.node := fun f hf => (h.waits f.node).mpr ⟨f, hf, rfl⟩
  have ha' : a ∈ pq := hperm.symm.subset (by simp)
  have hb' : b ∈ pq := hperm.symm.subset (by simp)
  have hr' : ∀ f ∈ rest', f ∈ pq := fun f hf => hperm.symm.subset (by simp [hf])
  have hr : ∀ f ∈ rest, f ∈ pq := fun f hf => hp1.symm.subset (by simp [hf])
  have hnd := (hperm.map QEntry.node).nodup_iff.mp h.distinct
  rw [List.map_cons, List.map_cons, List.nodup_cons, List.nodup_cons, List.mem_cons, not_or] at hnd
  obtain ⟨⟨hab, har⟩, hbr, hndr⟩ := hnd
  set x := Node.mkInt a.node b.node (a.weight + b.weight) with hx
  have hxc : x.kind = .int → x.left.toNat < nodes.length ∧ x.right.toNat < nodes.length :=
    fun _ => ⟨(hin a ha').1, (hin b hb').1⟩
  constructor
  · intro f hf
    obtain hf | hf := List.mem_append.mp hf
    · exact h.seqs f (hr' f hf)
    · rw [List.mem_singleton.mp hf, hs, he]
  · intro i
    rw [List.length_append, List.length_singleton, waiting_succ hold hxc, h.waits]
    simp only [List.mem_append, List.mem_singleton]
    constructor
    · rintro (hi | ⟨⟨f, hf, rfl⟩, hn⟩)
      · exact ⟨e, .inr rfl, BitVec.eq_of_toNat_eq (he.trans hi.symm)⟩
      · obtain rfl | hf := List.mem_cons.mp (hperm.subset hf)
        · exact absurd ⟨rfl, .inl rfl⟩ hn
        obtain rfl | hf := List.mem_cons.mp hf
        · exact absurd ⟨rfl, .inr rfl⟩ hn
        exact ⟨f, .inl hf, rfl⟩
    · rintro ⟨f, hf | rfl, rfl⟩
      · refine .inr ⟨⟨f, hr' f hf, rfl⟩, ?_⟩
        rintro ⟨-, hc | hc⟩
        · exact har (List.mem_map.mpr ⟨f, hf, hc.symm⟩)
        · exact hbr (List.mem_map.mpr ⟨f, hf, hc.symm⟩)
      · exact .inl he
  · rw [List.map_append, List.nodup_append]
    refine ⟨hndr, by simp, fun c hc d hd => ?_⟩
    obtain ⟨f, hf, rfl⟩ := List.mem_map.mp hc
    rw [List.map_singleton, List.mem_singleton] at hd
    subst hd
    have := (hin f (hr' f hf)).1
    exact fun hc => by rw [hc, he] at this; omega
  · intro j hj hjl
    by_cases hlt : j < nodes.length
    · exact mergesLeast_append x hlt (h.merged j hj hlt)
    rw [List.length_append, List.length_singleton] at hjl
    obtain rfl : j = nodes.length := by omega
    have hle := Nat.le_refl nodes.length
    have hla := (hin a ha').1
    have hlb := (hin b hb').1
    have hpa := extractMin_precedes (nodes := nodes) ha h.seqs h.distinct hw
    have hpb := extractMin_precedes (nodes := nodes) hb (fun f hf => h.seqs f (hr f hf))
      ((List.nodup_cons.mp ((hp1.map QEntry.node).nodup_iff.mp h.distinct)).2) (fun f hf => hw f (hr f hf))
    refine ⟨x, List.getElem?_concat_length, rfl, rfl, (waiting_append hle _).mpr (hin a ha'),
      (waiting_append hle _).mpr (hin b hb'),
      (precedes_append x hla hlb).mpr (hpa b (hp2.symm.subset (by simp))), fun c hc hca hcb => ?_, ?_⟩
    · obtain ⟨f, hf, rfl⟩ := (h.waits c).mp ((waiting_append hle _).mp hc)
      have hlf := (hin f hf).1
      obtain rfl | hf := List.mem_cons.mp (hperm.subset hf)
      · exact absurd rfl hca
      obtain rfl | hf := List.mem_cons.mp hf
      · exact absurd rfl hcb
      exact (precedes_append x hlb hlf).mpr (hpb f hf)
    · show (a.weight + b.weight).toNat = (weightAt (nodes ++ [x]) a.node).toNat + (weightAt (nodes ++ [x]) b.node).toNat
      rw [weightAt_append x hla, weightAt_append x hlb, hw a ha', hw b hb', BitVec.toNat_add, Nat.mod_eq_of_lt hsum]

/-! ## The forest the merge loop works on -/

/-- What holds of the arena and the queue after the leaves are created and after every merge step (R131, R133): the queue's
entries are the roots of trees that together use every allocated entry once, each with the weight of its tree; the record of
every entry is sound; `k` leaves in `L` were created, and every merge used the two least entries for one. -/
structure Forest (k : Nat) (L : List (Sym × Weight)) (t : State) : Prop where
  trees : ∀ e ∈ t.pq, ∃ tr, treeAt t.nodes t.nodes.length e.node = some tr ∧ tr.weight = e.weight
  covered : (t.pq.flatMap fun e => reachOf t.nodes e.node).Perm (List.range t.nodes.length)
  records : ∀ n ∈ t.nodes, nodeOk t.nodes n ∧
    (n.kind = .int → n.left.toNat < t.nodes.length ∧ n.right.toNat < t.nodes.length)
  number : t.nodes.length + t.pq.length = 2 * k
  bound : k ≤ 257
  seqIs : t.seq = BitVec.ofNat 10 t.nodes.length
  total : (t.pq.map fun e => e.weight.toNat).sum = (L.map fun p => p.2.toNat).sum
  small : (L.map fun p => p.2.toNat).sum < 2 ^ 41
  leafs : (t.pq.flatMap fun e => leavesOf t.nodes e.node).Perm L
  lastNode : ∀ e, t.pq.getLast? = some e → e.node.toNat + 1 = t.nodes.length
  order : MergeOrder k t.nodes t.pq

/-- One merge step keeps the forest (R133). -/
theorem Forest.mergeStep {k : Nat} {L : List (Sym × Weight)} {t : State} (h : Forest k L t) {a b : QEntry}
    {rest rest' : List QEntry} (ha : extractMin t.pq = some (a, rest)) (hb : extractMin rest = some (b, rest')) :
    Forest k L (mergeStep a b { t with pq := rest' }) := by
  have hperm : t.pq.Perm (a :: b :: rest') := (extractMin_perm ha).trans ((extractMin_perm hb).cons a)
  have hlen : t.pq.length = rest'.length + 2 := by simpa using hperm.length_eq
  have hlt : t.nodes.length < 513 := by have := h.number; have := h.bound; omega
  have hnn : (State.nn { t with pq := rest' }) = BitVec.ofNat 10 t.nodes.length := rfl
  have hnnat : (BitVec.ofNat 10 t.nodes.length).toNat = t.nodes.length := by simp; omega
  set x := Node.mkInt a.node b.node (a.weight + b.weight) with hx
  obtain ⟨ta, hta, hwa⟩ := h.trees a (hperm.symm.subset (by simp))
  obtain ⟨tb, htb, hwb⟩ := h.trees b (hperm.symm.subset (by simp))
  have hold : ∀ e ∈ rest', ∃ tr, treeAt t.nodes t.nodes.length e.node = some tr ∧ tr.weight = e.weight :=
    fun e he => h.trees e (hperm.symm.subset (by simp [he]))
  have hnodes : (Machine.mergeStep a b { t with pq := rest' }).nodes = t.nodes ++ [x] := rfl
  have hpq : (Machine.mergeStep a b { t with pq := rest' }).pq =
      rest' ++ [⟨a.weight + b.weight, t.seq, BitVec.ofNat 10 t.nodes.length⟩] := rfl
  have hseq : (Machine.mergeStep a b { t with pq := rest' }).seq = t.seq + 1 := rfl
  have hget : (t.nodes ++ [x])[(BitVec.ofNat 10 t.nodes.length).toNat]? = some x := by rw [hnnat]; simp
  have hnew : treeAt (t.nodes ++ [x]) (t.nodes.length + 1) (BitVec.ofNat 10 t.nodes.length) =
      some (.node ta tb (a.weight + b.weight)) := by
    rw [treeAt_succ]
    exact ⟨x, hget, .inr ⟨rfl, ta, tb, treeAt_append [x] (Nat.le_refl _) hta, treeAt_append [x] (Nat.le_refl _) htb, rfl⟩⟩
  obtain ⟨la, hla⟩ := (reach_isSome_iff _ _ _).mpr ⟨ta, hta⟩
  obtain ⟨lb, hlb⟩ := (reach_isSome_iff _ _ _).mpr ⟨tb, htb⟩
  have hnewr : reach (t.nodes ++ [x]) (t.nodes.length + 1) (BitVec.ofNat 10 t.nodes.length) =
      some (t.nodes.length :: (la ++ lb)) := by
    rw [reach, hget]
    simp only [hx, Node.mkInt]
    rw [← Node.mkInt, ← hx, reach_append [x] (Nat.le_refl _) hla, reach_append [x] (Nat.le_refl _) hlb, hnnat]
  obtain ⟨hw1, hl1⟩ := weightAt_of_treeAt hta
  obtain ⟨hw2, hl2⟩ := weightAt_of_treeAt htb
  constructor
  · intro e he
    rw [hnodes]
    rw [hpq, List.mem_append, List.mem_singleton] at he
    obtain he | rfl := he
    · obtain ⟨tr, h1, h2⟩ := hold e he
      exact ⟨tr, treeAt_append [x] (by simp) h1, h2⟩
    · exact ⟨_, by simpa using hnew, rfl⟩
  · rw [hnodes, hpq, List.flatMap_append]
    have e1 : (rest'.flatMap fun e => reachOf (t.nodes ++ [x]) e.node) = rest'.flatMap fun e => reachOf t.nodes e.node :=
      List.flatMap_congr fun e he => by obtain ⟨tr, h1, -⟩ := hold e he; exact reachOf_append x h1
    have e2 : reachOf (t.nodes ++ [x]) (BitVec.ofNat 10 t.nodes.length) = t.nodes.length :: (la ++ lb) := by
      simp [reachOf, hnewr]
    have e3 : (t.pq.flatMap fun e => reachOf t.nodes e.node).Perm
        (la ++ (lb ++ rest'.flatMap fun e => reachOf t.nodes e.node)) := by
      have := hperm.flatMap_right fun e => reachOf t.nodes e.node
      simpa [reachOf, hla, hlb] using this
    rw [e1, List.flatMap_singleton, e2, List.length_append, List.length_singleton, List.range_succ]
    have e4 := (e3.symm.trans h.covered)
    refine List.Perm.trans ?_ (e4.append_right [t.nodes.length])
    refine List.Perm.trans List.perm_append_comm ?_
    rw [List.cons_append]
    refine List.Perm.trans ?_ (List.perm_append_singleton _ _).symm
    simp
  · intro n hn
    rw [hnodes] at hn ⊢
    rw [List.mem_append, List.mem_singleton] at hn
    rw [List.length_append, List.length_singleton]
    obtain hn | rfl := hn
    · obtain ⟨h1, h2⟩ := h.records n hn
      refine ⟨?_, fun hk => ⟨by have := (h2 hk).1; omega, by have := (h2 hk).2; omega⟩⟩
      unfold nodeOk at h1 ⊢
      cases hk : n.kind with
      | leaf => simpa [hk] using h1
      | int =>
        simp only [hk] at h1 ⊢
        rw [weightAt_append x (h2 hk).1, weightAt_append x (h2 hk).2]
        exact h1
    · refine ⟨?_, fun _ => ⟨by show a.node.toNat < _; omega, by show b.node.toNat < _; omega⟩⟩
      show _ ∧ _ = _
      refine ⟨rfl, ?_⟩
      show a.weight + b.weight = weightAt (t.nodes ++ [x]) a.node + weightAt (t.nodes ++ [x]) b.node
      rw [weightAt_append x hl1, weightAt_append x hl2, hw1, hw2, hwa, hwb]
  · rw [hnodes, hpq]
    have := h.number
    simp; omega
  · exact h.bound
  · rw [hseq, hnodes, h.seqIs, List.length_append, List.length_singleton, BitVec.ofNat_add]
    rfl
  · have htot := h.total
    have hs : (t.pq.map fun e => e.weight.toNat).sum =
        a.weight.toNat + (b.weight.toNat + (rest'.map fun e => e.weight.toNat).sum) := by
      have := (hperm.map fun e => e.weight.toNat).sum_eq
      simpa using this
    have hsm := h.small
    rw [hpq, List.map_append, List.sum_append, ← htot, hs]
    have : (a.weight + b.weight).toNat = a.weight.toNat + b.weight.toNat := by
      rw [BitVec.toNat_add, Nat.mod_eq_of_lt (by omega)]
    simp [this]; omega
  · exact h.small
  · rw [hnodes, hpq, List.flatMap_append]
    have e1 : (rest'.flatMap fun e => leavesOf (t.nodes ++ [x]) e.node) = rest'.flatMap fun e => leavesOf t.nodes e.node :=
      List.flatMap_congr fun e he => by obtain ⟨tr, h1, -⟩ := hold e he; exact leavesOf_append x h1
    have e2 : leavesOf (t.nodes ++ [x]) (BitVec.ofNat 10 t.nodes.length) = ta.leafList ++ tb.leafList := by
      simp [leavesOf, hnew, CodeTree.leafList]
    have e3 : (t.pq.flatMap fun e => leavesOf t.nodes e.node).Perm
        (ta.leafList ++ (tb.leafList ++ rest'.flatMap fun e => leavesOf t.nodes e.node)) := by
      have := hperm.flatMap_right fun e => leavesOf t.nodes e.node
      simpa [leavesOf, hta, htb] using this
    rw [e1, List.flatMap_singleton, e2]
    refine List.Perm.trans ?_ (e3.symm.trans h.leafs)
    refine List.Perm.trans List.perm_append_comm ?_
    simp
  · intro e he
    rw [hpq] at he
    simp only [List.getLast?_append, List.getLast?_singleton, Option.some_or, Option.some.injEq] at he
    rw [hnodes, ← he, hnnat]; simp
  · rw [hnodes, hpq]
    refine h.order.mergeStep ha hb (fun f hf => ?_) ?_ hnnat (by rw [h.seqIs, hnnat]) fun n hn => (h.records n hn).2
    · obtain ⟨tf, htf, hwf⟩ := h.trees f hf
      rw [(weightAt_of_treeAt htf).1, hwf]
    · have hs := (hperm.map fun e => e.weight.toNat).sum_eq
      have h1 := h.total
      have h2 := h.small
      simp only [List.map_cons, List.sum_cons] at hs
      omega

/-- What the merge loop leaves, from a forest of at least two trees (R133, R134). -/
theorem mergeLoop_spec {k : Nat} {L : List (Sym × Weight)} : ∀ (fuel : Nat) (t : State), Forest k L t → t.pq ≠ [] →
    t.pq.length ≤ fuel →
    ∃ (u : State) (e : QEntry), mergeLoop fuel t = { u with pq := [], root := e.node } ∧ Forest k L u ∧ u.pq = [e] ∧
      u = { t with nodes := u.nodes, pq := u.pq, seq := u.seq } ∧ t.nodes <+: u.nodes := by
  intro fuel
  induction fuel with
  | zero =>
    intro t _ hne hf
    exact absurd (List.length_eq_zero_iff.mp (Nat.le_zero.mp hf)) hne
  | succ fuel ih =>
    intro t ht hne hf
    rw [mergeLoop]
    cases ha : extractMin t.pq with
    | none => exact absurd (extractMin_eq_none_iff.mp ha) hne
    | some ar =>
      obtain ⟨a, rest⟩ := ar
      simp only []
      cases hb : extractMin rest with
      | none =>
        have hr := extractMin_eq_none_iff.mp hb
        subst hr
        have hp := extractMin_perm ha
        have hpq : t.pq = [a] := List.perm_singleton.mp hp
        exact ⟨t, a, rfl, ht, hpq, rfl, List.prefix_refl _⟩
      | some br =>
        obtain ⟨b, rest'⟩ := br
        simp only []
        have hlen : t.pq.length = rest'.length + 2 := by
          have h1 := extractMin_length ha
          have h2 := extractMin_length hb
          omega
        have hpq : (mergeStep a b { t with pq := rest' }).pq =
            rest' ++ [⟨a.weight + b.weight, t.seq, BitVec.ofNat 10 t.nodes.length⟩] := rfl
        obtain ⟨u, e, h1, h2, h3, h4, h5⟩ := ih _ (ht.mergeStep ha hb) (by rw [hpq]; simp) (by rw [hpq]; simp; omega)
        refine ⟨u, e, h1, h2, h3, ?_, (List.prefix_append _ _).trans h5⟩
        rw [h4]; rfl

/-! ## The leaves -/

/-- The weight a count gives its leaf (R131). -/
def State.leafWeight (s : State) (sym : Nat) : Weight := (s.freqAt sym).setWidth 41

/-- The leaf record of a symbol (R131). -/
def State.leafNode (s : State) (sym : Nat) : Node := Node.mkLeaf (BitVec.ofNat 9 sym) (s.leafWeight sym)

/-- The symbols of a list that get a leaf (R131). -/
def State.positives (s : State) (syms : List Nat) : List Nat := syms.filter fun i => s.freqAt i != 0

/-- One leaf more keeps the forest (R131). -/
theorem Forest.makeLeaf {k : Nat} {L : List (Sym × Weight)} {t : State} (h : Forest k L t) (sym : Nat)
    (hp : t.freqAt sym ≠ 0#32) (hsym : sym ≤ 256) (hk : k + 1 ≤ 257) (hq : t.pq.length = k)
    (hsm : ((L ++ [(BitVec.ofNat 9 sym, t.leafWeight sym)]).map fun p => p.2.toNat).sum < 2 ^ 41) :
    Forest (k + 1) (L ++ [(BitVec.ofNat 9 sym, t.leafWeight sym)]) (makeLeaf sym t) ∧
      (makeLeaf sym t).pq.length = k + 1 ∧ (makeLeaf sym t).nodes = t.nodes ++ [t.leafNode sym] := by
  have hlt : t.nodes.length < 513 := by have := h.number; omega
  have hnnat : (BitVec.ofNat 10 t.nodes.length).toNat = t.nodes.length := by simp; omega
  have hmk : Machine.makeLeaf sym t =
      (t.allocNode (t.leafNode sym)).insertQueue (t.leafWeight sym) (BitVec.ofNat 10 t.nodes.length) := by
    rw [Machine.makeLeaf, if_neg hp]; rfl
  have hnodes : (Machine.makeLeaf sym t).nodes = t.nodes ++ [t.leafNode sym] := by rw [hmk]; rfl
  have hpq : (Machine.makeLeaf sym t).pq = t.pq ++ [⟨t.leafWeight sym, t.seq, BitVec.ofNat 10 t.nodes.length⟩] := by
    rw [hmk]; rfl
  have hseq : (Machine.makeLeaf sym t).seq = t.seq + 1 := by rw [hmk]; rfl
  set x := t.leafNode sym with hx
  have hget : (t.nodes ++ [x])[(BitVec.ofNat 10 t.nodes.length).toNat]? = some x := by rw [hnnat]; simp
  have hnew : treeAt (t.nodes ++ [x]) (t.nodes.length + 1) (BitVec.ofNat 10 t.nodes.length) =
      some (.leaf (BitVec.ofNat 9 sym) (t.leafWeight sym)) := by
    rw [treeAt_succ]
    exact ⟨x, hget, .inl ⟨rfl, rfl⟩⟩
  have hnewr : reach (t.nodes ++ [x]) (t.nodes.length + 1) (BitVec.ofNat 10 t.nodes.length) = some [t.nodes.length] := by
    rw [reach, hget]
    simp only [hx, State.leafNode, Node.mkLeaf, hnnat]
  refine ⟨?_, by rw [hpq]; simp [hq], hnodes⟩
  constructor
  · intro e he
    rw [hnodes]
    rw [hpq, List.mem_append, List.mem_singleton] at he
    obtain he | rfl := he
    · obtain ⟨tr, h1, h2⟩ := h.trees e he
      exact ⟨tr, treeAt_append [x] (by simp) h1, h2⟩
    · exact ⟨_, by simpa using hnew, rfl⟩
  · rw [hnodes, hpq, List.flatMap_append]
    have e1 : (t.pq.flatMap fun e => reachOf (t.nodes ++ [x]) e.node) = t.pq.flatMap fun e => reachOf t.nodes e.node :=
      List.flatMap_congr fun e he => by obtain ⟨tr, h1, -⟩ := h.trees e he; exact reachOf_append x h1
    have e2 : reachOf (t.nodes ++ [x]) (BitVec.ofNat 10 t.nodes.length) = [t.nodes.length] := by
      simp [reachOf, hnewr]
    rw [e1, List.flatMap_singleton, e2, List.length_append, List.length_singleton, List.range_succ]
    exact h.covered.append_right _
  · intro n hn
    rw [hnodes] at hn ⊢
    rw [List.mem_append, List.mem_singleton] at hn
    rw [List.length_append, List.length_singleton]
    obtain hn | rfl := hn
    · obtain ⟨h1, h2⟩ := h.records n hn
      refine ⟨?_, fun hk => ⟨by have := (h2 hk).1; omega, by have := (h2 hk).2; omega⟩⟩
      unfold nodeOk at h1 ⊢
      cases hk : n.kind with
      | leaf => simpa [hk] using h1
      | int =>
        simp only [hk] at h1 ⊢
        rw [weightAt_append x (h2 hk).1, weightAt_append x (h2 hk).2]
        exact h1
    · refine ⟨⟨?_, rfl, rfl⟩, fun h => ?_⟩
      · show (BitVec.ofNat 9 sym).toNat ≤ 256
        rw [BitVec.toNat_ofNat, Nat.mod_eq_of_lt (by omega)]; exact hsym
      · simp [hx, State.leafNode, Node.mkLeaf] at h
  · rw [hnodes, hpq]
    have := h.number
    simp; omega
  · exact hk
  · rw [hseq, hnodes, h.seqIs, List.length_append, List.length_singleton, BitVec.ofNat_add]
    rfl
  · rw [hpq, List.map_append, List.sum_append, h.total, List.map_append, List.sum_append]
    rfl
  · exact hsm
  · rw [hnodes, hpq, List.flatMap_append]
    have e1 : (t.pq.flatMap fun e => leavesOf (t.nodes ++ [x]) e.node) = t.pq.flatMap fun e => leavesOf t.nodes e.node :=
      List.flatMap_congr fun e he => by obtain ⟨tr, h1, -⟩ := h.trees e he; exact leavesOf_append x h1
    have e2 : leavesOf (t.nodes ++ [x]) (BitVec.ofNat 10 t.nodes.length) =
        [(BitVec.ofNat 9 sym, t.leafWeight sym)] := by
      simp [leavesOf, hnew, CodeTree.leafList]
    rw [e1, List.flatMap_singleton, e2]
    exact h.leafs.append_right _
  · intro e he
    rw [hpq] at he
    simp only [List.getLast?_append, List.getLast?_singleton, Option.some_or, Option.some.injEq] at he
    rw [hnodes, ← he, hnnat]; simp
  · rw [hnodes, hpq]
    have := h.number
    exact h.order.makeLeaf (by omega) rfl hnnat (by rw [h.seqIs, hnnat]) fun n hn => (h.records n hn).2

/-- The leaves with their weights, in ascending order (R131). -/
def State.leafPairs (s : State) (syms : List Nat) : List (Sym × Weight) :=
  (s.positives syms).map fun i => (BitVec.ofNat 9 i, s.leafWeight i)

/-- Making leaves touches the arena, the queue and `SEQ` alone. -/
theorem makeLeaf_frame (sym : Nat) (t : State) : makeLeaf sym t =
    { t with nodes := (makeLeaf sym t).nodes, pq := (makeLeaf sym t).pq, seq := (makeLeaf sym t).seq } := by
  unfold makeLeaf; split <;> rfl

/-- Creating the leaves of a list of symbols (R131). -/
theorem makeLeaves_spec (s : State) : ∀ (syms : List Nat) (k : Nat) (L : List (Sym × Weight)) (t : State), Forest k L t →
    t.pq.length = k → t.freq = s.freq → (∀ i ∈ syms, i ≤ 256) → k + (s.positives syms).length ≤ 257 →
    ((L ++ s.leafPairs syms).map fun p => p.2.toNat).sum < 2 ^ 41 →
    ∃ u, syms.foldl (fun t sym => makeLeaf sym t) t = u ∧
      Forest (k + (s.positives syms).length) (L ++ s.leafPairs syms) u ∧
      u.pq.length = k + (s.positives syms).length ∧
      u.nodes = t.nodes ++ (s.positives syms).map s.leafNode ∧
      u = { t with nodes := u.nodes, pq := u.pq, seq := u.seq } := by
  intro syms
  induction syms with
  | nil =>
    intro k L t ht hq _ _ _ _
    exact ⟨t, rfl, by simpa [State.positives, State.leafPairs] using ht, by simpa [State.positives] using hq,
      by simp [State.positives], rfl⟩
  | cons i syms ih =>
    intro k L t ht hq hf hi hk hsm
    have hfr : ∀ j, t.freqAt j = s.freqAt j := fun j => by simp [State.freqAt, hf]
    by_cases h0 : s.freqAt i = 0#32
    · have hp : s.positives (i :: syms) = s.positives syms := by simp [State.positives, h0]
      have hl : s.leafPairs (i :: syms) = s.leafPairs syms := by simp [State.leafPairs, hp]
      have hm : makeLeaf i t = t := by rw [makeLeaf, hfr, if_pos h0]
      rw [List.foldl_cons, hm, hp, hl]
      exact ih k L t ht hq hf (fun j hj => hi j (by simp [hj])) (by rwa [hp] at hk) (by rwa [hl] at hsm)
    · have hp : s.positives (i :: syms) = i :: s.positives syms := by simp [State.positives, h0]
      have hw : t.leafWeight i = s.leafWeight i := by simp [State.leafWeight, hfr]
      have hnd : t.leafNode i = s.leafNode i := by simp [State.leafNode, hw]
      have hl : s.leafPairs (i :: syms) = (BitVec.ofNat 9 i, s.leafWeight i) :: s.leafPairs syms := by
        simp [State.leafPairs, hp]
      rw [hp, List.length_cons] at hk
      have hsm1 : ((L ++ [(BitVec.ofNat 9 i, t.leafWeight i)]).map fun p => p.2.toNat).sum < 2 ^ 41 := by
        rw [hl] at hsm
        rw [hw]
        simp only [List.map_append, List.sum_append, List.map_cons, List.sum_cons, List.map_nil, List.sum_nil] at hsm ⊢
        omega
      obtain ⟨h1, h2, h3⟩ := ht.makeLeaf i (by rw [hfr]; exact h0) (hi i (by simp)) (by omega) hq hsm1
      obtain ⟨u, e1, e2, e3, e4, e5⟩ := ih (k + 1) _ _ h1 h2 (by rw [makeLeaf_frame]; exact hf)
        (fun j hj => hi j (by simp [hj])) (by omega) (by rw [hw, List.append_assoc]; rwa [hl] at hsm)
      refine ⟨u, e1, ?_, by rw [e3, hp, List.length_cons]; omega, ?_, ?_⟩
      · rw [hp, hl, List.length_cons]
        rw [hw, List.append_assoc] at e2
        rw [show k + ((s.positives syms).length + 1) = k + 1 + (s.positives syms).length by omega]
        exact e2
      · rw [e4, h3, hp, hnd]; simp
      · rw [e5, makeLeaf_frame]

theorem leafPairs_sum_le (s : State) (syms : List Nat) :
    ((s.leafPairs syms).map fun p => p.2.toNat).sum ≤ (s.positives syms).length * (2 ^ 32 - 1) := by
  rw [State.leafPairs, List.map_map]
  generalize s.positives syms = l
  induction l with
  | nil => simp
  | cons a l ih =>
    have h1 : (s.leafWeight a).toNat ≤ 2 ^ 32 - 1 := by
      have := (s.freqAt a).isLt
      simp only [State.leafWeight, BitVec.toNat_setWidth]
      rw [Nat.mod_eq_of_lt (by omega)]; omega
    simp only [List.map_cons, List.sum_cons, List.length_cons, Function.comp_apply]
    simp only [Function.comp_def] at ih
    simp only [Function.comp_def]
    omega

/-- The leaves `BLD` creates (R131). -/
theorem createLeaves_spec (s : State) :
    ∃ u, createLeaves { s.discardTree with seq := 0, pq := [] } = u ∧
      Forest (positiveSyms s).length (s.leafPairs (List.range 257)) u ∧ u.pq.length = (positiveSyms s).length ∧
      u.nodes = (positiveSyms s).map s.leafNode ∧
      u = { s.discardTree with nodes := u.nodes, pq := u.pq, seq := u.seq } := by
  have hle : (positiveSyms s).length ≤ 257 := by
    have := List.length_filter_le (fun i => s.freqAt i != 0) (List.range 257)
    rw [List.length_range] at this
    exact this
  have hpos : s.positives (List.range 257) = positiveSyms s := rfl
  have h0 : Forest 0 [] { s.discardTree with seq := 0, pq := [] } := by
    refine ⟨by simp, by simp [State.discardTree, State.dropArena], by simp [State.discardTree, State.dropArena],
      by simp [State.discardTree, State.dropArena], by omega, ?_, by simp, by simp, by simp, by simp, ?_⟩
    · simp [State.discardTree, State.dropArena]
    · exact ⟨by simp, fun i => by simp [waiting, State.discardTree, State.dropArena], by simp,
        fun j _ h => absurd h (Nat.not_lt_zero j)⟩
  obtain ⟨u, e1, e2, e3, e4, e5⟩ := makeLeaves_spec s (List.range 257) 0 [] _ h0 rfl rfl
    (fun i hi => by have := List.mem_range.mp hi; omega) (by rw [hpos]; omega) (by
      have := leafPairs_sum_le s (List.range 257)
      rw [hpos] at this
      rw [List.nil_append]
      calc _ ≤ _ := this
        _ ≤ 257 * (2 ^ 32 - 1) := Nat.mul_le_mul_right _ hle
        _ < _ := by norm_num)
  rw [hpos, Nat.zero_add] at e2 e3
  exact ⟨u, e1, e2, e3, by rw [e4, hpos]; simp [State.discardTree, State.dropArena], by rw [e5]⟩

/-! ## What `BLD` leaves -/

/-- Leaf creation visits in effect the symbols with a positive count only (R131). -/
theorem createLeaves_eq (s : State) : createLeaves s = (positiveSyms s).foldl (fun t sym => makeLeaf sym t) s := by
  have key : ∀ (syms : List Nat) (t : State), t.freq = s.freq →
      syms.foldl (fun t sym => makeLeaf sym t) t =
        (syms.filter fun i => s.freqAt i != 0).foldl (fun t sym => makeLeaf sym t) t := by
    intro syms
    induction syms with
    | nil => exact fun _ _ => rfl
    | cons i syms ih =>
      intro t ht
      have he : t.freqAt i = s.freqAt i := by rw [State.freqAt, State.freqAt, ht]
      by_cases h : s.freqAt i = 0#32
      · have hm : makeLeaf i t = t := by rw [makeLeaf, if_pos (he.trans h)]
        rw [List.foldl_cons, hm, List.filter_cons_of_neg (by simp [h])]
        exact ih t ht
      · rw [List.foldl_cons, List.filter_cons_of_pos (by simpa using h), List.foldl_cons]
        exact ih _ (by rw [makeLeaf_frame]; exact ht)
  exact key _ s rfl

theorem mem_positiveSyms {s : State} {i : Nat} : i ∈ positiveSyms s ↔ i ≤ 256 ∧ s.freqAt i ≠ 0#32 := by
  simp [positiveSyms]; omega

/-- The sentinel is always among the symbols with a positive count (R23). -/
theorem sent_mem_positiveSyms (s : State) : 256 ∈ positiveSyms s := by
  rw [mem_positiveSyms, State.freqAt_sent]
  exact ⟨by omega, by simp⟩

theorem positiveSyms_pos (s : State) : 0 < (positiveSyms s).length := List.length_pos_of_mem (sent_mem_positiveSyms s)

/-- With one positive count it is the sentinel's (R135). -/
theorem positiveSyms_eq_sent {s : State} (h : (positiveSyms s).length = 1) : positiveSyms s = [256] := by
  obtain ⟨a, ha⟩ := List.length_eq_one_iff.mp h
  have := sent_mem_positiveSyms s
  rw [ha, List.mem_singleton] at this
  rw [ha, this]

/-- The arena of the single-symbol case (R135). -/
def twinArena : List Node := [⟨.leaf, 256, 0x3FF, 0x3FF, 1⟩, ⟨.leaf, 256, 0x3FF, 0x3FF, 0⟩, ⟨.int, 0, 0, 1, 1⟩]

/-- The single-symbol case of `BLD` (R135). -/
theorem buildTree_single {s : State} (h : (positiveSyms s).length = 1) :
    buildTree s = { s.discardTree with nodes := twinArena, root := 2, seq := 1, pq := [] } := by
  obtain ⟨u, e1, e2, e3, e4, e5⟩ := createLeaves_spec s
  rw [h] at e3
  obtain ⟨e, he⟩ := List.length_eq_one_iff.mp e3
  rw [positiveSyms_eq_sent h] at e4
  have hw : s.leafNode 256 = ⟨.leaf, 256, 0x3FF, 0x3FF, 1⟩ := by
    rw [State.leafNode, State.leafWeight, State.freqAt_sent]; rfl
  rw [List.map_singleton, hw] at e4
  have hseq : u.seq = 1 := by rw [e2.seqIs, e4]; rfl
  have hnode : e.node = 0 := by
    have := e2.lastNode e (by rw [he]; rfl)
    rw [e4] at this
    apply BitVec.eq_of_toNat_eq
    simpa using this
  have hwt : e.weight = 1 := by
    obtain ⟨tr, h1, h2⟩ := e2.trees e (by rw [he]; simp)
    obtain ⟨h3, -⟩ := weightAt_of_treeAt h1
    rw [← h2, ← h3, hnode, e4]; rfl
  rw [buildTree, e1, growTree, he]
  simp only [singleSymbol, State.nodeAt, hnode, hwt, e4, State.allocNode, State.nn]
  rw [e5]
  simp [hseq, twinArena, Node.mkLeaf, Node.mkInt]

/-- The general case of `BLD` (R131 to R134). -/
theorem buildTree_many {s : State} (h : 2 ≤ (positiveSyms s).length) :
    ∃ (u : State) (e : QEntry), buildTree s = { u with pq := [], root := e.node } ∧
      Forest (positiveSyms s).length (s.leafPairs (List.range 257)) u ∧ u.pq = [e] ∧
      u = { s.discardTree with nodes := u.nodes, pq := u.pq, seq := u.seq } ∧
      (positiveSyms s).map s.leafNode <+: u.nodes := by
  obtain ⟨v, e1, e2, e3, e4, e5⟩ := createLeaves_spec s
  obtain ⟨u, e, h1, h2, h3, h4, h5⟩ := mergeLoop_spec v.pq.length v e2
    (by intro hc; rw [hc] at e3; simp at e3; omega) (Nat.le_refl _)
  refine ⟨u, e, ?_, h2, h3, by rw [h4, e5], e4 ▸ h5⟩
  rw [buildTree, e1, growTree]
  split
  · rename_i e' he'
    rw [he'] at e3
    simp at e3; omega
  · exact h1

/-- The forest of one tree that `BLD` ends with (R134, R25). -/
theorem Forest.single {k : Nat} {L : List (Sym × Weight)} {u : State} {e : QEntry} (h : Forest k L u) (hpq : u.pq = [e])
    (hk : 2 ≤ k) :
    u.nodes.length = 2 * k - 1 ∧ e.node.toNat = 2 * k - 2 ∧
    (∃ tr, treeAt u.nodes u.nodes.length e.node = some tr ∧ tr.leafList.Perm L ∧
      tr.weight.toNat = (L.map fun p => p.2.toNat).sum) ∧
    (∃ l, reach u.nodes u.nodes.length e.node = some l ∧ l.Perm (List.range u.nodes.length)) ∧
    ∃ n, u.nodeAt e.node = some n ∧ n.kind = .int := by
  have hn := h.number
  rw [hpq, List.length_singleton] at hn
  have hl := h.lastNode e (by rw [hpq]; rfl)
  obtain ⟨tr, ht, hw⟩ := h.trees e (by rw [hpq]; simp)
  obtain ⟨l, hr⟩ := (reach_isSome_iff _ _ _).mpr ⟨tr, ht⟩
  have hcov := h.covered
  rw [hpq, List.flatMap_singleton, reachOf, hr] at hcov
  have hcov : l.Perm (List.range u.nodes.length) := hcov
  have hlf := h.leafs
  rw [hpq, List.flatMap_singleton, leavesOf, ht] at hlf
  have htot := h.total
  rw [hpq, List.map_singleton, List.sum_singleton, ← hw] at htot
  refine ⟨by omega, by omega, ⟨tr, ht, hlf, htot⟩, ⟨l, hr, hcov⟩, ?_⟩
  obtain ⟨d, hd⟩ : ∃ d, u.nodes.length = d + 1 := ⟨u.nodes.length - 1, by omega⟩
  rw [hd, treeAt_succ] at ht
  obtain ⟨n, hn', ⟨hk', rfl⟩ | ⟨hk', -⟩⟩ := ht
  · exfalso
    have hll := hcov.length_eq
    rw [List.length_range] at hll
    rw [hd, reach] at hr
    simp only [hn', hk', Option.some.injEq] at hr
    rw [← hr] at hll
    simp at hll; omega
  · exact ⟨n, hn', hk'⟩

theorem twin_perm : [2, 0, 1].Perm (List.range 3) := by decide

/-- The tree invariant after `BLD` (R25, R138). -/
theorem buildTree_arena (s : State) : ArenaOk (buildTree s) ∧ (buildTree s).root ≠ Config.nil := by
  have hp := positiveSyms_pos s
  by_cases h1 : (positiveSyms s).length = 1
  · rw [buildTree_single h1]
    refine ⟨⟨fun h => by simp at h, by simp [twinArena], fun _ => ⟨[2, 0, 1], rfl, twin_perm⟩,
      fun _ => ⟨_, rfl, rfl⟩, ?_⟩, by simp⟩
    intro n hn
    simp only [twinArena, List.mem_cons, List.not_mem_nil, or_false] at hn
    obtain rfl | rfl | rfl := hn
    · exact ⟨by decide, rfl, rfl⟩
    · exact ⟨by decide, rfl, rfl⟩
    · exact ⟨rfl, rfl⟩
  · obtain ⟨u, e, h2, h3, h4, h5, h6⟩ := buildTree_many (s := s) (by omega)
    obtain ⟨f1, f2, -, f3, f4⟩ := h3.single h4 (by omega)
    have hb := h3.bound
    have hne : e.node ≠ 0x3FF#10 := by
      intro h
      rw [h] at f2
      simp at f2; omega
    rw [h2]
    exact ⟨⟨fun h => absurd h hne, by simp only [Config.nnode]; omega, fun _ => f3, fun _ => f4,
      fun n hn => (h3.records n hn).1⟩, hne⟩

/-- What `BLD` writes: the arena, `ROOT` and `SEQ`; it discards what belongs to the old tree and leaves the queue empty
(R136). -/
theorem buildTree_frame (s : State) : buildTree s =
    { s.discardTree with
      nodes := (buildTree s).nodes, root := (buildTree s).root, seq := (buildTree s).seq, pq := [] } := by
  have hp := positiveSyms_pos s
  by_cases h1 : (positiveSyms s).length = 1
  · rw [buildTree_single h1]
  · obtain ⟨u, e, h2, h3, h4, h5, h6⟩ := buildTree_many (s := s) (by omega)
    rw [h2, h5]

/-! ## Determinism -/

/-- The two states agree on what the builder reads and writes. -/
def SameBuilder (s t : State) : Prop :=
  t.freq = s.freq ∧ t.nodes = s.nodes ∧ t.pq = s.pq ∧ t.seq = s.seq ∧ t.root = s.root

theorem makeLeaf_sameBuilder {s t : State} (sym : Nat) (h : SameBuilder s t) :
    SameBuilder (makeLeaf sym s) (makeLeaf sym t) := by
  obtain ⟨h1, h2, h3, h4, h5⟩ := h
  have hf : t.freqAt sym = s.freqAt sym := by simp [State.freqAt, h1]
  unfold makeLeaf
  rw [hf]
  split
  · exact ⟨h1, h2, h3, h4, h5⟩
  · simp [SameBuilder, State.allocNode, State.insertQueue, State.nn, h1, h2, h3, h4, h5]

theorem createLeaves_sameBuilder {s t : State} (h : SameBuilder s t) :
    SameBuilder (createLeaves s) (createLeaves t) := by
  unfold createLeaves
  generalize List.range Config.nsym = l
  induction l generalizing s t with
  | nil => exact h
  | cons i l ih => exact ih (makeLeaf_sameBuilder i h)

theorem mergeLoop_sameBuilder : ∀ (fuel : Nat) {s t : State}, SameBuilder s t →
    SameBuilder (mergeLoop fuel s) (mergeLoop fuel t) := by
  intro fuel
  induction fuel with
  | zero => intro s t h; exact h
  | succ fuel ih =>
    intro s t h
    have hpq : t.pq = s.pq := h.2.2.1
    rw [mergeLoop, mergeLoop, hpq]
    cases extractMin s.pq with
    | none => exact h
    | some ar =>
      obtain ⟨a, rest⟩ := ar
      simp only []
      obtain ⟨h1, h2, h3, h4, h5⟩ := h
      cases extractMin rest with
      | none => exact ⟨h1, h2, rfl, h4, rfl⟩
      | some br =>
        refine ih ?_
        simp [SameBuilder, mergeStep, State.allocNode, State.insertQueue, State.nn, h1, h2, h4, h5]

theorem growTree_sameBuilder {s t : State} (h : SameBuilder s t) : SameBuilder (growTree s) (growTree t) := by
  have hpq := h.2.2.1
  rw [growTree, growTree, hpq]
  split
  · obtain ⟨h1, h2, h3, h4, h5⟩ := h
    simp [SameBuilder, singleSymbol, State.allocNode, State.nodeAt, State.nn, h1, h2, h4]
  · exact mergeLoop_sameBuilder _ h

/-- `BLD` from states with the same counts leaves the same arena (R132). -/
theorem buildTree_sameBuilder {s t : State} (h : t.freq = s.freq) : SameBuilder (buildTree s) (buildTree t) :=
  growTree_sameBuilder (createLeaves_sameBuilder ⟨h, rfl, rfl, rfl, rfl⟩)

end Sys2Proof.Machine
end

