-- ==== Sys2Proof/Laws/CodeTable.lean ====
section
/-! SUPPORT. The code table (`42_code_table.md` R150 to R153): what `GEN` records for a tree. -/

namespace Sys2Proof.Machine

/-- The code a list of (symbol, path) pairs gives a symbol: the last pair's that carries it (R151). -/
def lastPath (pairs : List (Sym × List Bool)) (i : Nat) : CodeEntry :=
  match pairs.reverse.find? fun p => p.1.toNat == i with
  | some p => CodeEntry.ofPath p.2
  | none => CodeEntry.invalid

theorem lastPath_append (pairs : List (Sym × List Bool)) (p : Sym × List Bool) (i : Nat) :
    lastPath (pairs ++ [p]) i = if p.1.toNat = i then CodeEntry.ofPath p.2 else lastPath pairs i := by
  unfold lastPath
  simp only [List.reverse_append, List.reverse_cons, List.reverse_nil, List.nil_append, List.singleton_append,
    List.find?_cons]
  by_cases h : p.1.toNat = i
  · simp [h]
  · have h2 : (p.1.toNat == i) = false := by simpa using h
    simp [h2, h]

/-- A valid entry is the path of one of the pairs. -/
theorem lastPath_valid {pairs : List (Sym × List Bool)} {i : Nat} (h : (lastPath pairs i).valid = true) :
    ∃ p ∈ pairs, p.1.toNat = i ∧ lastPath pairs i = CodeEntry.ofPath p.2 := by
  unfold lastPath at h ⊢
  cases hf : pairs.reverse.find? fun p => p.1.toNat == i with
  | none => simp [hf, CodeEntry.invalid] at h
  | some p =>
    have h1 := List.mem_of_find?_eq_some hf
    have h2 := List.find?_some hf
    exact ⟨p, by simpa using h1, by simpa using h2, rfl⟩

/-- Every symbol of a pair has a valid entry. -/
theorem lastPath_of_mem {pairs : List (Sym × List Bool)} {p : Sym × List Bool} (h : p ∈ pairs) :
    (lastPath pairs p.1.toNat).valid = true := by
  unfold lastPath
  cases hf : pairs.reverse.find? fun q => q.1.toNat == p.1.toNat with
  | none =>
    rw [List.find?_eq_none] at hf
    exact absurd (beq_self_eq_true _) (hf p (by simpa using h))
  | some q => rfl

/-- The table as a fold over any list of pairs, entry by entry. -/
theorem foldl_codes_get (pairs : List (Sym × List Bool)) (i : Nat) (hi : i ≤ 256) :
    (pairs.foldl (fun c p => c.setIfInBounds p.1.toNat (CodeEntry.ofPath p.2))
      (Vector.replicate 257 CodeEntry.invalid))[i]?.getD CodeEntry.invalid = lastPath pairs i := by
  induction pairs using List.reverseRecOn with
  | nil =>
    rw [List.foldl_nil, Vector.getElem?_replicate, if_pos (by omega)]
    rfl
  | append_singleton l p ih =>
    rw [List.foldl_append, List.foldl_cons, List.foldl_nil, lastPath_append, ← ih, Vector.getElem?_setIfInBounds]
    by_cases h : p.1.toNat = i
    · subst h
      simp [show p.1.toNat < 257 by omega]
    · simp [h]

/-- The entry of a symbol in the table of a tree (R151). -/
theorem tableOf_get (t : CodeTree) (i : Nat) (hi : i ≤ 256) :
    (tableOf t)[i]?.getD CodeEntry.invalid = lastPath (t.codes []) i := foldl_codes_get _ i hi

theorem recordCodes_eq (pairs : List (Sym × List Bool)) (s : State) : recordCodes pairs s =
    { s with code := pairs.foldl (fun c p => c.setIfInBounds p.1.toNat (CodeEntry.ofPath p.2)) s.code } := by
  induction pairs generalizing s with
  | nil => rfl
  | cons p pairs ih =>
    rw [recordCodes, List.foldl_cons]
    exact ih (s.setCode p.1.toNat p.2)

/-- What the body of `GEN` writes (R151). -/
theorem generateCodes_eq (t : CodeTree) (s : State) :
    generateCodes t s = { s with code := tableOf t, codeOk := true } := by
  rw [generateCodes, recordCodes_eq]; rfl

theorem codeAt_generateCodes (t : CodeTree) (s : State) (i : Nat) (hi : i ≤ 256) :
    (generateCodes t s).codeAt i = lastPath (t.codes []) i := by
  rw [generateCodes_eq]; exact tableOf_get t i hi

end Sys2Proof.Machine
end

