-- ==== Sys2Proof/Laws/Header.lean ====
section
/-! SUPPORT. Writing and reading a header (`43_header.md` R162 to R170): `HDW` appends `hdr(t)`, `ReadNode` on `hdr(t)` lays
`t` out in pre-order, and every other way `ReadNode` can end. -/

namespace Sys2Proof.Machine

/-! ## Write -/

/-- The bits `Emit` appends (R163). -/
theorem emitTree_eq (t : CodeTree) : ∀ s : State,
    emitTree t s = { s with outItems := s.outItems ++ t.hdr.map .bit, ops := (emitTree t s).ops } := by
  induction t with
  | leaf sym w =>
    intro s
    simp [emitTree, State.outWrite, CodeTree.hdr]
    rfl
  | node l r w ihl ihr =>
    intro s
    rw [emitTree, ihr, ihl]
    simp [State.outWrite, CodeTree.hdr]
    rfl

theorem emitTree_streamed (t : CodeTree) : ∀ s : State, Streamed (allowedOp .hdw) s (emitTree t s) := by
  induction t with
  | leaf sym w =>
    intro s
    exact (Streamed.outWrite s 1#1 (by simp [allowedOp])).trans (.outWrite _ sym (by simp [allowedOp]))
  | node l r w ihl ihr =>
    intro s
    exact ((Streamed.outWrite s 0#1 (by simp [allowedOp])).trans (ihl _)).trans (ihr _)

/-! ## Where a tree is laid out in pre-order -/

/-- The number of nodes. -/
def CodeTree.size : CodeTree → Nat
  | .leaf _ _ => 1
  | .node l r _ => 1 + l.size + r.size

/-- The records of a tree whose root is entry `base`, in pre-order and with weights 0 (R164, R166). -/
def CodeTree.layout : CodeTree → Nat → List Node
  | .leaf sym _, _ => [Node.mkLeaf sym 0]
  | .node l r _, base =>
    Node.mkInt (BitVec.ofNat 10 (base + 1)) (BitVec.ofNat 10 (base + 1 + l.size)) 0 ::
      (l.layout (base + 1) ++ r.layout (base + 1 + l.size))

theorem CodeTree.size_pos (t : CodeTree) : 0 < t.size := by cases t <;> simp only [CodeTree.size] <;> omega

theorem CodeTree.size_eq (t : CodeTree) : t.size + 1 = 2 * t.leaves := by
  induction t with
  | leaf => rfl
  | node l r w ihl ihr => simp only [CodeTree.size, CodeTree.leaves]; omega

@[simp] theorem CodeTree.layout_length (t : CodeTree) (base : Nat) : (t.layout base).length = t.size := by
  induction t generalizing base with
  | leaf => rfl
  | node l r w ihl ihr => simp [CodeTree.layout, CodeTree.size, ihl, ihr]; omega

/-- The record laid out first. -/
theorem getElem?_layout (pre post : List Node) (t : CodeTree) {base : Nat} (hb : pre.length = base) (h : base < 1024) :
    (pre ++ t.layout base ++ post)[(BitVec.ofNat 10 base).toNat]? = (t.layout base)[0]? := by
  have hto : (BitVec.ofNat 10 base).toNat = base := by simp [Nat.mod_eq_of_lt h]
  rw [hto, List.append_assoc, List.getElem?_append_right (by omega), hb, Nat.sub_self,
    List.getElem?_append_left (by simpa using t.size_pos)]

/-- The walk of the arena finds the tree where it was laid out, with its weights 0 (R170). -/
theorem treeAt_layout : ∀ (t : CodeTree) (base : Nat) (pre post : List Node) (d : Nat), pre.length = base →
    base + t.size ≤ 1024 → t.depth < d →
    treeAt (pre ++ t.layout base ++ post) d (BitVec.ofNat 10 base) = some t.unweighted := by
  intro t
  induction t with
  | leaf sym w =>
    intro base pre post d hb hs hd
    obtain ⟨d, rfl⟩ : ∃ k, d = k + 1 := ⟨d - 1, by omega⟩
    rw [treeAt_succ]
    simp only [CodeTree.size] at hs
    exact ⟨Node.mkLeaf sym 0, getElem?_layout pre _ _ hb (by omega), .inl ⟨rfl, rfl⟩⟩
  | node l r w ihl ihr =>
    intro base pre post d hb hs hd
    obtain ⟨d, rfl⟩ : ∃ k, d = k + 1 := ⟨d - 1, by omega⟩
    rw [treeAt_succ]
    simp only [CodeTree.size, CodeTree.depth] at hs hd
    refine ⟨Node.mkInt (BitVec.ofNat 10 (base + 1)) (BitVec.ofNat 10 (base + 1 + l.size)) 0,
      getElem?_layout pre _ _ hb (by omega), .inr ⟨rfl, l.unweighted, r.unweighted, ?_, ?_, rfl⟩⟩
    · have := ihl (base + 1) (pre ++ [Node.mkInt (BitVec.ofNat 10 (base + 1)) (BitVec.ofNat 10 (base + 1 + l.size)) 0])
        (r.layout (base + 1 + l.size) ++ post) d (by simp [hb]) (by omega) (by omega)
      simpa [CodeTree.layout, Node.mkInt] using this
    · have := ihr (base + 1 + l.size)
        (pre ++ Node.mkInt (BitVec.ofNat 10 (base + 1)) (BitVec.ofNat 10 (base + 1 + l.size)) 0 :: l.layout (base + 1))
        post d (by simp [hb]; omega) (by omega) (by omega)
      simpa [CodeTree.layout, Node.mkInt] using this

/-- The walk of a tree laid out in pre-order meets its entries in order, each once (R25 item 1). -/
theorem reach_layout : ∀ (t : CodeTree) (base : Nat) (pre post : List Node) (d : Nat), pre.length = base →
    base + t.size ≤ 1024 → t.depth < d →
    reach (pre ++ t.layout base ++ post) d (BitVec.ofNat 10 base) = some (List.range' base t.size) := by
  intro t
  induction t with
  | leaf sym w =>
    intro base pre post d hb hs hd
    obtain ⟨d, rfl⟩ : ∃ k, d = k + 1 := ⟨d - 1, by omega⟩
    simp only [CodeTree.size] at hs
    have hto : (BitVec.ofNat 10 base).toNat = base := by simp [Nat.mod_eq_of_lt (show base < 1024 by omega)]
    rw [reach, getElem?_layout pre post _ hb (by omega), hto]
    rfl
  | node l r w ihl ihr =>
    intro base pre post d hb hs hd
    obtain ⟨d, rfl⟩ : ∃ k, d = k + 1 := ⟨d - 1, by omega⟩
    simp only [CodeTree.size, CodeTree.depth] at hs hd
    have h1 := ihl (base + 1) (pre ++ [Node.mkInt (BitVec.ofNat 10 (base + 1)) (BitVec.ofNat 10 (base + 1 + l.size)) 0])
      (r.layout (base + 1 + l.size) ++ post) d (by simp [hb]) (by omega) (by omega)
    have h2 := ihr (base + 1 + l.size)
      (pre ++ Node.mkInt (BitVec.ofNat 10 (base + 1)) (BitVec.ofNat 10 (base + 1 + l.size)) 0 :: l.layout (base + 1))
      post d (by simp [hb]; omega) (by omega) (by omega)
    have hn : (pre ++ (CodeTree.node l r w).layout base ++ post)[(BitVec.ofNat 10 base).toNat]? =
        some (Node.mkInt (BitVec.ofNat 10 (base + 1)) (BitVec.ofNat 10 (base + 1 + l.size)) 0) := by
      exact getElem?_layout pre post _ hb (by omega)
    rw [reach, hn]
    have e1 : pre ++ [Node.mkInt (BitVec.ofNat 10 (base + 1)) (BitVec.ofNat 10 (base + 1 + l.size)) 0] ++
        l.layout (base + 1) ++ (r.layout (base + 1 + l.size) ++ post) = pre ++ (CodeTree.node l r w).layout base ++ post := by
      simp [CodeTree.layout]
    have e2 : pre ++ Node.mkInt (BitVec.ofNat 10 (base + 1)) (BitVec.ofNat 10 (base + 1 + l.size)) 0 :: l.layout (base + 1) ++
        r.layout (base + 1 + l.size) ++ post = pre ++ (CodeTree.node l r w).layout base ++ post := by
      simp [CodeTree.layout]
    rw [e1] at h1
    rw [e2] at h2
    simp only [Node.mkInt] at h1 h2 ⊢
    rw [h1, h2]
    have hto : (BitVec.ofNat 10 base).toNat = base := by simp [Nat.mod_eq_of_lt (show base < 1024 by omega)]
    simp only [hto, Option.some.injEq, CodeTree.size]
    rw [show 1 + l.size + r.size = (l.size + r.size) + 1 by omega, List.range'_succ, List.range'_append_1]

/-- Every record of a tree laid out in pre-order has weight 0. -/
theorem CodeTree.layout_weight (t : CodeTree) : ∀ (base : Nat), ∀ n ∈ t.layout base, n.weight = 0 := by
  induction t with
  | leaf sym w => intro base n hn; simp [CodeTree.layout] at hn; subst hn; rfl
  | node l r w ihl ihr =>
    intro base n hn
    simp only [CodeTree.layout, List.mem_cons, List.mem_append] at hn
    obtain rfl | hn | hn := hn
    · rfl
    · exact ihl _ n hn
    · exact ihr _ n hn

/-- In an arena of weights 0 every record of a tree laid out in pre-order is sound (R24). -/
theorem CodeTree.layout_nodeOk (t : CodeTree) {nodes : List Node} (h0 : ∀ n ∈ nodes, n.weight = 0)
    (hs : ∀ sym ∈ t.syms, sym.toNat ≤ 256) : ∀ (base : Nat), ∀ n ∈ t.layout base, nodeOk nodes n := by
  have hw : ∀ i : Idx, weightAt nodes i = 0 := by
    intro i
    unfold weightAt
    cases h : nodes[i.toNat]? with
    | none => rfl
    | some n => exact h0 n (List.mem_of_getElem? h)
  induction t with
  | leaf sym w =>
    intro base n hn
    simp [CodeTree.layout] at hn
    subst hn
    exact ⟨hs sym (by simp [CodeTree.syms]), rfl, rfl⟩
  | node l r w ihl ihr =>
    intro base n hn
    simp only [CodeTree.layout, List.mem_cons, List.mem_append] at hn
    obtain rfl | hn | hn := hn
    · exact ⟨rfl, by simp [hw, Node.mkInt]⟩
    · exact ihl (fun sym h => hs sym (by simp [CodeTree.syms, h])) _ n hn
    · exact ihr (fun sym h => hs sym (by simp [CodeTree.syms, h])) _ n hn

/-! ## Read -/

/-- The reads `ReadNode` makes for a tree (R168). -/
def CodeTree.reads : CodeTree → List StreamOp
  | .leaf _ _ => [.read 1, .read 9]
  | .node l r _ => .read 1 :: (l.reads ++ r.reads)

theorem List.modify_append_cons {α : Type} (a b : List α) (x : α) (f : α → α) :
    (a ++ x :: b).modify a.length f = a ++ f x :: b := by
  induction a with
  | nil => rfl
  | cons y a ih => simpa using ih

theorem List.set_append_cons {α : Type} (a b : List α) (x y : α) : (a ++ x :: b).set a.length y = a ++ y :: b := by
  simp

theorem State.nn_toNat (s : State) (h : s.nodes.length < 1024) : s.nn.toNat = s.nodes.length := by
  simp [State.nn, Nat.mod_eq_of_lt h]

/-- A tag bit ahead. -/
theorem State.inRead1_bit {s : State} {b : Bool} {bs : List Bool} (h : s.ahead = b :: bs) :
    s.inRead 1 = (some (BitVec.ofBool b), { s with inPos := s.inPos + 1, ops := s.ops ++ [.read 1] }) :=
  State.inRead_msbBits s (BitVec.ofBool b) bs (by omega) (by rw [h]; cases b <;> rfl)

/-- `ReadNode` on the header of a tree (R164, R168, R170). -/
theorem readNode_ok : ∀ (t : CodeTree) (depth : Nat) (s : State) (rest : List Bool), s.ahead = t.hdr ++ rest →
    t.depth < depth → s.nodes.length + t.size ≤ 513 → (∀ sym ∈ t.syms, sym.toNat ≤ 256) →
    readNode depth s = .ok (BitVec.ofNat 10 s.nodes.length) { s with
      nodes := s.nodes ++ t.layout s.nodes.length, inPos := s.inPos + t.hdr.length, ops := s.ops ++ t.reads } := by
  intro t
  induction t with
  | leaf sym w =>
    intro depth s rest ha hd hn hs
    obtain ⟨depth, rfl⟩ : ∃ k, depth = k + 1 := ⟨depth - 1, by omega⟩
    simp only [CodeTree.hdr, List.cons_append, CodeTree.size] at ha hn
    rw [readNode, State.inRead1_bit ha]
    set s1 : State := { s with inPos := s.inPos + 1, ops := s.ops ++ [.read 1] } with hs1
    have hl1 : s1.nodes.length ≠ 513 := by show s.nodes.length ≠ 513; omega
    simp only [hl1, if_false, Config.nnode]
    have hb : ¬ BitVec.ofBool true = 0#1 := by decide
    simp only [hb, if_false]
    set s2 := s1.allocNode (Node.mkInt Config.nil Config.nil 0) with hs2
    have ha2 : s2.ahead = msbBits sym ++ rest := by
      have := State.ahead_of_inPos (s := s) (t := s2) (n := 1) rfl rfl
      rw [this, ha]; rfl
    have hsym : ¬ sym.toNat > 256 := by have := hs sym (by simp [CodeTree.syms]); omega
    rw [readLeaf, State.inRead_msbBits s2 sym rest (by omega) ha2]
    simp only [hsym, if_false]
    have hnn : s1.nn = BitVec.ofNat 10 s.nodes.length := rfl
    rw [hnn]
    congr 1
    have hto : (BitVec.ofNat 10 s.nodes.length).toNat = s.nodes.length := by
      simp; omega
    simp only [State.setNode, hto, hs2, hs1, State.allocNode, CodeTree.layout, CodeTree.hdr, CodeTree.reads, List.length_cons,
      msbBits_length, List.set_append_cons, State.mk.injEq, true_and, and_true, List.append_assoc]
    rfl
  | node l r w ihl ihr =>
    intro depth s rest ha hd hn hs
    obtain ⟨depth, rfl⟩ : ∃ k, depth = k + 1 := ⟨depth - 1, by omega⟩
    simp only [CodeTree.hdr, List.cons_append, CodeTree.size, CodeTree.depth] at ha hn hd
    rw [readNode, State.inRead1_bit ha]
    set s1 : State := { s with inPos := s.inPos + 1, ops := s.ops ++ [.read 1] } with hs1
    have hl1 : s1.nodes.length ≠ 513 := by show s.nodes.length ≠ 513; omega
    simp only [hl1, if_false, Config.nnode]
    have hb : BitVec.ofBool false = 0#1 := by decide
    simp only [hb, if_true]
    set s2 := s1.allocNode (Node.mkInt Config.nil Config.nil 0) with hs2
    have hn2 : s2.nodes = s.nodes ++ [Node.mkInt Config.nil Config.nil 0] := rfl
    have hlen2 : s2.nodes.length = s.nodes.length + 1 := by simp [hn2]
    have ha2 : s2.ahead = l.hdr ++ (r.hdr ++ rest) := by
      have := State.ahead_of_inPos (s := s) (t := s2) (n := 1) rfl rfl
      rw [this, ha]; simp
    have hl := ihl depth s2 (r.hdr ++ rest) ha2 (by omega) (by omega) (fun sym h => hs sym (by simp [CodeTree.syms, h]))
    rw [hl]
    simp only []
    have hnn : s1.nn = BitVec.ofNat 10 s.nodes.length := rfl
    have hto : (BitVec.ofNat 10 s.nodes.length).toNat = s.nodes.length := by simp; omega
    set s3 := State.setLeft s1.nn (BitVec.ofNat 10 s2.nodes.length) { s2 with
      nodes := s2.nodes ++ l.layout s2.nodes.length, inPos := s2.inPos + l.hdr.length, ops := s2.ops ++ l.reads } with hs3
    have hn3 : s3.nodes = s.nodes ++ Node.mkInt (BitVec.ofNat 10 (s.nodes.length + 1)) Config.nil 0 ::
        l.layout (s.nodes.length + 1) := by
      rw [hs3, hnn]
      simp only [State.setLeft, hto, hlen2]
      rw [hn2, List.append_assoc, List.singleton_append, List.modify_append_cons]
      rfl
    have hlen3 : s3.nodes.length = s.nodes.length + 1 + l.size := by rw [hn3]; simp; omega
    have hp3 : s3.inPos = s.inPos + (1 + l.hdr.length) := by
      show s.inPos + 1 + l.hdr.length = _; omega
    have ha3 : s3.ahead = r.hdr ++ rest := by
      rw [State.ahead_of_inPos (s := s) (t := s3) (n := 1 + l.hdr.length) rfl hp3, ha, Nat.add_comm 1, List.drop_succ_cons]
      simp
    have hr := ihr depth s3 rest ha3 (by omega) (by omega) (fun sym h => hs sym (by simp [CodeTree.syms, h]))
    rw [hr]
    simp only []
    rw [hnn]
    congr 1
    have e1 : ∀ c, (s3.nodes ++ r.layout s3.nodes.length).modify s.nodes.length (fun n => { n with right := c }) =
        s.nodes ++ Node.mkInt (BitVec.ofNat 10 (s.nodes.length + 1)) c 0 ::
          (l.layout (s.nodes.length + 1) ++ r.layout s3.nodes.length) := by
      intro c
      rw [hn3, List.append_assoc, List.cons_append, List.modify_append_cons]
      rfl
    simp only [State.setRight, hto, e1]
    rw [hlen3]
    simp only [hs3, hs2, hs1, State.setLeft, State.allocNode, CodeTree.layout, CodeTree.hdr, CodeTree.reads, State.mk.injEq, true_and,
      and_true, List.length_cons, List.length_append, List.append_assoc, List.singleton_append]
    exact ⟨by omega, rfl⟩

/-- Splitting a beginning of two sequences in a row. -/
theorem List.prefix_append_cases {α : Type} {a b c : List α} (h : a <+: b ++ c) :
    (a <+: b ∧ a ≠ b) ∨ ∃ d, a = b ++ d ∧ d <+: c := by
  obtain ⟨e, he⟩ := h
  rcases List.append_eq_append_iff.mp he with ⟨f, rfl, rfl⟩ | ⟨f, rfl, rfl⟩
  · by_cases hf : f = []
    · subst hf; exact .inr ⟨[], by simp, List.nil_prefix⟩
    · exact .inl ⟨List.prefix_append _ _, by simpa using fun h => hf h⟩
  · exact .inr ⟨f, rfl, List.prefix_append _ _⟩

/-! ## Headers that do not end -/

/-- The items of a tree's header. -/
def CodeTree.items : CodeTree → List HeaderItem
  | .leaf sym _ => [.leaf sym]
  | .node l r _ => .node :: (l.items ++ r.items)

theorem CodeTree.itemBits_items (t : CodeTree) : itemBits t.items = t.hdr := by
  induction t with
  | leaf sym w => simp [items, itemBits, HeaderItem.bits, hdr]
  | node l r w ihl ihr =>
    simp only [itemBits] at ihl ihr
    simp [items, itemBits, HeaderItem.bits, hdr, ihl, ihr]

theorem CodeTree.items_length (t : CodeTree) : t.items.length = t.size := by
  induction t with
  | leaf => rfl
  | node l r w ihl ihr => simp [items, size, ihl, ihr]; omega

theorem CodeTree.mem_items {t : CodeTree} {sym : Sym} : .leaf sym ∈ t.items ↔ sym ∈ t.syms := by
  induction t with
  | leaf => simp [items, syms]
  | node l r w ihl ihr => simp [items, syms, ihl, ihr]

/-- A tree's items complete one subtree (R164). -/
theorem subtreesDue_items (t : CodeTree) : ∀ (n : Nat) (rest : List HeaderItem),
    subtreesDue (n + 1) (t.items ++ rest) = subtreesDue n rest := by
  induction t with
  | leaf => intro n rest; rfl
  | node l r w ihl ihr =>
    intro n rest
    rw [CodeTree.items, List.cons_append, List.append_assoc, subtreesDue, ihl, ihr]

/-- Items after which nothing is due begin with those of a tree. -/
theorem exists_items_of_due : ∀ (len n : Nat) (items : List HeaderItem), items.length ≤ len →
    subtreesDue (n + 1) items = 0 → ∃ (t : CodeTree) (rest : List HeaderItem), items = t.items ++ rest ∧
      subtreesDue n rest = 0 := by
  intro len
  induction len with
  | zero =>
    intro n items hl h
    rw [List.length_eq_zero_iff.mp (Nat.le_zero.mp hl)] at h
    simp [subtreesDue] at h
  | succ len ih =>
    intro n items hl h
    cases items with
    | nil => simp [subtreesDue] at h
    | cons x items =>
      rw [List.length_cons] at hl
      cases x with
      | leaf sym => exact ⟨.leaf sym 0, items, rfl, h⟩
      | node =>
        obtain ⟨l, r1, rfl, h1⟩ := ih (n + 1) items (by omega) h
        rw [List.length_append] at hl
        obtain ⟨r, r2, rfl, h2⟩ := ih n r1 (by omega) h1
        exact ⟨.node l r 0, r2, by simp [CodeTree.items], h2⟩

/-- A proper beginning of a tree's items leaves something due. -/
theorem due_of_prefix (t : CodeTree) : ∀ (n : Nat) (pre : List HeaderItem), pre <+: t.items → pre ≠ t.items →
    n + 1 ≤ subtreesDue (n + 1) pre := by
  induction t with
  | leaf sym w =>
    intro n pre hp hne
    cases pre with
    | nil => exact Nat.le_refl _
    | cons x xs =>
      obtain ⟨rfl, h⟩ := List.cons_prefix_cons.mp hp
      rw [List.prefix_nil.mp h] at hne
      exact absurd rfl hne
  | node l r w ihl ihr =>
    intro n pre hp hne
    cases pre with
    | nil => exact Nat.le_refl _
    | cons x xs =>
      obtain ⟨rfl, h⟩ := List.cons_prefix_cons.mp hp
      rw [subtreesDue]
      obtain ⟨h1, h2⟩ | ⟨d, rfl, h1⟩ := List.prefix_append_cases h
      · exact Nat.le_of_succ_le (ihl (n + 1) xs h1 h2)
      · rw [subtreesDue_items]
        exact ihr n d h1 fun he => hne (by rw [he]; rfl)

/-- A proper beginning of some items' bits is the bits of the first of them and a proper beginning of the next one's. -/
theorem itemBits_prefix : ∀ (items : List HeaderItem) (bits : List Bool), bits <+: itemBits items → bits ≠ itemBits items →
    ∃ pre x post part, items = pre ++ x :: post ∧ bits = itemBits pre ++ part ∧ part <+: x.bits ∧ part ≠ x.bits := by
  intro items
  induction items with
  | nil => intro bits hp hne; exact absurd (List.prefix_nil.mp hp) hne
  | cons x items ih =>
    intro bits hp hne
    obtain ⟨h1, h2⟩ | ⟨d, rfl, h1⟩ := List.prefix_append_cases hp
    · exact ⟨[], x, items, bits, rfl, rfl, h1, h2⟩
    · obtain ⟨pre, y, post, part, rfl, rfl, h3, h4⟩ := ih d h1 fun he => hne (by rw [he]; rfl)
      exact ⟨x :: pre, y, post, part, rfl, by simp [itemBits], h3, h4⟩

/-- Every proper beginning of a sound header is items that do not end it, then nothing or a cut leaf (R168). -/
theorem CodeTree.prefix_truncated {t : CodeTree} {bits : List Bool} (hk : t.leaves ≤ 257)
    (hs : ∀ sym ∈ t.syms, sym.toNat ≤ 256) (hp : bits <+: t.hdr) (hne : bits ≠ t.hdr) :
    ∃ items tail info used, OpenHeader items ∧ HeaderFault items.length tail 2 info used ∧ bits = itemBits items ++ tail := by
  rw [← CodeTree.itemBits_items] at hp hne
  obtain ⟨pre, x, post, part, hit, rfl, h1, h2⟩ := itemBits_prefix t.items bits hp hne
  have hlen : pre.length + 1 ≤ 513 := by
    have := congrArg List.length hit
    rw [CodeTree.items_length, List.length_append, List.length_cons] at this
    have := t.size_eq; omega
  have hopen : OpenHeader pre := by
    refine ⟨?_, fun sym h => hs sym (CodeTree.mem_items.mp (by rw [hit]; simp [h])), by omega⟩
    exact Nat.one_le_iff_ne_zero.mp (due_of_prefix t 0 pre (hit ▸ List.prefix_append _ _) fun h => by
      have := congrArg List.length hit
      rw [List.length_append, List.length_cons, h] at this
      omega)
  cases part with
  | nil => exact ⟨pre, [], _, _, hopen, .noTag, rfl⟩
  | cons b field =>
    cases x with
    | node =>
      obtain ⟨rfl, h⟩ := List.cons_prefix_cons.mp h1
      rw [List.prefix_nil.mp h] at h2
      exact absurd rfl h2
    | leaf sym =>
      obtain ⟨rfl, h⟩ := List.cons_prefix_cons.mp h1
      have hl := h.length_le
      rw [msbBits_length] at hl
      have h9 : field.length ≠ 9 := fun he => h2 (by rw [h.eq_of_length (by rw [he, msbBits_length])]; rfl)
      exact ⟨pre, true :: field, _, _, hopen, .cutField field (by omega) (by omega), rfl⟩

/-- `ReadNode` where one more node is expected and cannot be read (R165, R168, R169). -/
theorem readNode_fault {depth : Nat} {s : State} {code : BitVec 5} {info : Word64} {used : Nat}
    (hn : s.nodes.length ≤ 513) (h : HeaderFault s.nodes.length s.ahead code info used) :
    ∃ c u, readNode (depth + 1) s = .raised c info u ∧ c.code = code ∧ u.inPos = s.inPos + used := by
  have hcut : ∀ (t : State) (n : Nat), t.nodes.length = n → n < 1024 →
      (Exec.raised .truncatedHeader (t.nn.setWidth 64) t : Exec Idx) = .raised .truncatedHeader (BitVec.ofNat 64 n) t := by
    rintro t n rfl ht
    congr 1
    apply BitVec.eq_of_toNat_eq
    simp [State.nn]; omega
  have hb : ¬ BitVec.ofBool true = 0#1 := by decide
  set s1 : State := { s with inPos := s.inPos + 1, ops := s.ops ++ [.read 1] } with hs1
  set s2 := s1.allocNode (Node.mkInt Config.nil Config.nil 0) with hs2
  have hlen2 : s2.nodes.length = s.nodes.length + 1 := by simp [hs2, hs1, State.allocNode]
  have hp2 : s2.inPos = s.inPos + 1 := rfl
  generalize ha : s.ahead = tail at h
  have hlen := s.ahead_length
  rw [ha] at hlen
  cases h with
  | noTag =>
    rw [List.length_nil] at hlen
    rw [readNode, State.inRead_of_lt s 1 (by omega)]
    exact ⟨.truncatedHeader, _, hcut _ _ rfl (by omega), rfl, rfl⟩
  | tooMany b rest h513 =>
    rw [readNode, State.inRead1_bit ha]
    simp only [Config.nnode, h513, if_true]
    exact ⟨.treeOverflow, _, rfl, rfl, rfl⟩
  | cutField field hlt h9 =>
    have hl1 : s.nodes.length ≠ 513 := by omega
    rw [List.length_cons] at hlen
    rw [readNode, State.inRead1_bit ha]
    simp only [Config.nnode, ← hs1, hl1, if_false, hb, ← hs2]
    rw [readLeaf, State.inRead_of_lt s2 9 (by show s.inBits.length < s.inPos + 1 + 9; omega)]
    exact ⟨.truncatedHeader, _, hcut { s2 with ops := s2.ops ++ [.read 9] } _ hlen2 (by omega), rfl, rfl⟩
  | badSymbol sym rest hlt h256 =>
    have hl1 : s.nodes.length ≠ 513 := by omega
    rw [List.cons_append] at ha
    have ha2 : s2.ahead = msbBits sym ++ rest := by
      rw [State.ahead_of_inPos (s := s) (t := s2) (n := 1) rfl rfl, ha]; rfl
    rw [readNode, State.inRead1_bit ha]
    simp only [Config.nnode, ← hs1, hl1, if_false, hb, ← hs2]
    rw [readLeaf, State.inRead_msbBits s2 sym rest (by omega) ha2]
    simp only [show sym.toNat > 256 from h256, if_true]
    exact ⟨.badSymbol, _, rfl, rfl, rfl⟩

/-- `ReadNode` on items that do not complete a tree and then a fault (R168). -/
theorem readNode_open : ∀ (depth : Nat) (s : State) (items : List HeaderItem) (tail : List Bool) (code : BitVec 5)
    (info : Word64) (used : Nat), subtreesDue 1 items ≠ 0 → (∀ sym, .leaf sym ∈ items → sym.toNat ≤ 256) →
    s.nodes.length + items.length ≤ 513 → 514 ≤ depth + s.nodes.length →
    HeaderFault (s.nodes.length + items.length) tail code info used → s.ahead = itemBits items ++ tail →
    ∃ c u, readNode depth s = .raised c info u ∧ c.code = code ∧ u.inPos = s.inPos + (itemBits items).length + used := by
  intro depth
  induction depth with
  | zero => intro s items tail code info used _ _ hn hd; omega
  | succ depth ih =>
    intro s items tail code info used hdue hs hn hd hf ha
    cases items with
    | nil => exact readNode_fault (by simpa using hn) (by rw [ha]; exact hf)
    | cons x items =>
      rw [List.length_cons] at hn hf
      cases x with
      | leaf sym => cases items <;> exact absurd rfl hdue
      | node =>
        have ha0 : s.ahead = false :: (itemBits items ++ tail) := ha
        have hs' : ∀ sym, .leaf sym ∈ items → sym.toNat ≤ 256 := fun sym h => hs sym (by simp [h])
        have hb : BitVec.ofBool false = 0#1 := by decide
        have hne : s.nodes.length ≠ 513 := by omega
        have hlen0 : (itemBits (.node :: items)).length = 1 + (itemBits items).length := Nat.add_comm _ _
        rw [readNode, State.inRead1_bit ha0]
        set s1 : State := { s with inPos := s.inPos + 1, ops := s.ops ++ [.read 1] } with hs1
        have hl1 : s1.nodes.length ≠ 513 := hne
        simp only [hl1, if_false, Config.nnode, hb, if_true]
        set s2 := s1.allocNode (Node.mkInt Config.nil Config.nil 0) with hs2
        have hlen2 : s2.nodes.length = s.nodes.length + 1 := by simp [hs2, hs1, State.allocNode]
        have ha2 : s2.ahead = itemBits items ++ tail := by
          rw [State.ahead_of_inPos (s := s) (t := s2) (n := 1) rfl rfl, ha0]; rfl
        have hp2 : s2.inPos = s.inPos + 1 := rfl
        by_cases h0 : subtreesDue 1 items = 0
        · obtain ⟨l, r, rfl, -⟩ := exists_items_of_due _ 0 items (Nat.le_refl _) h0
          have hdr : subtreesDue 1 r ≠ 0 := by
            rw [subtreesDue, subtreesDue_items] at hdue; exact hdue
          rw [List.length_append, CodeTree.items_length] at hn hf
          have hbits : itemBits (l.items ++ r) = l.hdr ++ itemBits r := by
            rw [← CodeTree.itemBits_items]; simp [itemBits]
          rw [hbits, List.append_assoc] at ha2
          have hsz := l.size_eq
          have hdl := l.depth_lt_leaves
          rw [readNode_ok l depth s2 _ ha2 (by omega) (by omega)
            (fun sym h => hs' sym (by simp [CodeTree.mem_items, h]))]
          simp only []
          set s3 := State.setLeft s1.nn (BitVec.ofNat 10 s2.nodes.length) { s2 with
            nodes := s2.nodes ++ l.layout s2.nodes.length, inPos := s2.inPos + l.hdr.length, ops := s2.ops ++ l.reads }
            with hs3
          have hlen3 : s3.nodes.length = s.nodes.length + 1 + l.size := by
            simp [hs3, State.setLeft, hlen2]
          have hp3 : s3.inPos = s2.inPos + l.hdr.length := rfl
          have ha3 : s3.ahead = itemBits r ++ tail := by
            rw [State.ahead_of_inPos (s := s2) (t := s3) (n := l.hdr.length) rfl hp3, ha2]
            simp
          obtain ⟨c, u, h1, h2, h3⟩ := ih s3 r tail code info used hdr (fun sym h => hs' sym (by simp [h])) (by omega)
            (by omega) (by rw [hlen3, show s.nodes.length + 1 + l.size + r.length =
              s.nodes.length + (l.size + r.length + 1) by omega]; exact hf) ha3
          rw [h1]
          refine ⟨c, u, rfl, h2, ?_⟩
          rw [h3, hp3, hp2, hlen0, hbits, List.length_append]; omega
        · obtain ⟨c, u, h1, h2, h3⟩ := ih s2 items tail code info used h0 hs' (by omega) (by omega)
            (by rw [hlen2, show s.nodes.length + 1 + items.length = s.nodes.length + (items.length + 1) by omega]; exact hf) ha2
          rw [h1]
          refine ⟨c, u, rfl, h2, ?_⟩
          rw [h3, hp2, hlen0]; omega

/-! ## Everything a read can do -/

/-- Everything `ReadNode` can do (R168): it ends with the header of a tree consumed and laid out, or at one of three faults;
it moves IN's cursor, writes the arena, and touches nothing else. -/
theorem readNode_spec : ∀ (depth : Nat) (s : State), s.nodes.length ≤ 513 →
    (∀ i u, readNode depth s = .ok i u → Streamed (allowedOp .hdr) s u ∧
      ∃ (t : CodeTree) (rest : List Bool), s.ahead = t.hdr ++ rest ∧ t.depth < depth ∧
        s.nodes.length + t.size ≤ 513 ∧ (∀ sym ∈ t.syms, sym.toNat ≤ 256)) ∧
    (∀ c x u, readNode depth s = .raised c x u →
      (u = { s with nodes := u.nodes, inPos := u.inPos, ops := u.ops } ∧ s.inPos ≤ u.inPos ∧
        Streamed (allowedOp .hdr) s u) ∧
      (c = .truncatedHeader ∨ c = .badSymbol ∨ c = .treeOverflow)) ∧
    (∀ f, readNode depth s ≠ .stuck f) := by
  intro depth
  induction depth with
  | zero =>
    intro s hle
    refine ⟨fun i u h => by simp [readNode] at h, fun c x u h => ?_, fun f h => by simp [readNode] at h⟩
    simp only [readNode, Exec.raised.injEq] at h
    obtain ⟨rfl, rfl, rfl⟩ := h
    exact ⟨⟨rfl, Nat.le_refl _, .refl _⟩, .inr (.inr rfl)⟩
  | succ depth ih =>
    intro s hle
    rw [readNode]
    cases hah : s.ahead with
    | nil =>
      have hrd := State.inRead_of_lt s 1 (by
        have := congrArg List.length hah
        rw [State.ahead_length] at this
        simp at this; omega)
      have hst := Streamed.of_inRead (ok := allowedOp .hdr) hrd rfl
      rw [hrd]
      refine ⟨fun i u h => by simp at h, fun c x u h => ?_, fun f h => by simp at h⟩
      simp only [Exec.raised.injEq] at h
      obtain ⟨rfl, rfl, rfl⟩ := h
      exact ⟨⟨rfl, Nat.le_refl _, hst⟩, .inl rfl⟩
    | cons b as =>
      have hrd := State.inRead1_bit hah
      have hst1 := Streamed.of_inRead (ok := allowedOp .hdr) hrd rfl
      rw [hrd]
      set s1 : State := { s with inPos := s.inPos + 1, ops := s.ops ++ [.read 1] } with hs1
      simp only [Config.nnode]
      by_cases hl1 : s1.nodes.length = 513
      · simp only [hl1, if_true]
        refine ⟨fun i u h => by simp at h, fun c x u h => ?_, fun f h => by simp at h⟩
        simp only [Exec.raised.injEq] at h
        obtain ⟨rfl, rfl, rfl⟩ := h
        exact ⟨⟨rfl, Nat.le_succ _, hst1⟩, .inr (.inr rfl)⟩
      simp only [hl1, if_false]
      have hl0 : s.nodes.length ≠ 513 := hl1
      set s2 := s1.allocNode (Node.mkInt Config.nil Config.nil 0) with hs2
      have hlen2 : s2.nodes.length = s.nodes.length + 1 := by simp [hs2, hs1, State.allocNode]
      have ha2 : s2.ahead = as := by
        have := State.ahead_of_inPos (s := s) (t := s2) (n := 1) rfl rfl
        rw [this, hah]; rfl
      have hst2 : Streamed (allowedOp .hdr) s s2 := hst1.trans (.of_same rfl ⟨rfl, rfl, rfl⟩)
      cases b with
      | true =>
        have hb : ¬ BitVec.ofBool true = 0#1 := by decide
        simp only [hb, if_false]
        rw [readLeaf]
        by_cases h9 : s2.inPos + 9 ≤ s2.inBits.length
        · have hrd9 := State.inRead_of_le s2 9 h9
          have hst3 := Streamed.of_inRead (ok := allowedOp .hdr) hrd9 rfl
          rw [hrd9]
          set v := BitVec.ofNat 9 (bitsVal (s2.ahead.take 9)) with hv
          simp only []
          by_cases hv256 : v.toNat > 256
          · simp only [hv256, if_true]
            refine ⟨fun i u h => by simp at h, fun c x u h => ?_, fun f h => by simp at h⟩
            simp only [Exec.raised.injEq] at h
            obtain ⟨rfl, rfl, rfl⟩ := h
            refine ⟨⟨rfl, ?_, hst2.trans hst3⟩, .inr (.inl rfl)⟩
            show s.inPos ≤ s.inPos + 1 + 9
            omega
          · simp only [hv256, if_false]
            refine ⟨fun i u h => ⟨?_, .leaf v 0, as.drop 9, ?_, by simp [CodeTree.depth], by simp only [CodeTree.size]; omega, ?_⟩,
              fun c x u h => by simp at h, fun f h => by simp at h⟩
            · simp only [Exec.ok.injEq] at h
              obtain ⟨-, rfl⟩ := h
              exact (hst2.trans hst3).trans (.of_same rfl ⟨rfl, rfl, rfl⟩)
            · have h9l : (as.take 9).length = 9 := by
                have := State.ahead_length s2
                rw [ha2] at this
                rw [List.length_take]; omega
              simp only [CodeTree.hdr, List.cons_append]
              rw [hv, ha2, msbBits_ofNat_bitsVal _ h9l, List.take_append_drop]
            · intro sym hsym
              simp only [CodeTree.syms, List.mem_singleton] at hsym
              subst hsym; omega
        · have hrd9 := State.inRead_of_lt s2 9 (by omega)
          have hst3 := Streamed.of_inRead (ok := allowedOp .hdr) hrd9 rfl
          rw [hrd9]
          refine ⟨fun i u h => by simp at h, fun c x u h => ?_, fun f h => by simp at h⟩
          simp only [Exec.raised.injEq] at h
          obtain ⟨rfl, rfl, rfl⟩ := h
          refine ⟨⟨rfl, ?_, hst2.trans hst3⟩, .inl rfl⟩
          show s.inPos ≤ s.inPos + 1
          omega
      | false =>
        have hb : BitVec.ofBool false = 0#1 := by decide
        simp only [hb, if_true]
        obtain ⟨i1, i2, i3⟩ := ih s2 (by omega)
        cases hl : readNode depth s2 with
        | stuck f => exact absurd hl (i3 f)
        | raised c x u =>
          refine ⟨fun i u h => by simp at h, fun c' x' u' h => ?_, fun f h => by simp at h⟩
          simp only [Exec.raised.injEq] at h
          obtain ⟨rfl, rfl, rfl⟩ := h
          obtain ⟨⟨a1, a2, a3⟩, a4⟩ := i2 _ _ _ hl
          refine ⟨⟨by rw [a1]; rfl, ?_, hst2.trans a3⟩, a4⟩
          have : s.inPos + 1 ≤ u.inPos := a2
          omega
        | ok li t =>
          obtain ⟨b0, l, rest1, b1, b2, b3, b4⟩ := i1 _ _ hl
          have hok := readNode_ok l depth s2 rest1 b1 b2 b3 b4
          rw [hl] at hok
          simp only [Exec.ok.injEq] at hok
          obtain ⟨rfl, rfl⟩ := hok
          simp only []
          set s3 := State.setLeft s1.nn (BitVec.ofNat 10 s2.nodes.length) { s2 with
            nodes := s2.nodes ++ l.layout s2.nodes.length, inPos := s2.inPos + l.hdr.length, ops := s2.ops ++ l.reads }
            with hs3
          have hlen3 : s3.nodes.length = s.nodes.length + 1 + l.size := by
            simp [hs3, State.setLeft, hlen2]
          have hp3 : s3.inPos = s.inPos + (1 + l.hdr.length) := by
            show s.inPos + 1 + l.hdr.length = _; omega
          have ha3 : s3.ahead = rest1 := by
            rw [State.ahead_of_inPos (s := s) (t := s3) (n := 1 + l.hdr.length) rfl hp3, hah, Nat.add_comm 1,
              List.drop_succ_cons, ← ha2, b1]
            simp
          have hst3 : Streamed (allowedOp .hdr) s s3 := (hst2.trans b0).trans (.of_same rfl ⟨rfl, rfl, rfl⟩)
          obtain ⟨j1, j2, j3⟩ := ih s3 (by omega)
          cases hr : readNode depth s3 with
          | stuck f => exact absurd hr (j3 f)
          | raised c x u =>
            refine ⟨fun i u h => by simp at h, fun c' x' u' h => ?_, fun f h => by simp at h⟩
            simp only [Exec.raised.injEq] at h
            obtain ⟨rfl, rfl, rfl⟩ := h
            obtain ⟨⟨a1, a2, a3⟩, a4⟩ := j2 _ _ _ hr
            refine ⟨⟨by rw [a1]; rfl, ?_, hst3.trans a3⟩, a4⟩
            omega
          | ok ri t =>
            obtain ⟨c0, r, rest2, c1, c2, c3, c4⟩ := j1 _ _ hr
            refine ⟨fun i u h => ⟨?_, .node l r 0, rest2, ?_, ?_, ?_, ?_⟩, fun c x u h => by simp at h,
              fun f h => by simp at h⟩
            · simp only [Exec.ok.injEq] at h
              obtain ⟨-, rfl⟩ := h
              exact (hst3.trans c0).trans (.of_same rfl ⟨rfl, rfl, rfl⟩)
            · simp only [CodeTree.hdr, List.cons_append, List.append_assoc]
              rw [← c1, ha3, ← b1, ha2]
            · simp only [CodeTree.depth]; omega
            · simp only [CodeTree.size]; omega
            · intro sym hsym
              simp only [CodeTree.syms, List.mem_append] at hsym
              exact hsym.elim (b4 sym) (c4 sym)

/-- The state an `HDR` that reads the header of `t` leaves, but for the response (R168). -/
def headerRead (t : CodeTree) (s : State) : State :=
  { s.discardTree with
    nodes := t.layout 0, root := 0, inPos := s.inPos + t.hdr.length, ops := s.ops ++ t.reads }

/-- The body of `HDR` on the header of a tree that is not a leaf (R168, R170). -/
theorem readHeader_ok {s : State} {t : CodeTree} {rest : List Bool} (ha : s.ahead = t.hdr ++ rest) (hl : t.isLeaf = false)
    (hn : t.size ≤ 513) (hs : ∀ sym ∈ t.syms, sym.toNat ≤ 256) : readHeader s = .ok 0 (headerRead t s) := by
  have hsz := t.size_eq
  have hdl := t.depth_lt_leaves
  have h := readNode_ok t 514 s.discardTree rest ha (by omega) (by show 0 + _ ≤ _; omega) hs
  rw [readHeader, h]
  cases t with
  | leaf => simp [CodeTree.isLeaf] at hl
  | node l r w => rfl

/-- The body of `HDR` on the header of a lone leaf (R167). -/
theorem readHeader_leaf {s : State} {sym : Sym} {w : Weight} {rest : List Bool}
    (ha : s.ahead = (CodeTree.leaf sym w).hdr ++ rest) (hs : sym.toNat ≤ 256) :
    readHeader s = .raised .degenerateTree (sym.setWidth 64)
      { s.discardTree with inPos := s.inPos + 10, ops := s.ops ++ [.read 1, .read 9] } := by
  have h := readNode_ok (.leaf sym w) 514 s.discardTree rest ha (by simp [CodeTree.depth]) (by show 0 + 1 ≤ 513; omega)
    (by simpa [CodeTree.syms] using hs)
  rw [readHeader, h]
  simp only [acceptRoot, State.nodeAt, State.discardTree, State.dropArena, CodeTree.layout, Node.mkLeaf, CodeTree.hdr,
    List.length_cons, msbBits_length]
  rfl

/-- The body of `HDR` on a header that does not end (R168). -/
theorem readHeader_open {s : State} {items : List HeaderItem} {tail : List Bool} {code : BitVec 5} {info : Word64} {used : Nat}
    (ho : OpenHeader items) (hf : HeaderFault items.length tail code info used) (ha : s.ahead = itemBits items ++ tail) :
    ∃ c u, readHeader s = .raised c info u ∧ c.code = code ∧ u.inPos = s.inPos + (itemBits items).length + used := by
  obtain ⟨c, u, h1, h2, h3⟩ := readNode_open 514 s.discardTree items tail code info used ho.due ho.symbols
    (by have := ho.size; show 0 + items.length ≤ 513; omega) (by show 514 ≤ 514 + 0; omega)
    (by rw [show s.discardTree.nodes.length = 0 from rfl, Nat.zero_add]; exact hf) ha
  exact ⟨c, u.dropArena, by rw [readHeader, h1], h2, h3⟩

/-- Everything the body of `HDR` can do (R168, R227). -/
theorem readHeader_spec (s : State) :
    (∀ d u, readHeader s = .ok d u → d = 0 ∧ Streamed (allowedOp .hdr) s u ∧
      ∃ (t : CodeTree) (rest : List Bool), s.ahead = t.hdr ++ rest ∧ t.isLeaf = false ∧ t.size ≤ 513 ∧
        (∀ sym ∈ t.syms, sym.toNat ≤ 256) ∧ u = headerRead t s) ∧
    (∀ c x u, readHeader s = .raised c x u →
      u = { s.discardTree with inPos := u.inPos, ops := u.ops } ∧ s.inPos ≤ u.inPos ∧ Streamed (allowedOp .hdr) s u ∧
        (c = .truncatedHeader ∨ c = .badSymbol ∨ c = .treeOverflow ∨ c = .degenerateTree)) ∧
    (∀ f, readHeader s ≠ .stuck f) := by
  obtain ⟨h1, h2, h3⟩ := readNode_spec 514 s.discardTree (by show 0 ≤ 513; omega)
  have hd : Streamed (allowedOp .hdr) s s.discardTree := .of_same rfl ⟨rfl, rfl, rfl⟩
  rw [readHeader]
  cases hr : readNode 514 s.discardTree with
  | stuck f => exact absurd hr (h3 f)
  | raised c x m =>
    obtain ⟨⟨a1, a2, a3⟩, a4⟩ := h2 _ _ _ hr
    refine ⟨fun d u h => by simp at h, fun c' x' u h => ?_, fun f h => by simp at h⟩
    simp only [Exec.raised.injEq] at h
    obtain ⟨rfl, rfl, rfl⟩ := h
    refine ⟨by rw [a1]; rfl, a2, (hd.trans a3).trans (.of_same rfl ⟨rfl, rfl, rfl⟩), ?_⟩
    rcases a4 with h | h | h <;> simp [h]
  | ok i m =>
    obtain ⟨a0, t, rest, a1, a2, a3, a4⟩ := h1 _ _ hr
    have hok := readNode_ok t 514 s.discardTree rest a1 a2 a3 a4
    rw [hr] at hok
    simp only [Exec.ok.injEq] at hok
    obtain ⟨rfl, rfl⟩ := hok
    have hsz : t.size ≤ 513 := by
      have : s.discardTree.nodes.length = 0 := rfl
      omega
    have hst := hd.trans a0
    cases t with
    | leaf sym w =>
      refine ⟨fun d u h => by simp [acceptRoot, State.nodeAt, State.discardTree, State.dropArena, CodeTree.layout,
        Node.mkLeaf] at h, fun c x u h => ?_, fun f h => by simp [acceptRoot, State.nodeAt, State.discardTree,
        State.dropArena, CodeTree.layout, Node.mkLeaf] at h⟩
      simp [acceptRoot, State.nodeAt, State.discardTree, State.dropArena, CodeTree.layout, Node.mkLeaf] at h
      obtain ⟨rfl, rfl, rfl⟩ := h
      exact ⟨rfl, by simp, hst.trans (.of_same rfl ⟨rfl, rfl, rfl⟩), by simp⟩
    | node l r w =>
      refine ⟨fun d u h => ?_, fun c x u h => by simp [acceptRoot, State.nodeAt, State.discardTree, State.dropArena,
        CodeTree.layout, Node.mkInt] at h, fun f h => by simp [acceptRoot, State.nodeAt, State.discardTree,
        State.dropArena, CodeTree.layout, Node.mkInt] at h⟩
      have hroot : acceptRoot (BitVec.ofNat 10 s.discardTree.nodes.length) { s.discardTree with
          nodes := s.discardTree.nodes ++ (CodeTree.node l r w).layout s.discardTree.nodes.length,
          inPos := s.discardTree.inPos + (CodeTree.node l r w).hdr.length,
          ops := s.discardTree.ops ++ (CodeTree.node l r w).reads } = .ok 0 (headerRead (.node l r w) s) := rfl
      simp only [hroot, Exec.ok.injEq] at h
      obtain ⟨rfl, rfl⟩ := h
      exact ⟨rfl, hst.trans (.of_same rfl ⟨rfl, rfl, rfl⟩), .node l r w, rest, a1, rfl, hsz, a4, rfl⟩

end Sys2Proof.Machine
end

