-- ==== Sys2Proof/Laws/Exec.lean ====
section
/-! SUPPORT. Everything one command can do, said once (`60_exceptions.md` R210, R221): `exec_ends` turns `exec i s = .next t`
into one of seven ends, and `Effect` and `Abort` say per command what happened before the response. -/

namespace Sys2Proof.Machine

/-- `Effect i s m d`: from `s`, command `i` does its work, which leaves `m`, and answers `OK` with data `d`. -/
def Effect (i : Instr) (s m : State) (d : Word64) : Prop :=
  match i with
  | .fls => m = s.outFlush ∧ d = 0
  | .ldf idx data => m = s.setFreq idx.toNat data ∧ d = 0 ∧ idx.toNat ≤ 256
  | .cnt => d = 0 ∧ m = { s with freq := m.freq, inPos := 0, ops := m.ops } ∧ Streamed (allowedOp .cnt) s m
  | .bld => m = buildTree s ∧ d = 0
  | .gen => d = 0 ∧ s.root ≠ Config.nil ∧ ∃ t, s.tree = some t ∧ m = { s with code := tableOf t, codeOk := true }
  | .mgw => m = s.outWrite s.magic ∧ d = 0
  | .mgr => d = 0 ∧ m = { s with inPos := m.inPos, ops := m.ops } ∧ Streamed (allowedOp .mgr) s m
  | .hdw => d = 0 ∧ s.root ≠ Config.nil ∧ ∃ t, s.tree = some t ∧ m = emitTree t s
  | .hdr => d = 0 ∧ Streamed (allowedOp .hdr) s m ∧
    ∃ (t : CodeTree) (rest : List Bool), s.ahead = t.hdr ++ rest ∧ t.isLeaf = false ∧ t.size ≤ 513 ∧
      (∀ sym ∈ t.syms, sym.toNat ≤ 256) ∧ m = headerRead t s
  | .enc => d = 0 ∧ s.codeOk = true ∧ EncFrame s m
  | .dec => d = 0 ∧ s.root ≠ Config.nil ∧ BodyFrame s m ∧ Streamed (allowedOp .dec) s m ∧ m.done = true ∧
    ∃ n, m.nodeAt m.cur = some n ∧ n.kind = .leaf ∧ n.sym = 256#9
  | .dsym => s.root ≠ Config.nil ∧ BodyFrame s m ∧ Streamed (allowedOp .dsym) s m ∧
    ((m.done = true ∧ ∃ n, m.nodeAt m.cur = some n ∧ n.kind = .leaf ∧ n.sym = 256#9) ∨
      (m.done = false ∧ m.cur = s.root))
  | .clr | .rds _ | .rdf _ | .rdn _ | .rdw _ | .rdc _ _ => False

/-- `Abort i s m c`: from `s`, command `i` stops at a fault `c` of its own, having left `m` (R227). -/
def Abort (i : Instr) (s m : State) (c : Cause) : Prop :=
  match i with
  | .cnt => c = .countOverflow ∧ m = { s with freq := m.freq, inPos := m.inPos, ops := m.ops } ∧
    Streamed (allowedOp .cnt) s m
  | .mgr => c = .badMagic ∧ m = { s with inPos := m.inPos, ops := m.ops } ∧ Streamed (allowedOp .mgr) s m
  | .hdr => (c = .truncatedHeader ∨ c = .badSymbol ∨ c = .treeOverflow ∨ c = .degenerateTree) ∧
    m = { s.discardTree with inPos := m.inPos, ops := m.ops } ∧ Streamed (allowedOp .hdr) s m
  | .enc => c = .missingCode ∧ EncFrame s m
  | .dec => c = .truncatedBody ∧ s.root ≠ Config.nil ∧ BodyFrame s m ∧ Streamed (allowedOp .dec) s m ∧ m.done = false ∧
    (m.cur = s.root ∨ ∃ n, m.nodeAt m.cur = some n ∧ n.kind = .int)
  | .dsym => c = .truncatedBody ∧ s.root ≠ Config.nil ∧ BodyFrame s m ∧ Streamed (allowedOp .dsym) s m ∧ m.done = false ∧
    (m.cur = s.root ∨ ∃ n, m.nodeAt m.cur = some n ∧ n.kind = .int)
  | .clr | .fls | .rds _ | .ldf _ _ | .rdf _ | .bld | .rdn _ | .rdw _ | .gen | .rdc _ _ | .mgw | .hdw => False

/-- The seven ends of a command (R210, R221, R222). -/
inductive Ends (i : Instr) (s t : State) : Prop
  | cleared : i = .clr → t = s.clearBlock.respond 0 → Ends i s t
  | answered (d : Word64) : i.isRead = true → i.operandInRange = true → t = s.respond d → Ends i s t
  | refused : s.cause ≠ 0#5 → i ≠ .clr → i.isRead = false → t = s.refuse → Ends i s t
  | badOperand : i.operandInRange = false → (s.cause = 0#5 ∨ i.isRead = true) →
      t = s.raise .badOperand (encode i) → Ends i s t
  | badSequence : s.cause = 0#5 → (i = .gen ∨ i = .hdw ∨ i = .enc ∨ i = .dec ∨ i = .dsym) →
      t = s.raise .sequenceError (encode i) → Ends i s t
  | done (m : State) (d : Word64) : s.cause = 0#5 → Effect i s m d → t = m.respond d → Ends i s t
  | aborted (m : State) (c : Cause) (x : Word64) : s.cause = 0#5 → Abort i s m c → t = m.raise c x → Ends i s t

theorem hasTree_iff (s : State) : s.hasTree = true ↔ s.root ≠ 0x3FF#10 := by simp [State.hasTree, State.treeOk]

theorem mayDecode_iff (s : State) : s.mayDecode = true ↔ s.root ≠ 0x3FF#10 ∧ s.done = false := by
  simp [State.mayDecode, State.treeOk]

/-- What the body of `MGR` can do on any stream (R161). -/
theorem checkMagic_spec (s : State) :
    (∀ d u, checkMagic s = .ok d u → d = 0 ∧ u = { s with inPos := u.inPos, ops := u.ops } ∧
      Streamed (allowedOp .mgr) s u) ∧
    (∀ c x u, checkMagic s = .raised c x u → c = .badMagic ∧ u = { s with inPos := u.inPos, ops := u.ops } ∧
      Streamed (allowedOp .mgr) s u) ∧ ∀ f, checkMagic s ≠ .stuck f := by
  unfold checkMagic
  cases hr : s.inRead 32 with
  | mk v s1 =>
    have hst : Streamed (allowedOp .mgr) s s1 := .of_inRead hr rfl
    have hfr := (inRead_frames hr).1
    cases v with
    | none =>
      refine ⟨fun d u h => by simp at h, fun c x u h => ?_, fun f h => by simp at h⟩
      simp only [Exec.raised.injEq] at h
      obtain ⟨rfl, -, rfl⟩ := h
      exact ⟨rfl, hfr, hst⟩
    | some v =>
      simp only []
      split
      · refine ⟨fun d u h => ?_, fun c x u h => by simp at h, fun f h => by simp at h⟩
        simp only [Exec.ok.injEq] at h
        obtain ⟨rfl, rfl⟩ := h
        exact ⟨rfl, hfr, hst⟩
      · refine ⟨fun d u h => by simp at h, fun c x u h => ?_, fun f h => by simp at h⟩
        simp only [Exec.raised.injEq] at h
        obtain ⟨rfl, -, rfl⟩ := h
        exact ⟨rfl, hfr, hst⟩

/-- A command that checks an operand and then only answers. -/
theorem Ends.of_read {i : Instr} {s t : State} {b : Bool} {d : Word64} (hr : i.isRead = true) (hb : i.operandInRange = b)
    (h : withOperand b i s (.next (s.respond d)) = .next t) : Ends i s t := by
  obtain ⟨hb', h⟩ | ⟨hb', h⟩ := withOperand_next h
  · injection h with h
    exact .answered d hr (hb.trans hb') h.symm
  · exact .badOperand (hb.trans hb') (.inr hr) h

/-- A command that is refused in error, and the way it ends out of error. -/
theorem Ends.of_unless {i : Instr} {s t : State} {o : StepResult} (hi : i ≠ .clr) (hr : i.isRead = false)
    (h : unlessInError s o = .next t) (ho : s.cause = 0#5 → o = .next t → Ends i s t) : Ends i s t := by
  obtain ⟨hc, h⟩ | ⟨hc, h⟩ := unlessInError_next h
  · exact ho hc h
  · exact .refused hc hi hr h

/-- Everything one command can do. -/
theorem exec_ends {i : Instr} {s t : State} (h : exec i s = .next t) : Ends i s t := by
  cases i with
  | clr =>
    injection h with h
    exact .cleared rfl h.symm
  | rds idx => exact .of_read rfl rfl h
  | rdf idx => exact .of_read rfl rfl h
  | rdn idx => exact .of_read rfl rfl h
  | rdw idx => exact .of_read rfl rfl h
  | rdc idx c => exact .of_read rfl rfl h
  | fls =>
    refine .of_unless (by simp) rfl h fun hc h => ?_
    injection h with h
    exact .done _ 0 hc ⟨rfl, rfl⟩ h.symm
  | ldf idx data =>
    refine .of_unless (by simp) rfl h fun hc h => ?_
    obtain ⟨hb, h⟩ | ⟨hb, h⟩ := withOperand_next h
    · injection h with h
      exact .done _ 0 hc ⟨rfl, rfl, by simpa [symInRange] using hb⟩ h.symm
    · exact .badOperand hb (.inl hc) h
  | cnt =>
    refine .of_unless (by simp) rfl h fun hc h => ?_
    obtain ⟨h1, h2, -⟩ := countBytes_spec s
    obtain ⟨d, m, hm, he⟩ | ⟨c, x, m, hm, he⟩ := Exec.finish_next h
    · exact .done m d hc (h1 _ _ hm) he
    · obtain ⟨a1, a2, -, a3⟩ := h2 _ _ _ hm
      exact .aborted m c x hc ⟨a1, a2, a3⟩ he
  | bld =>
    refine .of_unless (by simp) rfl h fun hc h => ?_
    injection h with h
    exact .done _ 0 hc ⟨rfl, rfl⟩ h.symm
  | gen =>
    refine .of_unless (by simp) rfl h fun hc h => ?_
    obtain ⟨hb, h⟩ | ⟨hb, h⟩ := withPrecondition_next h
    · cases ht : s.tree with
      | none => simp [ht] at h
      | some tr =>
        simp only [ht, Host.Outcome.next.injEq] at h
        exact .done _ 0 hc ⟨rfl, (hasTree_iff s).mp hb, tr, ht, generateCodes_eq tr s⟩ h.symm
    · exact .badSequence hc (by simp) h
  | mgw =>
    refine .of_unless (by simp) rfl h fun hc h => ?_
    injection h with h
    exact .done _ 0 hc ⟨rfl, rfl⟩ h.symm
  | mgr =>
    refine .of_unless (by simp) rfl h fun hc h => ?_
    obtain ⟨h1, h2, -⟩ := checkMagic_spec s
    obtain ⟨d, m, hm, he⟩ | ⟨c, x, m, hm, he⟩ := Exec.finish_next h
    · exact .done m d hc (h1 _ _ hm) he
    · exact .aborted m c x hc (h2 _ _ _ hm) he
  | hdw =>
    refine .of_unless (by simp) rfl h fun hc h => ?_
    obtain ⟨hb, h⟩ | ⟨hb, h⟩ := withPrecondition_next h
    · cases ht : s.tree with
      | none => simp [ht] at h
      | some tr =>
        simp only [ht, Host.Outcome.next.injEq] at h
        exact .done _ 0 hc ⟨rfl, (hasTree_iff s).mp hb, tr, ht, rfl⟩ h.symm
    · exact .badSequence hc (by simp) h
  | hdr =>
    refine .of_unless (by simp) rfl h fun hc h => ?_
    obtain ⟨h1, h2, -⟩ := readHeader_spec s
    obtain ⟨d, m, hm, he⟩ | ⟨c, x, m, hm, he⟩ := Exec.finish_next h
    · exact .done m d hc (h1 _ _ hm) he
    · obtain ⟨a1, -, a2, a3⟩ := h2 _ _ _ hm
      exact .aborted m c x hc ⟨a3, a1, a2⟩ he
  | enc =>
    refine .of_unless (by simp) rfl h fun hc h => ?_
    obtain ⟨hb, h⟩ | ⟨hb, h⟩ := withPrecondition_next h
    · obtain ⟨h1, h2, -⟩ := encodeBody_spec s
      obtain ⟨d, m, hm, he⟩ | ⟨c, x, m, hm, he⟩ := Exec.finish_next h
      · exact .done m d hc ⟨(h1 _ _ hm).1, hb, (h1 _ _ hm).2⟩ he
      · exact .aborted m c x hc (h2 _ _ _ hm) he
    · exact .badSequence hc (by simp) h
  | dec =>
    refine .of_unless (by simp) rfl h fun hc h => ?_
    obtain ⟨hb, h⟩ | ⟨hb, h⟩ := withPrecondition_next h
    · obtain ⟨hr, hd⟩ := (mayDecode_iff s).mp hb
      obtain ⟨h1, h2⟩ := decodeLoop_spec (s.inBits.length + 1) s
      rw [← allowedOp_dec] at h1 h2
      obtain ⟨d, m, hm, he⟩ | ⟨c, x, m, hm, he⟩ := Exec.finish_next h
      · obtain ⟨a1, a2, a3, a4, a5⟩ := h1 _ _ hm
        exact .done m d hc ⟨a3, hr, a1, a2, a4, a5 hd⟩ he
      · obtain ⟨a1, a2, a3, a4, -, a5⟩ := h2 _ _ _ hm
        exact .aborted m c x hc ⟨a4, hr, a1, a2, a3.trans hd, a5 (Nat.succ_pos _)⟩ he
    · exact .badSequence hc (by simp) h
  | dsym =>
    refine .of_unless (by simp) rfl h fun hc h => ?_
    obtain ⟨hb, h⟩ | ⟨hb, h⟩ := withPrecondition_next h
    · obtain ⟨hr, hd⟩ := (mayDecode_iff s).mp hb
      obtain ⟨h1, h2⟩ := decodeOne_spec s
      rw [← allowedOp_dsym] at h1 h2
      unfold decodeSymbol at h
      cases ho : decodeOne s with
      | stuck f => simp [ho, Exec.finish] at h
      | raised c x m =>
        obtain ⟨a1, a2, a3, -, a4, -, a5⟩ := h2 _ _ _ ho
        simp only [ho, Exec.finish, Host.Outcome.next.injEq] at h
        exact .aborted m c x hc ⟨a4, hr, a1, a2, a3.trans hd, a5⟩ h.symm
      | ok sym m =>
        obtain ⟨a1, a2, -, -, a3⟩ := h1 _ _ ho
        simp only [ho, Exec.finish, Host.Outcome.next.injEq] at h
        refine .done m _ hc ⟨hr, a1, a2, ?_⟩ h.symm
        obtain ⟨-, b1, -, b2⟩ | ⟨-, b1, b2, -⟩ := a3
        · exact .inl ⟨b1, b2⟩
        · exact .inr ⟨b1.trans hd, b2⟩
    · exact .badSequence hc (by simp) h

/-- What no command touches before its response: the fault registers, `MAGIC`, the bits of IN, the host's actions. -/
structure Untouched (s m : State) : Prop where
  cause : m.cause = s.cause
  info : m.info = s.info
  magic : m.magic = s.magic
  inBits : m.inBits = s.inBits
  host : m.host = s.host
  rsp : m.rsp = s.rsp

theorem Untouched.of_eq {s m u : State} (h : m = u) (h' : Untouched s u) : Untouched s m := h ▸ h'

theorem Effect.frame {i : Instr} {s m : State} {d : Word64} (h : Effect i s m d) : Untouched s m := by
  cases i with
  | fls => obtain ⟨rfl, -⟩ := h; exact ⟨rfl, rfl, rfl, rfl, rfl, rfl⟩
  | ldf => obtain ⟨rfl, -⟩ := h; exact ⟨rfl, rfl, rfl, rfl, rfl, rfl⟩
  | cnt => exact .of_eq h.2.1 ⟨rfl, rfl, rfl, rfl, rfl, rfl⟩
  | bld => exact .of_eq (h.1.trans (buildTree_frame s)) ⟨rfl, rfl, rfl, rfl, rfl, rfl⟩
  | gen => obtain ⟨-, -, t, -, h⟩ := h; exact .of_eq h ⟨rfl, rfl, rfl, rfl, rfl, rfl⟩
  | mgw => obtain ⟨rfl, -⟩ := h; exact ⟨rfl, rfl, rfl, rfl, rfl, rfl⟩
  | mgr => exact .of_eq h.2.1 ⟨rfl, rfl, rfl, rfl, rfl, rfl⟩
  | hdw =>
    obtain ⟨-, -, t, -, h⟩ := h
    exact .of_eq (h.trans (emitTree_eq t s)) ⟨rfl, rfl, rfl, rfl, rfl, rfl⟩
  | hdr => obtain ⟨-, -, t, r, -, -, -, -, h⟩ := h; exact .of_eq h ⟨rfl, rfl, rfl, rfl, rfl, rfl⟩
  | enc => exact .of_eq h.2.2.1 ⟨rfl, rfl, rfl, rfl, rfl, rfl⟩
  | dec => exact .of_eq h.2.2.1.1 ⟨rfl, rfl, rfl, rfl, rfl, rfl⟩
  | dsym => exact .of_eq h.2.1.1 ⟨rfl, rfl, rfl, rfl, rfl, rfl⟩
  | clr | rds | rdf | rdn | rdw | rdc => exact h.elim

theorem Abort.frame {i : Instr} {s m : State} {c : Cause} (h : Abort i s m c) : Untouched s m := by
  cases i with
  | cnt => exact .of_eq h.2.1 ⟨rfl, rfl, rfl, rfl, rfl, rfl⟩
  | mgr => exact .of_eq h.2.1 ⟨rfl, rfl, rfl, rfl, rfl, rfl⟩
  | hdr => exact .of_eq h.2.1 ⟨rfl, rfl, rfl, rfl, rfl, rfl⟩
  | enc => exact .of_eq h.2.1 ⟨rfl, rfl, rfl, rfl, rfl, rfl⟩
  | dec => exact .of_eq h.2.2.1.1 ⟨rfl, rfl, rfl, rfl, rfl, rfl⟩
  | dsym => exact .of_eq h.2.2.1.1 ⟨rfl, rfl, rfl, rfl, rfl, rfl⟩
  | clr | fls | rds | ldf | rdf | bld | rdn | rdw | gen | rdc | mgw | hdw => exact h.elim

theorem Effect.streamed {i : Instr} {s m : State} {d : Word64} (h : Effect i s m d) : Streamed (allowedOp i) s m := by
  cases i with
  | fls => obtain ⟨rfl, -⟩ := h; exact .outFlush s rfl
  | ldf => obtain ⟨rfl, -⟩ := h; exact .of_same rfl ⟨rfl, rfl, rfl⟩
  | cnt => exact h.2.2
  | bld => rw [h.1, buildTree_frame s]; exact .of_same rfl ⟨rfl, rfl, rfl⟩
  | gen => obtain ⟨-, -, t, -, rfl⟩ := h; exact .of_same rfl ⟨rfl, rfl, rfl⟩
  | mgw => obtain ⟨rfl, -⟩ := h; exact .outWrite s _ rfl
  | mgr => exact h.2.2
  | hdw => obtain ⟨-, -, t, -, rfl⟩ := h; exact emitTree_streamed t s
  | hdr => exact h.2.1
  | enc => exact h.2.2.2
  | dec => exact h.2.2.2.1
  | dsym => exact h.2.2.1
  | clr | rds | rdf | rdn | rdw | rdc => exact h.elim

theorem Abort.streamed {i : Instr} {s m : State} {c : Cause} (h : Abort i s m c) : Streamed (allowedOp i) s m := by
  cases i with
  | cnt => exact h.2.2
  | mgr => exact h.2.2
  | hdr => exact h.2.2
  | enc => exact h.2.2
  | dec => exact h.2.2.2.1
  | dsym => exact h.2.2.2.1
  | clr | fls | rds | ldf | rdf | bld | rdn | rdw | gen | rdc | mgw | hdw => exact h.elim

/-- Fault entry changes the fault registers and the response only (R220). -/
theorem State.raise_same (c : Cause) (x : Word64) (s : State) :
    s.raise c x = { s with
      cause := (s.raise c x).cause, info := (s.raise c x).info, rsp := some ⟨c.code.setWidth 8, 0⟩ } := by
  unfold State.raise
  split <;> rfl

/-- Every command performs stream operations of its row only. -/
theorem exec_streamed {i : Instr} {s t : State} (h : exec i s = .next t) : Streamed (allowedOp i) s t := by
  have post : ∀ {m u : State}, Streamed (allowedOp i) s m → u.ops = m.ops → SameStreams m u → Streamed (allowedOp i) s u :=
    fun h1 h2 h3 => h1.trans (.of_same h2 h3)
  rcases exec_ends h with ⟨-, rfl⟩ | ⟨d, -, -, rfl⟩ | ⟨-, -, -, rfl⟩ | ⟨-, -, rfl⟩ | ⟨-, -, rfl⟩ | ⟨m, d, -, he, rfl⟩ |
    ⟨m, c, x, -, he, rfl⟩
  · exact .of_same rfl ⟨rfl, rfl, rfl⟩
  · exact .of_same rfl ⟨rfl, rfl, rfl⟩
  · exact .of_same rfl ⟨rfl, rfl, rfl⟩
  · rw [State.raise_same]; exact .of_same rfl ⟨rfl, rfl, rfl⟩
  · rw [State.raise_same]; exact .of_same rfl ⟨rfl, rfl, rfl⟩
  · exact post he.streamed rfl ⟨rfl, rfl, rfl⟩
  · rw [State.raise_same]; exact post he.streamed rfl ⟨rfl, rfl, rfl⟩

end Sys2Proof.Machine
end

