-- ==== Sys2Proof/Laws/Step.lean ====
section
/-! SUPPORT. Everything one step can do, said once (`30_encoding.md` R90, `70_reset_and_hazards.md` R250, R251, R254):
`step_ends` turns `step s = .next t` into one of six ends, and `replay_frame` says what a list of stream operations leaves. -/

namespace Sys2Proof.Machine

/-- A stream operation changes the cursor, the output and the record only; the output grows, and a cursor inside IN stays
there (R61, R64). -/
theorem StreamOp.apply_frame (op : StreamOp) (s : State) :
    op.apply s = { s with inPos := (op.apply s).inPos, outItems := (op.apply s).outItems, ops := (op.apply s).ops } ∧
      s.outItems <+: (op.apply s).outItems ∧ (s.inPos ≤ s.inBits.length → (op.apply s).inPos ≤ s.inBits.length) := by
  cases op with
  | read n =>
    by_cases h : s.inPos + n ≤ s.inBits.length <;> simp [StreamOp.apply, State.inRead, h]
  | rewind => exact ⟨rfl, List.prefix_rfl, fun _ => Nat.zero_le _⟩
  | write bits => exact ⟨rfl, List.prefix_append _ _, id⟩
  | codeBit b => exact ⟨rfl, List.prefix_append _ _, id⟩
  | flush => exact ⟨rfl, List.prefix_append _ _, id⟩

/-- The same for a list of operations. -/
theorem replay_frame (l : List StreamOp) : ∀ s : State,
    replay l s = { s with inPos := (replay l s).inPos, outItems := (replay l s).outItems, ops := (replay l s).ops } ∧
      s.outItems <+: (replay l s).outItems ∧ (s.inPos ≤ s.inBits.length → (replay l s).inPos ≤ s.inBits.length) := by
  induction l with
  | nil => exact fun s => ⟨rfl, List.prefix_rfl, id⟩
  | cons op l ih =>
    intro s
    obtain ⟨a1, a2, a3⟩ := op.apply_frame s
    obtain ⟨b1, b2, b3⟩ := ih (op.apply s)
    have hb : (op.apply s).inBits = s.inBits := by rw [a1]
    refine ⟨?_, a2.trans b2, fun h => hb ▸ b3 (hb ▸ a3 h)⟩
    rw [replay_cons, b1, a1]

/-- What a recorded run of stream operations leaves (R61, R64). -/
theorem Streamed.bounds {ok : StreamOp → Bool} {s t : State} (h : Streamed ok s t) :
    t.inBits = s.inBits ∧ s.outItems <+: t.outItems ∧ (s.inPos ≤ s.inBits.length → t.inPos ≤ t.inBits.length) := by
  obtain ⟨l, -, -, h1, h2, h3⟩ := h
  obtain ⟨a1, a2, a3⟩ := replay_frame l s
  have hb : t.inBits = s.inBits := h1.trans (by rw [a1])
  exact ⟨hb, h3 ▸ a2, fun h => by rw [h2, hb]; exact a3 h⟩

/-- What one step of the machine can be: the host's next action (R90, R250, R251, R254). -/
inductive StepEnds (s t : State) : Prop
  | waits : t = s → StepEnds s t
  | command (i : Instr) (rest : List HostEvent) : exec i { s with host := rest, ops := [] } = .next t → StepEnds s t
  | illegal (w : Word64) (rest : List HostEvent) :
      t = State.raise .illegalCommand w { s with host := rest, ops := [] } → StepEnds s t
  | taken (rest : List HostEvent) : t = { s with host := rest, rsp := none } → StepEnds s t
  | reset (m : State) : m = { s with inPos := m.inPos, outItems := m.outItems, ops := m.ops, host := m.host } →
      (s.inPos ≤ s.inBits.length → m.inPos ≤ s.inBits.length) → t = m.resetBlock → StepEnds s t
  | attached (inBits : List Bool) (inPos : Nat) (outItems : List OutItem) (rest : List HostEvent) :
      inPos ≤ inBits.length →
      t = { s with inBits := inBits, inPos := inPos, outItems := outItems, host := rest } → StepEnds s t

theorem runWord_next {w : Word64} {s t : State} (h : runWord w s = .next t) :
    (∃ i, decode w = .ok i ∧ exec i s = .next t) ∨ (∃ r, decode w = .error r) ∧ t = s.raise .illegalCommand w := by
  unfold runWord at h
  cases hd : decode w with
  | ok i => rw [hd] at h; exact .inl ⟨i, rfl, h⟩
  | error r => rw [hd] at h; exact .inr ⟨⟨r, rfl⟩, (Host.Outcome.next.inj h).symm⟩

/-- Everything one step can do. -/
theorem step_ends {s t : State} (h : step s = .next t) : StepEnds s t := by
  unfold step hostStep at h
  cases hh : s.host with
  | nil => rw [hh] at h; exact .waits (Host.Outcome.next.inj h).symm
  | cons e rest =>
    rw [hh] at h
    cases e with
    | command w =>
      simp only [hostAction, acceptCommand] at h
      split at h
      · obtain ⟨i, -, h⟩ | ⟨-, h⟩ := runWord_next h
        · exact .command i rest h
        · exact .illegal w rest h
      · exact .waits (Host.Outcome.next.inj h).symm
    | takeResponse => exact .taken rest (Host.Outcome.next.inj h).symm
    | reset => exact .reset { s with host := rest } rfl id (Host.Outcome.next.inj h).symm
    | resetDuring w k =>
      simp only [hostAction, resetDuringCommand] at h
      split at h
      · cases hr : runWord w { s with host := rest, ops := [] } with
        | next u =>
          simp only [hr, Host.Outcome.next.injEq] at h
          obtain ⟨a1, -, a3⟩ := replay_frame (u.ops.take k) { s with host := rest, ops := [] }
          exact .reset _ (by rw [a1]) a3 h.symm
        | fault f => simp [hr] at h
        | refused r => simp [hr] at h
      · exact .reset { s with host := rest } rfl id (Host.Outcome.next.inj h).symm
    | attach inBits inPos outItems =>
      exact .attached inBits (min inPos inBits.length) outItems rest (Nat.min_le_right _ _) (Host.Outcome.next.inj h).symm
end Sys2Proof.Machine
end

