-- ==== Sys2Proof/Laws/Arena.lean ====
section
/-! SUPPORT. Where the tree invariant comes from (`10_state.md` R25): the states that have it at once. `buildTree_arena` in
`Builder.lean` is the one `BLD` establishes. -/

namespace Sys2Proof.Machine

/-- With no tree and nothing allocated the arena is sound (R34). -/
theorem ArenaOk.empty_of {m : State} (h1 : m.root = 0x3FF#10) (h2 : m.nodes = []) : ArenaOk m :=
  ⟨fun _ => h2, by simp [h2], fun h => absurd h1 h, fun h => absurd h1 h, by simp [h2]⟩

/-- The invariant is about `ROOT` and the arena alone. -/
theorem ArenaOk.congr {s m : State} (h : ArenaOk s) (h1 : m.root = s.root) (h2 : m.nodes = s.nodes) :
    ArenaOk m := by
  obtain ⟨a, b, c, d, e⟩ := h
  refine ⟨?_, ?_, ?_, ?_, ?_⟩ <;> simp only [h1, h2, State.nodeAt] at * <;> assumption

/-- A tree read by `HDR` is sound (R168 corner case d). -/
theorem ArenaOk.of_headerRead {t : CodeTree} {s : State} (hl : t.isLeaf = false) (hn : t.size ≤ 513)
    (hs : ∀ sym ∈ t.syms, sym.toNat ≤ 256) : ArenaOk (headerRead t s) := by
  refine ⟨fun h => by simp [headerRead] at h, by simpa [headerRead] using hn, fun _ => ?_, fun _ => ?_, ?_⟩
  · refine ⟨List.range' 0 t.size, ?_, ?_⟩
    · have := reach_layout t 0 [] [] t.size rfl (by omega)
        (by have := t.depth_lt_leaves; have := t.leaves_pos; have := t.size_eq; omega)
      simpa [headerRead] using this
    · simp [List.range_eq_range', headerRead]
  · cases t with
    | leaf => simp [CodeTree.isLeaf] at hl
    | node l r w => exact ⟨_, by simp [State.nodeAt, headerRead, CodeTree.layout]; rfl, rfl⟩
  · exact t.layout_nodeOk (t.layout_weight 0) hs 0

end Sys2Proof.Machine
end

