-- ==== Sys2Proof/Laws/Encoding.lean ====
section
/-! SUPPORT. The four fields of a command word and the word are two views of one thing (`30_encoding.md` R91). -/

namespace Sys2Proof

/-- Taking the fields of a word made from fields gives the fields back. -/
theorem Fields.ofWord_word (f : Fields) : Fields.ofWord f.word = f := by
  obtain ⟨op, rsv, idx, data⟩ := f
  simp only [Fields.ofWord, Fields.word, Fields.mk.injEq]
  refine ⟨?_, ?_, ?_, ?_⟩ <;> ext j hj <;> simp only [BitVec.getElem_extractLsb', BitVec.getLsbD_append]
  · rw [if_neg (by omega), if_neg (by omega), if_neg (by omega), ← BitVec.getLsbD_eq_getElem]; congr 1; omega
  · rw [if_neg (by omega), if_neg (by omega), if_pos (by omega), ← BitVec.getLsbD_eq_getElem]; congr 1; omega
  · rw [if_neg (by omega), if_pos (by omega), ← BitVec.getLsbD_eq_getElem]; congr 1; omega
  · rw [if_pos (by omega), ← BitVec.getLsbD_eq_getElem]; congr 1; omega

/-- Making a word from the fields of a word gives the word back. -/
theorem Fields.word_ofWord (w : Word64) : (Fields.ofWord w).word = w := by
  simp only [Fields.ofWord, Fields.word]
  apply BitVec.eq_of_getLsbD_eq
  intro j hj
  simp only [BitVec.getLsbD_append, BitVec.getLsbD_extractLsb']
  by_cases h1 : j < 32
  · simp [h1]
  by_cases h2 : j - 32 < 10
  · have e : 32 + (j - 32) = j := by omega
    simp [h1, h2, e]
  by_cases h3 : j - 32 - 10 < 14
  · have e : 42 + (j - 32 - 10) = j := by omega
    rw [if_neg h1, if_neg h2, if_pos h3, e]; simp [h3]
  · have e : 56 + (j - 32 - 10 - 14) = j := by omega
    have h4 : j - 32 - 10 - 14 < 8 := by omega
    rw [if_neg h1, if_neg h2, if_neg h3, e]; simp [h4]

/-- The fields of the encoding of a command. -/
@[simp] theorem Fields.ofWord_encode (i : Instr) : Fields.ofWord (encode i) = i.fields := Fields.ofWord_word _

/-- The must-be-zero check passes exactly when `RSV` and the unused fields are 0, and answers the command. -/
theorem Fields.check_ok {f : Fields} {fmt : Format} {i j : Instr} (h : f.check fmt i = .ok j) :
    f.rsv = 0 ∧ fmt.unusedZero f = true ∧ j = i := by
  unfold Fields.check at h
  split at h
  · split at h
    · exact ⟨‹_›, ‹_›, by injection h with h; exact h.symm⟩
    · simp at h
  · simp at h

/-- Two words are equal only when their fields are. -/
theorem Fields.word_injective {f g : Fields} (h : f.word = g.word) : f = g := by
  rw [← Fields.ofWord_word f, h, Fields.ofWord_word]

/-- Masking works field by field. -/
theorem Fields.word_and (f g : Fields) :
    f.word &&& g.word = Fields.word ⟨f.op &&& g.op, f.rsv &&& g.rsv, f.idx &&& g.idx, f.data &&& g.data⟩ := by
  apply BitVec.eq_of_getLsbD_eq
  intro i hi
  simp only [Fields.word, BitVec.getLsbD_and, BitVec.getLsbD_append]
  split_ifs <;> rfl

/-- The fields of a format's mask (R95). -/
def Format.maskFields : Format → Fields
  | .n => ⟨0xFF, 0x3FFF, 0x3FF, 0xFFFFFFFF⟩
  | .i => ⟨0xFF, 0x3FFF, 0, 0xFFFFFFFF⟩
  | .d => ⟨0xFF, 0x3FFF, 0, 0⟩
  | .c => ⟨0xFF, 0x3FFF, 0, 0xFFFFFFF8⟩

theorem Format.mask_eq (fmt : Format) : fmt.mask = fmt.maskFields.word := by cases fmt <;> decide

/-- The mask of format C on `DATA` (R95): bits 31:3 are 0. -/
theorem upper_zero_iff (d : BitVec 32) : d &&& 0xFFFFFFF8#32 = 0#32 ↔ d.extractLsb' 3 29 = 0#29 := by
  have hm : ∀ i, i < 32 → (0xFFFFFFF8#32).getLsbD i = decide (3 ≤ i) := by decide
  constructor
  · intro h
    apply BitVec.eq_of_getLsbD_eq
    intro i hi
    have := congrArg (fun v => v.getLsbD (3 + i)) h
    simp only [BitVec.getLsbD_and, hm (3 + i) (by omega)] at this
    simpa [hi] using this
  · intro h
    apply BitVec.eq_of_getLsbD_eq
    intro i hi
    rw [BitVec.getLsbD_and, hm i hi]
    by_cases h3 : 3 ≤ i
    · have := congrArg (fun v => v.getLsbD (i - 3)) h
      simp only [BitVec.getLsbD_extractLsb', show 3 + (i - 3) = i by omega, show i - 3 < 29 by omega,
        decide_true, Bool.true_and] at this
      simp [this]
    · simp [h3]

/-- A word matches a row exactly when its opcode is the row's and the fields that must be 0 are (R95). -/
theorem OpRow.selects_iff (m : String) (fmt : Format) (op : BitVec 8) (w : Word64) :
    (OpRow.selects ⟨m, fmt, Fields.word ⟨op, 0, 0, 0⟩⟩ w) = true ↔
      (Fields.ofWord w).op = op ∧ (Fields.ofWord w).rsv = 0 ∧ fmt.unusedZero (Fields.ofWord w) = true := by
  have hw := Fields.word_ofWord w
  generalize Fields.ofWord w = f at hw ⊢
  obtain ⟨o, r, i, d⟩ := f
  subst hw
  have e8 : ∀ v : BitVec 8, v &&& 0xFF#8 = v := fun v => BitVec.and_allOnes
  have e14 : ∀ v : BitVec 14, v &&& 0x3FFF#14 = v := fun v => BitVec.and_allOnes
  have e10 : ∀ v : BitVec 10, v &&& 0x3FF#10 = v := fun v => BitVec.and_allOnes
  have e32 : ∀ v : BitVec 32, v &&& 0xFFFFFFFF#32 = v := fun v => BitVec.and_allOnes
  simp only [OpRow.selects, Format.mask_eq, Fields.word_and, beq_iff_eq]
  have inj : ∀ f g : Fields, f.word = g.word ↔ f = g := fun f g => ⟨Fields.word_injective, fun h => h ▸ rfl⟩
  rw [inj, Fields.mk.injEq]
  have hc := upper_zero_iff d
  cases fmt <;> simp [Format.maskFields, Format.unusedZero, e8, e14, e10, e32, hc]

/-- The rows of the opcode map as mnemonic, format and opcode (R93). -/
def opTable : List (String × Format × BitVec 8) :=
  [("CLR", Format.n, 0x01#8), ("RDS", Format.i, 0x02#8), ("FLS", Format.n, 0x03#8), ("LDF", Format.d, 0x10#8),
   ("RDF", Format.i, 0x11#8), ("CNT", Format.n, 0x12#8), ("BLD", Format.n, 0x20#8), ("RDN", Format.i, 0x21#8),
   ("RDW", Format.i, 0x22#8), ("GEN", Format.n, 0x30#8), ("RDC", Format.c, 0x31#8), ("MGW", Format.n, 0x40#8),
   ("MGR", Format.n, 0x41#8), ("HDW", Format.n, 0x42#8), ("HDR", Format.n, 0x43#8), ("ENC", Format.n, 0x50#8),
   ("DEC", Format.n, 0x51#8), ("DSYM", Format.n, 0x52#8)]

theorem opRows_eq : opRows = opTable.map fun r => ⟨r.1, r.2.1, Fields.word ⟨r.2.2, 0, 0, 0⟩⟩ := by decide

/-- A word is legal when its opcode is a row's, `RSV` is 0 and so are the fields the row's format does not use (R94, R95). -/
theorem legalWord_iff (w : Word64) : legalWord w = true ↔ (Fields.ofWord w).rsv = 0 ∧
    ∃ r ∈ opTable, (Fields.ofWord w).op = r.2.2 ∧ r.2.1.unusedZero (Fields.ofWord w) = true := by
  rw [legalWord, opRows_eq, List.any_map, List.any_eq_true]
  simp only [Function.comp_apply, OpRow.selects_iff]
  constructor
  · rintro ⟨r, hr, h1, h2, h3⟩
    exact ⟨h2, r, hr, h1, h3⟩
  · rintro ⟨h2, r, hr, h1, h3⟩
    exact ⟨r, hr, h1, h2, h3⟩

end Sys2Proof
end

