-- ==== Sys2Proof/Laws/PerInstr.lean ====
section
/-! SUPPORT. Per command: the fields it is encoded in pass the must-be-zero check of its format, and the check answers the
command (`30_encoding.md` R93 to R95). -/

namespace Sys2Proof.Laws.Encodes

/-- The format of a command (R93). -/
def format : Instr → Format
  | .clr | .fls | .cnt | .bld | .gen | .mgw | .mgr | .hdw | .hdr | .enc | .dec | .dsym => .n
  | .rds _ | .rdf _ | .rdn _ | .rdw _ => .i
  | .ldf _ _ => .d
  | .rdc _ _ => .c

/-- The fields of the command pass its format's check. -/
def Statement (i : Instr) : Prop := i.fields.check (format i) i = .ok i

theorem clr : Statement .clr := rfl
theorem rds (idx : BitVec 10) : Statement (.rds idx) := rfl
theorem fls : Statement .fls := rfl
theorem ldf (idx : BitVec 10) (data : BitVec 32) : Statement (.ldf idx data) := rfl
theorem rdf (idx : BitVec 10) : Statement (.rdf idx) := rfl
theorem cnt : Statement .cnt := rfl
theorem bld : Statement .bld := rfl
theorem rdn (idx : BitVec 10) : Statement (.rdn idx) := rfl
theorem rdw (idx : BitVec 10) : Statement (.rdw idx) := rfl
theorem gen : Statement .gen := rfl
/-- The three bits of the chunk number leave `DATA[31:3]` at 0 (R96). -/
theorem chunk_upper (chunk : BitVec 3) : (chunk.setWidth 32).extractLsb' 3 29 = 0#29 := by
  apply BitVec.eq_of_getLsbD_eq
  intro j hj
  rw [BitVec.getLsbD_extractLsb', BitVec.getLsbD_setWidth, BitVec.getLsbD_of_ge chunk _ (by omega)]
  simp

theorem rdc (idx : BitVec 10) (chunk : BitVec 3) : Statement (.rdc idx chunk) := by
  simp [Statement, format, Instr.fields, Fields.check, Format.unusedZero, chunk_upper]
theorem mgw : Statement .mgw := rfl
theorem mgr : Statement .mgr := rfl
theorem hdw : Statement .hdw := rfl
theorem hdr : Statement .hdr := rfl
theorem enc : Statement .enc := rfl
theorem dec : Statement .dec := rfl
theorem dsym : Statement .dsym := rfl

end Sys2Proof.Laws.Encodes
end

