-- ==== Sys2Proof/Tests/Slice0.lean ====
section
/-! SUPPORT. The model's own tests: words the decoder refuses and words it reads, written out from `30_encoding.md` R91 to R95;
one or two single steps per command with the result `95_test_vectors.md` gives (its id in each docstring); and, for every
statement with hypotheses, a state and operands that meet them. -/

namespace Sys2Proof.Machine.Tests

set_option Elab.async false

/-! ## Ill-formed words and operands -/

/-- E7, E8, E9: opcodes that no row has. -/
theorem test_illegal_opcodes : legalWord 0x0000000000000000#64 = false ∧ legalWord 0xFF00000000000000#64 = false ∧
    legalWord 0x5300000000000000#64 = false := by decide

/-- E10 (`BLD` with `DATA` = 1), E11 (`CLR` with a bit of `RSV`), F11 (`RDF` with `DATA` = 1), G6 (`RDC` with `DATA` = 8). -/
theorem test_illegal_fields : legalWord 0x2000000000000001#64 = false ∧ legalWord 0x0100040000000000#64 = false ∧
    legalWord 0x1100004100000001#64 = false ∧ legalWord 0x3100004100000008#64 = false := by decide

/-- The decoder refuses the same words, each by its name. -/
theorem test_rejects : decode 0xFF00000000000000#64 = .error (.unknownOpcode 0xFF) ∧
    decode 0x2000000100000000#64 = .error (.unusedField .n) ∧ decode 0x0100040000000000#64 = .error (.reservedBits 1) ∧
    decode 0x1100004100000001#64 = .error (.unusedField .i) ∧ decode 0x1080004100000001#64 = .error (.reservedBits 0x2000) ∧
    decode 0x3100004100000008#64 = .error (.unusedField .c) := by decide

/-- E6, F8, F10, T11, G7 and the first index past each space (R96). -/
theorem test_operands_out_of_range : Instr.operandInRange (.rds 10) = false ∧ Instr.operandInRange (.ldf 257 5) = false ∧
    Instr.operandInRange (.rdf 1023) = false ∧ Instr.operandInRange (.rdn 513) = false ∧
    Instr.operandInRange (.rdw 513) = false ∧ Instr.operandInRange (.rdc 300 0) = false := by decide

/-- The last index inside each space (R96). -/
theorem test_operands_in_range : Instr.operandInRange (.rds 9) = true ∧ Instr.operandInRange (.ldf 256 5) = true ∧
    Instr.operandInRange (.rdf 256) = true ∧ Instr.operandInRange (.rdn 512) = true ∧
    Instr.operandInRange (.rdw 512) = true ∧ Instr.operandInRange (.rdc 256 7) = true := by decide

/-! ## Decoding: every command's word, written out from R91, R93 and R95 -/

theorem test_decode_control : decode 0x0100000000000000#64 = .ok .clr ∧ decode 0x0200000300000000#64 = .ok (.rds 3) ∧
    decode 0x0300000000000000#64 = .ok .fls := by decide

/-- F6, E13, F7, F8 and F10's words. -/
theorem test_decode_frequency : decode 0x1000004100000002#64 = .ok (.ldf 65 2) ∧
    decode 0x10000041FFFFFFFF#64 = .ok (.ldf 65 0xFFFFFFFF) ∧ decode 0x1100010000000000#64 = .ok (.rdf 256) ∧
    decode 0x1000010100000005#64 = .ok (.ldf 257 5) ∧ decode 0x110003FF00000000#64 = .ok (.rdf 1023) ∧
    decode 0x1200000000000000#64 = .ok .cnt := by decide

theorem test_decode_builder : decode 0x2000000000000000#64 = .ok .bld ∧ decode 0x2100000400000000#64 = .ok (.rdn 4) ∧
    decode 0x2200000100000000#64 = .ok (.rdw 1) := by decide

/-- G5 and G12's words among them. -/
theorem test_decode_codes : decode 0x3000000000000000#64 = .ok .gen ∧ decode 0x3100004200000001#64 = .ok (.rdc 66 1) ∧
    decode 0x3100010000000007#64 = .ok (.rdc 256 7) := by decide

theorem test_decode_header : decode 0x4000000000000000#64 = .ok .mgw ∧ decode 0x4100000000000000#64 = .ok .mgr ∧
    decode 0x4200000000000000#64 = .ok .hdw ∧ decode 0x4300000000000000#64 = .ok .hdr := by decide

theorem test_decode_body : decode 0x5000000000000000#64 = .ok .enc ∧ decode 0x5100000000000000#64 = .ok .dec ∧
    decode 0x5200000000000000#64 = .ok .dsym := by decide

/-- The host's word is the one the next step runs: `RDS 8` answers `CONFIG` (E3). -/
theorem test_fetch : decodeTableWord 64 0x0200000800000000 = some (.rds 8) ∧
    (step (State.reset.withFetchWord 64 0x0200000800000000) = exec (.rds 8) State.reset) := ⟨by decide, rfl⟩

/-- The syntax of R98, as the examples of R120 and R152 write it. -/
theorem test_asm : (Instr.ldf 65 2).asm = "LDF 65, 2" ∧ (Instr.rdc 256 0).asm = "RDC 256, 0" ∧ Instr.dsym.asm = "DSYM" := by
  decide

/-! ## Small states -/

/-- The block after reset with `bits` attached to IN. -/
def withIn (bits : List Bool) : State := { State.reset with inBits := bits }

/-- The response a step offers. -/
def answer (o : StepResult) : Option Response :=
  match o with
  | .next t => t.rsp
  | .fault _ => none
  | .refused _ => none

/-- A test on the state a step leaves. -/
def left (p : State → Bool) (o : StepResult) : Bool :=
  match o with
  | .next t => p t
  | .fault _ => false
  | .refused _ => false

/-- The table of V1: 65 twice, 66 once. -/
def counted : State := (State.reset.setFreq 65 2).setFreq 66 1

/-- The arena of H1, `ROOT` = 0, with `bits` on IN. -/
def treed (bits : List Bool) : State :=
  { withIn bits with
    nodes := [Node.mkInt 1 2 0, Node.mkLeaf 65 0, Node.mkInt 3 4 0, Node.mkLeaf 66 0, Node.mkLeaf 256 0], root := 0 }

/-- The tree of H1. -/
def treeH1 : CodeTree := .node (.leaf 65 0) (.node (.leaf 66 0) (.leaf 256 0) 0) 0

/-- The arena of H1 and the code table of V1. -/
def coded (bits : List Bool) : State := { treed bits with code := tableOf treeH1, codeOk := true }

/-- The header of V1, 32 bits (R163's example). -/
def headerV1 : List Bool := msbBits 0b01001000001010010000101100000000#32

/-- The body of V1, 6 bits. -/
def bodyV1 : List Bool := msbBits 0b001011#6

/-- A block in error after H13 (`CAUSE` = 1, `INFO` = `0xFACE8200`). -/
def inError : State := { State.reset with cause := 1, info := 0xFACE8200 }

/-- The block after reset, the host presenting `e` next. -/
def facing (e : HostEvent) : State := { State.reset with host := [e] }

/-! ## One or two steps per command -/

/-- X5: `CLR` leaves the error. -/
theorem test_clr : answer (exec .clr inError) = some ⟨0, 0⟩ ∧
    left (fun t => t.cause == 0 && t.info == 0 && t.statusWord == 0) (exec .clr inError) = true := by decide +kernel

/-- E2, E3. -/
theorem test_rds : answer (exec (.rds 3) State.reset) = some ⟨0, 0x3FF⟩ ∧
    answer (exec (.rds 8) State.reset) = some ⟨0, 0x03008060⟩ := by decide +kernel

/-- X4, X3: in error `RDS 1` answers the cause, and `RDS 12` is a `BadOperand` that changes neither register. -/
theorem test_rds_in_error : answer (exec (.rds 1) inError) = some ⟨0, 1⟩ ∧
    answer (exec (.rds 12) inError) = some ⟨5, 0⟩ ∧
    left (fun t => t.cause == 1 && t.info == 0xFACE8200) (exec (.rds 12) inError) = true := by decide +kernel

/-- E12. -/
theorem test_fls : left (fun t => t.outItems == [.flush]) (exec .fls State.reset) = true := by decide +kernel

/-- P6: in error it is refused and appends nothing. -/
theorem test_fls_refused : answer (exec .fls inError) = some ⟨0x0C, 0⟩ ∧
    left (fun t => t.outItems == []) (exec .fls inError) = true := by decide +kernel

/-- F6, F7. -/
theorem test_ldf : left (fun t => t.freqAt 65 == 2) (exec (.ldf 65 2) State.reset) = true ∧
    left (fun t => t.freqAt 256 == 1) (exec (.ldf 256 7) State.reset) = true := by decide +kernel

/-- F8. -/
theorem test_ldf_bad : left (fun t => t.cause == 5 && t.info == 0x1000010100000005)
    (exec (.ldf 257 5) State.reset) = true := by decide +kernel

/-- R121's example, F7. -/
theorem test_rdf : answer (exec (.rdf 66) counted) = some ⟨0, 1⟩ ∧
    answer (exec (.rdf 256) counted) = some ⟨0, 1⟩ ∧ answer (exec (.rdf 65) counted) = some ⟨0, 2⟩ := by decide +kernel

/-- F1. -/
theorem test_cnt : left (fun t => t.freqAt 65 == 2 && t.freqAt 66 == 1 && t.freqAt 67 == 0 && t.inPos == 0)
    (exec .cnt (withIn (bitsOfBytes [0x41, 0x41, 0x42]))) = true := by decide +kernel

/-- F4: the last three bits are not counted. -/
theorem test_cnt_tail : left (fun t => t.freqAt 65 == 2 && t.freqAt 66 == 0 && t.inPos == 0)
    (exec .cnt (withIn (bitsOfBytes [0x41, 0x41] ++ [false, true, false]))) = true := by decide +kernel

/-- T1's frequency table. -/
theorem counted_freq (i : Nat) : counted.freqAt i = if i = 66 then 1 else if i = 65 then 2 else if i < 256 then 0 else 1 := by
  rw [counted, State.freqAt_setFreq, State.freqAt_setFreq]
  have h : State.reset.freqAt i = if i < 256 then 0 else 1 := State.freqAt_clearFreq State.reset i
  rw [h]
  split_ifs <;> first | rfl | omega

theorem counted_positive : positiveSyms counted = [65, 66, 256] := by
  have h : positiveSyms counted = (List.range 257).filter fun i => i == 66 || i == 65 || i == 256 :=
    List.filter_congr fun i hi => by
      have hi := List.mem_range.mp hi
      rw [counted_freq]
      by_cases h1 : i = 66
      · simp [h1]
      · by_cases h2 : i = 65
        · simp [h2]
        · by_cases h3 : i < 256
          · simp [h1, h2, h3, show i ≠ 256 by omega]
          · simp [show i = 256 by omega]
  rw [h]
  decide +kernel

/-- T1: leaves for 65, 66 and the sentinel in this order, then two merges. -/
theorem test_bld : left (fun t => t.root == 4 && t.nn == 5 && t.seq == 5 &&
    t.nodes.drop 3 == [Node.mkInt 1 2 2, Node.mkInt 0 3 4]) (exec .bld counted) = true := by
  have h : positiveSyms { counted.discardTree with seq := 0, pq := [] } = [65, 66, 256] := counted_positive
  show left _ (unlessInError counted (.next ((buildTree counted).respond 0))) = true
  rw [buildTree, createLeaves_eq, h]
  decide +kernel

/-- T2: one entry in the queue. -/
theorem test_bld_single : (growTree (makeLeaf 256 State.reset)).root = 2 ∧ (growTree (makeLeaf 256 State.reset)).seq = 1 ∧
    (growTree (makeLeaf 256 State.reset)).nodes = [Node.mkLeaf 256 1, Node.mkLeaf 256 0, Node.mkInt 0 1 1] := by
  decide +kernel

/-- T1: `RDN 4` and `RDN 2` (the weights are no part of a record). -/
theorem test_rdn : Node.record (Node.mkInt 0 3 4) = 0x00600001 ∧
    answer (exec (.rdn 4) (treed [])) = some ⟨0, 0x7FFFFC03⟩ ∧ answer (exec (.rdn 5) (treed [])) = some ⟨0, 0⟩ := by
  decide +kernel

/-- T9: `RDW 4`; T1: `RDN 5` reads no entry, and so does `RDW 5`. -/
theorem test_rdw : Node.weightRecord (Node.mkInt 1 3 0x1FFFFFFFF) = 0x80000001FFFFFFFF ∧
    answer (exec (.rdw 4) (treed [])) = some ⟨0, 0x8000000000000000⟩ ∧ answer (exec (.rdw 5) (treed [])) = some ⟨0, 0⟩ := by
  decide +kernel

/-- R151's example: 65 is `0`, 66 is `10`, 256 is `11`. -/
theorem test_gen : left (fun t => t.codeOk && t.codeAt 65 == ⟨true, 1, [false]⟩ && t.codeAt 66 == ⟨true, 2, [true, false]⟩ &&
    t.codeAt 256 == ⟨true, 2, [true, true]⟩ && t.codeAt 67 == ⟨false, 0, []⟩) (exec .gen (treed [])) = true := by
  decide +kernel

/-- G9. -/
theorem test_gen_no_tree : left (fun t => t.cause == 6 && t.info == 0x3000000000000000) (exec .gen State.reset) = true := by
  decide +kernel

/-- G2, G5. -/
theorem test_rdc : answer (exec (.rdc 66 0) (coded [])) = some ⟨0, 0x8000000280000000⟩ ∧
    answer (exec (.rdc 66 1) (coded [])) = some ⟨0, 0x8000000200000000⟩ := by decide +kernel

/-- H11 with R160's bits. -/
theorem test_mgw : left (fun t => outBitsOf t.outItems == msbBits 0b11111010110011101000001000000001#32)
    (exec .mgw State.reset) = true := by decide +kernel

/-- H12, H13. -/
theorem test_mgr : left (fun t => t.inPos == 32) (exec .mgr (withIn (bitsOfBytes [0xFA, 0xCE, 0x82, 0x01, 0x48]))) = true ∧
    left (fun t => t.cause == 1 && t.info == 0xFACE8200 && t.inPos == 32)
      (exec .mgr (withIn (bitsOfBytes [0xFA, 0xCE, 0x82, 0x00, 0x48]))) = true := by decide +kernel

/-- H14. -/
theorem test_mgr_short : left (fun t => t.cause == 1 && t.info == 0x100000000 && t.inPos == 0)
    (exec .mgr (withIn (bitsOfBytes [0xFA, 0xCE, 0x82]))) = true := by decide +kernel

/-- R163's example. -/
theorem test_hdw : left (fun t => outBitsOf t.outItems == headerV1) (exec .hdw (treed [])) = true := by decide +kernel

/-- H1. -/
theorem test_hdr : left (fun t => t.nodes == (treed []).nodes && t.root == 0 && t.inPos == 32)
    (exec .hdr (withIn headerV1)) = true := by decide +kernel

/-- H5, H6b: four nodes counted when the field of the fourth is cut; a field of 511 before the root check. -/
theorem test_hdr_faults : left (fun t => t.cause == 2 && t.info == 4 && t.inPos == 13 && t.nn == 0)
      (exec .hdr (withIn (msbBits 0b0100100000101#13))) = true ∧
    left (fun t => t.cause == 8 && t.info == 511) (exec .hdr (withIn (msbBits 0b1111111111#10))) = true := by decide +kernel

/-- B1. -/
theorem test_enc : left (fun t => outBitsOf t.outItems == bodyV1 && t.inPos == 24)
    (exec .enc (coded (bitsOfBytes [0x41, 0x41, 0x42]))) = true := by decide +kernel

/-- B3, and B4's kind: the byte after `41` has no code here (67 is not in the tree). -/
theorem test_enc_faults : left (fun t => t.cause == 6 && t.inPos == 0) (exec .enc (treed (bitsOfBytes [0x41]))) = true ∧
    left (fun t => t.cause == 11 && t.info == 0x43 && t.inPos == 16 && outBitsOf t.outItems == [false])
      (exec .enc (coded (bitsOfBytes [0x41, 0x43]))) = true := by decide +kernel

/-- B6, B11: the bits after the sentinel's code are not read. -/
theorem test_dec : left (fun t => outBitsOf t.outItems == bitsOfBytes [0x41, 0x41, 0x42] && t.done && t.cur == 4 &&
    t.inPos == 6) (exec .dec (treed (bodyV1 ++ [false, true]))) = true := by decide +kernel

/-- B8. -/
theorem test_dec_truncated : left (fun t => outBitsOf t.outItems == bitsOfBytes [0x41, 0x41] && t.cause == 3 && t.info == 2 &&
    t.inPos == 3) (exec .dec (treed (msbBits 0b001#3))) = true := by decide +kernel

/-- B7's first and fourth. -/
theorem test_dsym : answer (exec .dsym (treed bodyV1)) = some ⟨0, 0x041⟩ ∧
    answer (exec .dsym (treed (msbBits 0b11#2))) = some ⟨0, 0x300⟩ ∧
    left (fun t => t.done && t.cur == 4 && t.inPos == 2) (exec .dsym (treed (msbBits 0b11#2))) = true := by decide +kernel

/-- X1, X6: an illegal word in error answers `IllegalCommand` and keeps the first cause. -/
theorem test_illegal_in_error : answer (runWord 0x2000000000000001#64 inError) = some ⟨4, 0⟩ ∧
    left (fun t => t.cause == 1 && t.info == 0xFACE8200) (runWord 0xFF00000000000000#64 inError) = true := by decide +kernel

/-- The byte view of R69 with `PAD` = 0: V1's body after its header and magic ends in the byte `2C`. -/
theorem test_bytes : bytesOfBits false bodyV1 = [0x2C] ∧ bytesOfBits false headerV1 = [0x48, 0x29, 0x0B, 0x00] := by
  decide +kernel

/-- The class of R212: the six causes of a malformed input. -/
theorem test_malformed : ([.badMagic, .truncatedHeader, .truncatedBody, .badSymbol, .treeOverflow, .degenerateTree].all
    Cause.malformed) = true ∧ ([.illegalCommand, .badOperand, .sequenceError, .countOverflow, .missingCode].any
    Cause.malformed) = false := by decide

/-! ## Witnesses: for each statement with hypotheses, a state and operands that meet them -/

/-- The arena of H1 is sound. -/
theorem treed_arena (bits : List Bool) : ArenaOk (treed bits) where
  empty h := by simp [treed] at h
  size := by simp [treed]
  reached _ := ⟨[0, 1, 2, 3, 4], rfl, .refl _⟩
  rootInt _ := ⟨Node.mkInt 1 2 0, rfl, rfl⟩
  records n hn := by
    simp only [treed, List.mem_cons, List.not_mem_nil, or_false] at hn
    rcases hn with rfl | rfl | rfl | rfl | rfl
    · exact ⟨rfl, rfl⟩
    · exact ⟨by decide, rfl, rfl⟩
    · exact ⟨rfl, rfl⟩
    · exact ⟨by decide, rfl, rfl⟩
    · exact ⟨by decide, rfl, rfl⟩

theorem treed_tree (bits : List Bool) : (treed bits).tree = some treeH1 := rfl

theorem witness_encodeOfADecodedWord : decode 0x0200000300000000#64 = .ok (.rds 3) := by decide

theorem witness_stepRuns : (facing (.command 0x3100010000000007#64)).rsp = none ∧
    (facing (.command 0x3100010000000007#64)).host = [.command 0x3100010000000007#64] ∧
    decode 0x3100010000000007#64 = .ok (.rdc 256 7) := ⟨rfl, rfl, by decide⟩

/-- Both clauses: not in error, in error. -/
theorem witness_illegalWord : legalWord 0x5300000000000000#64 = false ∧
    (facing (.command 0x5300000000000000#64)).rsp = none ∧ (facing (.command 0x5300000000000000#64)).cause = 0#5 ∧
    inError.cause ≠ 0#5 ∧ inError.rsp = none := ⟨by decide, rfl, rfl, by decide, rfl⟩

/-- The four clauses. -/
theorem witness_oneResponse : State.reset.host = [] ∧
    (State.refuse (facing (.command 0x0100000000000000#64))).rsp ≠ none ∧
    (facing .takeResponse).host = [.takeResponse] ∧
    step (facing (.command 0x0100000000000000#64)) = .next (State.reset.clearBlock.respond 0) :=
  ⟨rfl, by decide, rfl, rfl⟩

theorem witness_reset : (facing .reset).host = [.reset] := rfl

/-- A reset during `MGW`: before its one stream operation, and after all of them. -/
theorem witness_resetDuring : ∃ t, runWord 0x4000000000000000#64 State.reset = .next t ∧ t.ops.length = 1 ∧
    (facing (.resetDuring 0x4000000000000000#64 0)).host = [.resetDuring 0x4000000000000000#64 0] ∧
    (facing (.resetDuring 0x4000000000000000#64 1)).rsp = none := ⟨_, rfl, rfl, rfl, rfl⟩

/-- A reset in the middle of `HDW`: of the eight writes of H1's header three were performed, the tags and the field of the
first leaf. -/
theorem witness_resetDuringMiddle : (∃ t, runWord 0x4200000000000000#64 (treed []) = .next t ∧ t.ops.length = 8) ∧
    left (fun u => outBitsOf u.outItems == headerV1.take 11 && u.inPos == 0 && u.root == 0x3FF)
      (step { treed [] with host := [.resetDuring 0x4200000000000000#64 3] }) = true := ⟨⟨_, rfl, rfl⟩, by decide +kernel⟩

theorem witness_fls : State.reset.cause = 0#5 ∧ inError.cause ≠ 0#5 := ⟨rfl, by decide⟩

theorem witness_rds : State.reset.pq = [] ∧ 9 < (10#10).toNat ∧ State.reset.cause = 0#5 ∧ inError.cause ≠ 0#5 := by decide

/-- The three clauses, at the ends of the ranges. -/
theorem witness_ldf : State.reset.cause = 0#5 ∧ (256#10).toNat ≤ 256 ∧ (0#10).toNat ≤ 256 ∧ 256 < (257#10).toNat ∧
    inError.cause ≠ 0#5 := ⟨rfl, by decide, by decide, by decide, by decide⟩

theorem witness_rdf : (255#10).toNat < 256 ∧ (256#10).toNat = 256 ∧ 256 < (257#10).toNat ∧ State.reset.cause = 0#5 ∧
    inError.cause ≠ 0#5 := by decide

theorem witness_cnt : ∀ v : Byte, (takeBytes (withIn (bitsOfBytes [0x41, 0x41, 0x42])).ahead).count v < 2 ^ 32 := by
  intro v
  have h := List.count_le_length (a := v) (l := takeBytes (withIn (bitsOfBytes [0x41, 0x41, 0x42])).ahead)
  have e : (takeBytes (withIn (bitsOfBytes [0x41, 0x41, 0x42])).ahead).length = 3 := by decide +kernel
  omega

/-- `n + 1` bytes of 0 on IN. -/
theorem zero_bytes (n : Nat) : ∃ (s : State) (pre post : List Byte) (v : Byte), s.cause = 0#5 ∧
    takeBytes s.ahead = pre ++ v :: post ∧ (∀ u : Byte, pre.count u ≤ n) ∧ pre.count v = n := by
  refine ⟨withIn (bitsOfBytes (List.replicate n 0 ++ [0])), List.replicate n 0, [], 0, rfl, ?_, fun u => ?_, ?_⟩
  · have h := takeBytes_bitsOfBytes (List.replicate n 0 ++ [0]) [] (Nat.zero_lt_succ 7)
    rw [List.append_nil] at h
    exact h
  · have h := List.count_le_length (a := u) (l := List.replicate n (0 : Byte))
    rwa [List.length_replicate] at h
  · exact List.count_replicate_self

/-- F5: `2^32` bytes of 0. -/
theorem witness_cntOverflow : ∃ (s : State) (pre post : List Byte) (v : Byte), s.cause = 0#5 ∧
    takeBytes s.ahead = pre ++ v :: post ∧ (∀ u : Byte, pre.count u < 2 ^ 32) ∧ pre.count v = 2 ^ 32 - 1 := by
  obtain ⟨s, pre, post, v, h1, h2, h3, h4⟩ := zero_bytes (2 ^ 32 - 1)
  exact ⟨s, pre, post, v, h1, h2, fun u => Nat.lt_of_le_of_lt (h3 u) (Nat.sub_lt (Nat.two_pow_pos 32) Nat.one_pos), h4⟩

/-- Two entries, the second with the less weight, and an empty queue. -/
theorem witness_extractMin : extractMin [] = none ∧
    extractMin [⟨2, 0, 0⟩, ⟨1, 1, 1⟩] = some (⟨1, 1, 1⟩, [⟨2, 0, 0⟩]) ∧
    extractMin [⟨2, 0, 0⟩] = some (⟨2, 0, 0⟩, []) := by decide

theorem witness_bld : counted.cause = 0#5 := rfl

/-- Three positive counts, so that entries 3 and 4 are merges. -/
theorem witness_bldMerges : counted.cause = 0#5 ∧ 2 ≤ (positiveSyms counted).length ∧ (positiveSyms counted).length ≤ 3 ∧
    4 < 2 * (positiveSyms counted).length - 1 := by rw [counted_positive]; decide

/-- Three positive counts. -/
theorem witness_bldLeaves : ∃ t, exec .bld counted = .next t ∧ 2 ≤ (positiveSyms counted).length :=
  ⟨_, rfl, by rw [counted_positive]; decide⟩

theorem witness_bldEmpty : State.reset.cause = 0#5 ∧ ∀ i, i < 256 → State.reset.freqAt i = 0#32 :=
  ⟨rfl, fun i hi => by simp [State.freqAt, State.reset, hi]⟩

/-- The same counts in two different states. -/
theorem witness_bldDetermined : ∃ s s' t t' : State, s ≠ s' ∧ s.cause = 0#5 ∧ s'.cause = 0#5 ∧ s.freq = s'.freq ∧
    exec .bld s = .next t ∧ exec .bld s' = .next t' :=
  ⟨counted, { counted with inPos := 1 }, _, _, fun h => absurd (congrArg State.inPos h) (by decide), rfl, rfl, rfl, rfl, rfl⟩

/-- Entry 512 is not allocated, entry 4 is, 513 is past the arena. -/
theorem witness_rdn : (512#10).toNat ≤ 512 ∧ (treed []).nodes.length ≤ (512#10).toNat ∧
    (treed []).nodes[(4#10).toNat]? = some (Node.mkLeaf 256 0) ∧ 512 < (513#10).toNat := by decide

/-- A tree, no tree, in error. -/
theorem witness_gen : (treed []).cause = 0#5 ∧ (treed []).root ≠ 0x3FF#10 ∧ (treed []).tree = some treeH1 ∧
    State.reset.root = 0x3FF#10 ∧ State.reset.cause = 0#5 ∧ inError.cause ≠ 0#5 :=
  ⟨rfl, by decide, rfl, rfl, rfl, by decide⟩

/-- Two valid entries at 65 and at the last index. -/
theorem witness_genPrefix : ∃ u, exec .gen (treed []) = .next u ∧ u.cause = 0#5 ∧ (u.codeAt 65).valid = true ∧
    (u.codeAt 256).valid = true := ⟨_, rfl, rfl, by decide +kernel, by decide +kernel⟩

theorem witness_genLengths : ArenaOk (treed []) ∧ (treed []).cause = 0#5 := ⟨treed_arena [], rfl⟩

theorem witness_rdc : (256#10).toNat ≤ 256 ∧ 256 < (257#10).toNat ∧ State.reset.cause = 0#5 ∧ inError.cause ≠ 0#5 := by decide

/-- The four clauses: the magic, another value, 31 bits, in error. -/
theorem witness_mgr : (withIn (msbBits State.reset.magic)).ahead = msbBits (withIn (msbBits State.reset.magic)).magic ++ [] ∧
    0#32 ≠ State.reset.magic ∧ (withIn (msbBits 0#32)).ahead = msbBits 0#32 ++ [] ∧
    (withIn (List.replicate 31 true)).ahead.length < 32 ∧ inError.cause ≠ 0#5 := by decide +kernel

theorem witness_selfDelimiting : ∃ (t u : CodeTree) (rest rest' : List Bool), t ≠ u ∧ t.hdr ++ rest = u.hdr ++ rest' :=
  ⟨.leaf 65 0, .leaf 65 1, [true], [true], by decide, by decide +kernel⟩

theorem witness_hdrReadsBack : (withIn (headerV1 ++ [true])).cause = 0#5 ∧
    (withIn (headerV1 ++ [true])).ahead = treeH1.hdr ++ [true] ∧ treeH1.isLeaf = false ∧ treeH1.leaves ≤ 257 ∧
    ∀ sym ∈ treeH1.syms, sym.toNat ≤ 256 := by decide +kernel

/-- H2. -/
theorem witness_hdrFaults : ∃ u, exec .hdr State.reset = .next u ∧ u.cause ≠ 0#5 := ⟨_, rfl, by decide⟩

/-- H6c with the greatest symbol, and H4's kind: 11 bits of H1's header. -/
theorem witness_hdrNames : (withIn (true :: msbBits 256#9)).ahead = true :: msbBits 256#9 ++ [] ∧
    (withIn (headerV1.take 11)).ahead <+: treeH1.hdr ∧ (withIn (headerV1.take 11)).ahead ≠ treeH1.hdr := by decide +kernel

/-- The items before the fault: none; H5's and H6's; 513 nodes, as in H7b and H7c. -/
theorem witness_openHeader : OpenHeader [] ∧ OpenHeader [.node, .leaf 256, .node] ∧
    OpenHeader (List.replicate 513 .node) :=
  ⟨⟨by decide, by simp, by decide⟩, ⟨by decide, by simp, by decide⟩,
    ⟨by decide +kernel, (fun sym h => by cases List.eq_of_mem_replicate h), by decide +kernel⟩⟩

/-- The four faults, at the ends of their ranges: H2 and H7b; H5b (8 of 9 bits); H6 and H6b; H7c. -/
theorem witness_headerFault : HeaderFault 0 [] 2 0 0 ∧ HeaderFault 513 [] 2 513 0 ∧
    HeaderFault 3 (true :: msbBits 0b00100001#8) 2 4 1 ∧ HeaderFault 1 (true :: msbBits 257#9 ++ [true]) 8 257 10 ∧
    HeaderFault 0 (true :: msbBits 511#9 ++ []) 8 511 10 ∧ HeaderFault 513 [true] 9 513 1 :=
  ⟨.noTag, .noTag, .cutField _ (by decide) (by decide), .badSymbol 257 _ (by decide) (by decide),
    .badSymbol 511 _ (by decide) (by decide), .tooMany _ _ rfl⟩

/-- H5b whole: `INFO` = 4 and the 8 bits not consumed; and H6: an inner leaf's field. -/
theorem witness_hdrCut : (withIn (itemBits [.node, .leaf 65, .node] ++ true :: msbBits 0b00100001#8)).cause = 0#5 ∧
    left (fun t => t.cause == 2 && t.info == 4 && t.inPos == 13)
      (exec .hdr (withIn (itemBits [.node, .leaf 65, .node] ++ true :: msbBits 0b00100001#8))) = true ∧
    left (fun t => t.cause == 8 && t.info == 257 && t.inPos == 11)
      (exec .hdr (withIn (itemBits [.node] ++ (true :: msbBits 257#9 ++ [true])))) = true := by decide +kernel

theorem witness_enc : (coded (bitsOfBytes [0x41])).cause = 0#5 ∧ (coded (bitsOfBytes [0x41])).codeOk = true ∧
    (∀ b ∈ takeBytes (coded (bitsOfBytes [0x41])).inBits, ((coded (bitsOfBytes [0x41])).codeAt b.toNat).valid = true) ∧
    ((coded (bitsOfBytes [0x41])).codeAt 256).valid = true := by decide +kernel

/-- A byte without a code after one that has one; and a table in which the sentinel has none (H9's tree). -/
theorem witness_encMissing : takeBytes (coded (bitsOfBytes [0x41, 0x43])).inBits = [0x41] ++ 0x43 :: [] ∧
    (∀ a ∈ [(0x41 : Byte)], ((coded (bitsOfBytes [0x41, 0x43])).codeAt a.toNat).valid = true) ∧
    ((coded (bitsOfBytes [0x41, 0x43])).codeAt (0x43 : Byte).toNat).valid = false ∧
    ((State.codeAt { coded [] with code := tableOf (.node (.leaf 65 0) (.leaf 66 0) 0) } 256).valid = false ∧
      takeBytes (coded []).inBits = []) := by decide +kernel

/-- The sentinel's path and a byte's. -/
theorem witness_dsym : (treed bodyV1).cause = 0#5 ∧ (treed bodyV1).root ≠ 0x3FF#10 ∧ (treed bodyV1).done = false ∧
    (treed bodyV1).tree = some treeH1 ∧ treeH1.isLeaf = false ∧ (256#9, [true, true]) ∈ treeH1.codes [] ∧
    (65#9, [false]) ∈ treeH1.codes [] ∧ (treed [true, true]).ahead = [true, true] ++ [] ∧
    (treed bodyV1).ahead = [false] ++ [false, true, false, true, true] := by decide +kernel

/-- IN ends inside a code (B8: on node 2), and before one (B9: at the root). -/
theorem witness_dsymTruncated : walkFrom (treed []).nodes 0 [true] = some 2 ∧ walkFrom (treed []).nodes 0 [] = some 0 ∧
    (256#9, [true, true]) ∈ treeH1.codes [] ∧ (treed [true]).ahead <+: [true, true] ∧
    (treed [true]).ahead ≠ [true, true] ∧ (treed []).ahead <+: [true, true] ∧ (treed []).ahead = [] := by decide +kernel

theorem witness_dec : Body treeH1 [65, 65, 66] [false, false, true, false] ∧ (256#9, [true, true]) ∈ treeH1.codes [] ∧
    (treed bodyV1).ahead = [false, false, true, false] ++ [true, true] ++ [] :=
  ⟨.cons 65 [false] _ _ (by decide) (by decide) (.cons 65 [false] _ _ (by decide) (by decide)
    (.cons 66 [true, false] _ _ (by decide) (by decide) .nil)), by decide, by decide +kernel⟩

theorem witness_decIsDsym : ∃ u, exec .dec (treed bodyV1) = .next u := by
  have e : left (fun _ => true) (exec .dec (treed bodyV1)) = true := by decide +kernel
  cases h : exec .dec (treed bodyV1) with
  | next u => exact ⟨u, rfl⟩
  | fault f => rw [h] at e; cases e
  | refused r => rw [h] at e; cases e

/-- The three clauses. -/
theorem witness_refused : inError.cause ≠ 0#5 ∧ Instr.bld ≠ .clr ∧ (∀ n, Instr.bld ≠ .rds n) ∧ (∀ n, Instr.bld ≠ .rdf n) ∧
    (∀ n, Instr.bld ≠ .rdn n) ∧ (∀ n, Instr.bld ≠ .rdw n) ∧ (∀ n c, Instr.bld ≠ .rdc n c) ∧
    Instr.isRead (.rdn 512) = true ∧ Instr.operandInRange (.rdn 512) = true := by simp [inError, Instr.isRead, Instr.operandInRange]

theorem witness_firstFault : ∃ t, exec .bld inError = .next t ∧ inError.cause ≠ 0#5 := ⟨_, rfl, by decide⟩

/-- One end with status `OK` and one at a fault. -/
theorem witness_response : ∃ t u, exec .fls State.reset = .next t ∧ exec .gen State.reset = .next u ∧
    t.cause = 0 ∧ u.cause = 6 := ⟨_, _, rfl, rfl, rfl, rfl⟩

/-- A state for each cause a command can latch but `CountOverflow` (`witness_cntOverflow`) and `TreeOverflow`
(`witness_hdrNames`). -/
theorem witness_causes : left (fun t => t.cause == 1) (exec .mgr State.reset) = true ∧
    left (fun t => t.cause == 2) (exec .hdr State.reset) = true ∧
    left (fun t => t.cause == 3) (exec .dec (treed [])) = true ∧
    left (fun t => t.cause == 5) (exec (.rds 10) State.reset) = true ∧
    left (fun t => t.cause == 6) (exec .enc State.reset) = true ∧
    left (fun t => t.cause == 8) (exec .hdr (withIn (true :: msbBits 257#9))) = true ∧
    left (fun t => t.cause == 10) (exec .hdr (withIn (true :: msbBits 65#9))) = true ∧
    left (fun t => t.cause == 11) (exec .enc (coded (bitsOfBytes [0x43]))) = true := by decide +kernel

/-- Both clauses, at the first index past the space. -/
theorem witness_badOperand : Instr.operandInRange (.rdn 513) = false ∧ State.reset.cause = 0#5 ∧ inError.cause ≠ 0#5 ∧
    Instr.isRead (.rdn 513) = true := by decide

/-- No tree, no table, and a halted walker. -/
theorem witness_precondition : State.reset.root = 0x3FF#10 ∧ State.reset.codeOk = false ∧ State.reset.cause = 0#5 ∧
    { treed [] with done := true }.done = true := by decide

theorem witness_read : Instr.isRead (.rds 9) = true ∧ Instr.operandInRange (.rds 9) = true ∧
    Instr.isRead (.rdc 256 7) = true ∧ Instr.operandInRange (.rdc 256 7) = true := by decide

theorem witness_pieces : ∃ t, exec .mgw State.reset = .next t ∧ Instr.mgw ≠ .clr ∧ Instr.mgw ≠ .bld ∧ Instr.mgw ≠ .hdr ∧
    Instr.mgw ≠ .gen ∧ Instr.mgw ≠ .dec ∧ Instr.mgw ≠ .dsym ∧ Instr.mgw ≠ .cnt := ⟨_, rfl, by decide⟩

/-- The invariants hold of the block with H1's tree and V1's table, and a step runs from it: the host's next word is `RDS 0`. -/
theorem witness_invariants : ∃ s t, ArenaOk s ∧ CodeOk s ∧ WalkerOk s ∧ FaultOk s ∧ s.pq = [] ∧
    s.inPos ≤ s.inBits.length ∧ s.root ≠ 0x3FF#10 ∧ step s = .next t ∧ s ≠ t := by
  refine ⟨{ coded [] with host := [.command 0x0200000000000000#64] }, _, (treed_arena []).congr rfl rfl,
    ⟨fun _ => ⟨by decide, treeH1, rfl, rfl⟩, fun h => by simp [coded] at h⟩,
    ⟨fun h => by simp [coded, treed, withIn, State.reset] at h, fun _ => .inl rfl, fun h => by simp [coded, treed] at h⟩,
    ⟨by decide, fun _ => rfl, fun r h => by simp [coded, treed, withIn, State.reset] at h⟩, rfl, Nat.le_refl _, by decide, rfl,
    fun h => ?_⟩
  exact absurd (congrArg State.rsp h) (by decide)

theorem witness_wholeCalls : (∀ v : Byte, ([0x41] : List Byte).count v < 2 ^ 32) ∧
    (withIn (bitsOfBytes [0x41])).inBits = bitsOfBytes [0x41] ∧ (withIn (bitsOfBytes [0x41])).inPos = 0 ∧
    (withIn (bitsOfBytes [0x41])).outItems = [] :=
  ⟨fun v => Nat.lt_of_le_of_lt (List.count_le_length (a := v)) (by decide), rfl, rfl, rfl⟩

/-- The second run of the round trip: a block with the same magic, IN holding the bits the first run wrote. -/
theorem witness_secondRun (out : List OutItem) (pad : List Bool) :
    (withIn (outBitsOf out ++ pad)).magic = (withIn (bitsOfBytes [0x41])).magic ∧
    (withIn (outBitsOf out ++ pad)).inBits = outBitsOf out ++ pad ∧ (withIn (outBitsOf out ++ pad)).inPos = 0 ∧
    (withIn (outBitsOf out ++ pad)).outItems = [] := ⟨rfl, rfl, rfl, rfl⟩

end Sys2Proof.Machine.Tests
end

section
/-! PROOFS. What a reset leaves in every piece of the block (`10_state.md` R46) and what `STATUS` shows (R36): the facts about
the flags, `STATUS` and `resetBlock` first, then the two obligations. -/

namespace Sys2Proof.Machine

/-! ## The flags and `STATUS` -/

/-- The bits of `STATUS` (R36), least significant first. -/
theorem State.getLsbD_statusWord (s : State) (j : Nat) :
    s.statusWord.getLsbD j = [s.err, s.treeOk, s.codeOk, s.done].getD j false := by
  simp only [State.statusWord, BitVec.getLsbD_append, BitVec.getLsbD_ofBool]
  match j with
  | 0 | 1 | 2 | 3 => simp
  | j + 4 => simp

theorem State.err_eq_decide (s : State) : s.err = decide (s.cause ≠ 0#5) := by simp [State.err, bne, beq_eq_decide]

theorem State.treeOk_eq_decide (s : State) : s.treeOk = decide (s.root ≠ 0x3FF#10) := by
  simp [State.treeOk, bne, beq_eq_decide]

/-- Not in error, no tree, no code table and no halted walker: `STATUS` is 0. -/
theorem State.statusWord_eq_zero {s : State} (herr : s.err = false) (htree : s.treeOk = false) (hcode : s.codeOk = false)
    (hdone : s.done = false) : s.statusWord = 0 := by
  rw [State.statusWord, herr, htree, hcode, hdone]
  decide

/-! ## Reset -/

theorem State.freqAt_resetBlock (s : State) (i : Nat) : s.resetBlock.freqAt i = if i < 256 then 0 else 1 :=
  s.freqAt_clearFreq i

theorem State.codeAt_resetBlock (s : State) (i : Nat) : s.resetBlock.codeAt i = CodeEntry.invalid := s.codeAt_clearCode i

@[simp] theorem State.statusWord_resetBlock (s : State) : s.resetBlock.statusWord = 0 :=
  State.statusWord_eq_zero rfl rfl rfl rfl

/-- A reset depends on the state it meets in the constant and the environment only (R46, R67). -/
theorem State.resetBlock_eq_reset (s : State) :
    s.resetBlock = { State.reset with
      magic := s.magic, inBits := s.inBits, inPos := s.inPos, outItems := s.outItems, ops := s.ops, host := s.host } := rfl

/-! ## The obligations -/

/-- Settles O8, piece by piece: the two tables by what a read after a clear gives, `STATUS` by its flags, each register by
the law of `resetBlock` for it. -/
theorem resetLeavesEveryPieceAtItsResetValue : Obligations.ResetLeavesEveryPieceAtItsResetValue := by
  refine ⟨by decide, fun s => ⟨s.resetBlock, rfl, ?freqBytes, ?freqSent, rfl, s.resetBlock_nodes, s.resetBlock_pq, rfl,
    s.resetBlock_seq, fun i _ => s.codeAt_resetBlock i, s.resetBlock_codeOk, s.resetBlock_done, s.resetBlock_root,
    s.resetBlock_cur, s.resetBlock_cause, s.resetBlock_info, s.statusWord_resetBlock, s.resetBlock_magic, rfl, rfl, rfl,
    s.resetBlock_rsp, s.resetBlock_inBits, s.resetBlock_inPos, s.resetBlock_outItems, rfl, s.resetBlock_eq_reset⟩⟩
  case freqBytes =>
    intro i hi
    rw [State.freqAt_resetBlock, if_pos hi]
  case freqSent => exact s.resetBlock.freqAt_sent

/-- Settles O14: every bit is read off the list of the flags, which ends at bit 3. -/
theorem statusShowsTheFourFlags : Obligations.StatusShowsTheFourFlags := by
  refine ⟨State.statusWord_eq_zero rfl rfl rfl rfl, fun s => ⟨?err, ?tree, s.getLsbD_statusWord 2, s.getLsbD_statusWord 3, ?high⟩⟩
  case err => exact (s.getLsbD_statusWord 0).trans s.err_eq_decide
  case tree => exact (s.getLsbD_statusWord 1).trans s.treeOk_eq_decide
  case high =>
    intro j hj
    rw [State.getLsbD_statusWord]
    exact List.getD_eq_default _ _ hj

end Sys2Proof.Machine
end

section
/-! PROOFS. The decoder accepts exactly the legal words (`30_encoding.md` R94, R95): the decoder as a search through the rows of
the opcode map, and when such a search finds a command. -/

namespace Sys2Proof

/-- The must-be-zero check answers a command exactly when `RSV` and the unused fields are 0 (R94, R95). -/
theorem Fields.exists_check_ok_iff (f : Fields) (fmt : Format) (i : Instr) :
    (∃ j, f.check fmt i = .ok j) ↔ f.rsv = 0 ∧ fmt.unusedZero f = true := by
  constructor
  · rintro ⟨j, h⟩
    obtain ⟨hrsv, hzero, -⟩ := Fields.check_ok h
    exact ⟨hrsv, hzero⟩
  · rintro ⟨hrsv, hzero⟩
    exact ⟨i, by rw [Fields.check, if_pos hrsv, if_pos hzero]⟩

/-- The command each row of the opcode map gives the fields of a word, in the order of the rows (R93). -/
def Fields.commands (f : Fields) : List Instr :=
  [.clr, .rds f.idx, .fls, .ldf f.idx f.data, .rdf f.idx, .cnt, .bld, .rdn f.idx, .rdw f.idx, .gen, .rdc f.idx f.chunk, .mgw,
    .mgr, .hdw, .hdr, .enc, .dec, .dsym]

/-- A search through rows of the opcode map: the first row with the word's opcode checks the fields and answers its command. -/
def Fields.searchRows (f : Fields) : List (String × Format × BitVec 8) → List Instr → Except Reject Instr
  | r :: rows, i :: cmds => if f.op = r.2.2 then f.check r.2.1 i else f.searchRows rows cmds
  | _, _ => .error (.unknownOpcode f.op)

/-- The decoder is the search through the whole opcode map (R93, R94). -/
theorem Fields.decode_eq_searchRows (f : Fields) : f.decode = f.searchRows opTable f.commands := rfl

/-- No two rows share an opcode (R93). -/
theorem opTable_opcodes_nodup : (opTable.map fun r => r.2.2).Nodup := by decide

/-- Where no two rows share an opcode, the search finds a command exactly when `RSV` is 0 and some row has the word's opcode and
finds its unused fields 0. -/
theorem Fields.exists_searchRows_ok_iff (f : Fields) (rows : List (String × Format × BitVec 8)) :
    ∀ cmds : List Instr, rows.length = cmds.length → (rows.map fun r => r.2.2).Nodup →
      ((∃ i, f.searchRows rows cmds = .ok i) ↔
        f.rsv = 0 ∧ ∃ r ∈ rows, f.op = r.2.2 ∧ r.2.1.unusedZero f = true) := by
  induction rows with
  | nil => simp [Fields.searchRows]
  | cons r rows ih =>
    intro cmds hlen hnodup
    obtain ⟨i, cmds, rfl⟩ := List.exists_cons_of_length_eq_add_one hlen.symm
    obtain ⟨hfresh, hnodup⟩ := List.nodup_cons.mp hnodup
    rw [Fields.searchRows, List.exists_mem_cons_iff]
    by_cases hop : f.op = r.2.2
    · have hother : ¬ ∃ q ∈ rows, f.op = q.2.2 ∧ q.2.1.unusedZero f = true := by
        rintro ⟨q, hq, hqop, -⟩
        exact hfresh (List.mem_map.mpr ⟨q, hq, hqop.symm.trans hop⟩)
      rw [if_pos hop, Fields.exists_check_ok_iff, or_iff_left hother, and_iff_right hop]
    · rw [if_neg hop, ih cmds (Nat.succ.inj hlen) hnodup]
      simp only [hop, false_and, false_or]

/-- Settles O3: both sides say that `RSV` is 0 and that some row of the opcode map has the word's opcode and finds its unused
fields 0, the decoder as a search through the rows and `legalWord` by its masks. -/
theorem decodeAcceptsExactlyTheLegalWords : Obligations.DecodeAcceptsExactlyTheLegalWords := by
  intro w
  rw [legalWord_iff, decode, Fields.decode_eq_searchRows]
  exact (Fields.ofWord w).exists_searchRows_ok_iff opTable _ rfl opTable_opcodes_nodup

end Sys2Proof
end

section
/-! PROOFS. `COMPRESS` (`30_encoding.md` R99, R100): one lemma per command of it for a state in which the command answers `OK`,
the tree `BLD` makes with the codes `GEN` gives its symbols, then the two halves of the sequence: `CLR` to `GEN`, which make the
code table, and `MGW` to `FLS`, which write. -/

namespace Sys2Proof.Machine

/-! ## Command sequences -/

/-- A command that answers `OK` with no data hands its state to the rest of the sequence. -/
theorem runOk_cons {i : Instr} {rest : List Instr} {s t : State} (h : exec i s = .next t) (hr : t.rsp = some ⟨0, 0⟩) :
    runOk (i :: rest) s = runOk rest t := by
  rw [runOk, h]
  exact if_pos hr

/-! ## The commands of `COMPRESS` -/

/-- `CNT` where no byte value occurs `2^32` times among the bytes ahead (R122). -/
theorem exec_cnt_of_counts_lt {s : State} (hc : s.cause = 0#5) (hn : ∀ v : Byte, (takeBytes s.ahead).count v < 2 ^ 32) :
    ∃ t, exec .cnt s = .next t ∧ t = { s with freq := t.freq, inPos := 0, ops := t.ops, rsp := some ⟨0, 0⟩ } ∧
      ∀ v : Byte, (t.freqAt v.toNat).toNat = (takeBytes s.ahead).count v := by
  have hfuel : (takeBytes s.ahead).length < s.inBits.length / 8 + 1 := Nat.lt_succ_of_le (takeBytes_ahead_length_le s)
  have hzero : ∀ v : Byte, s.clearFreq.freqAt v.toNat = 0 := fun v => by rw [State.freqAt_clearFreq, if_pos v.isLt]
  obtain ⟨m, hloop, hm, hcount⟩ := countLoop_ok (takeBytes s.ahead) (s.inBits.length / 8 + 1) s.clearFreq rfl hfuel
    fun v => by rw [hzero]; simpa using hn v
  refine ⟨m.inRewind.respond 0, ?_, ?_, fun v => ?_⟩
  · show unlessInError s (countBytes s).finish = _
    rw [unlessInError_of_ok _ hc, countBytes, hloop]
    rfl
  · rw [hm]; rfl
  · have := hcount v
    rw [hzero] at this
    simpa [State.freqAt] using this

/-- `GEN` with a tree in the arena (R151). -/
theorem exec_gen_of_tree {s : State} {tr : CodeTree} (hc : s.cause = 0#5) (hr : s.root ≠ 0x3FF#10) (ht : s.tree = some tr) :
    exec .gen s = .next { s with code := tableOf tr, codeOk := true, rsp := some ⟨0, 0⟩ } := by
  show unlessInError s (withPrecondition s.hasTree .gen s _) = _
  rw [unlessInError_of_ok _ hc, withPrecondition, if_pos ((hasTree_iff s).mpr hr), ht]
  simp only [generateCodes_eq]
  rfl

/-- The state after a command that answers `OK`, has appended `items` to OUT and leaves the record `ops`. -/
def State.wrote (items : List OutItem) (ops : List StreamOp) (s : State) : State :=
  { s with outItems := s.outItems ++ items, ops := ops, rsp := some ⟨0, 0⟩ }

theorem State.wrote_wrote (a b : List OutItem) (ops ops' : List StreamOp) (s : State) :
    (s.wrote a ops).wrote b ops' = s.wrote (a ++ b) ops' := by
  simp [State.wrote]

/-- `MGW` out of error (R160). -/
theorem exec_mgw_of_ok {s : State} (hc : s.cause = 0#5) :
    ∃ ops, exec .mgw s = .next (s.wrote ((msbBits s.magic).map .bit) ops) :=
  ⟨_, unlessInError_of_ok _ hc⟩

/-- `FLS` out of error (R201). -/
theorem exec_fls_of_ok {s : State} (hc : s.cause = 0#5) : ∃ ops, exec .fls s = .next (s.wrote [.flush] ops) :=
  ⟨_, unlessInError_of_ok _ hc⟩

/-- `HDW` with a tree in the arena (R163). -/
theorem exec_hdw_of_tree {s : State} {tr : CodeTree} (hc : s.cause = 0#5) (hr : s.root ≠ 0x3FF#10) (ht : s.tree = some tr) :
    ∃ ops, exec .hdw s = .next (s.wrote (tr.hdr.map .bit) ops) := by
  refine ⟨(emitTree tr s).ops, ?_⟩
  show unlessInError s (withPrecondition s.hasTree .hdw s _) = _
  rw [unlessInError_of_ok _ hc, withPrecondition, if_pos ((hasTree_iff s).mpr hr), ht]
  show Host.Outcome.next ((emitTree tr s).respond 0) = _
  rw [emitTree_eq]
  rfl

/-- The body the code table gives a sequence of bytes: the code of each byte, then the sentinel's (R100, R181). -/
def State.bodyOf (bytes : List Byte) (s : State) : List Bool :=
  (bytes.flatMap fun b => (s.codeAt b.toNat).bits) ++ (s.codeAt 256).bits

/-- `ENC` where every byte of IN and the sentinel have a code (R181). -/
theorem exec_enc_of_coded {s : State} (hc : s.cause = 0#5) (hok : s.codeOk = true)
    (hb : ∀ b ∈ takeBytes s.inBits, (s.codeAt b.toNat).valid = true) (hs : (s.codeAt 256).valid = true) :
    ∃ t ops, exec .enc s = .next t ∧
      t = State.wrote ((s.bodyOf (takeBytes s.inBits)).map .bit) ops { s with inPos := 8 * (takeBytes s.inBits).length } := by
  have hfuel : (takeBytes s.inBits).length < s.inBits.length / 8 + 1 := by
    rw [takeBytes_length]
    exact Nat.lt_succ_self _
  obtain ⟨m, hloop, hm⟩ := encodeLoop_ok (takeBytes s.inBits) (s.inBits.length / 8 + 1) s.inRewind rfl hfuel hb
  have hsent : m.codeAt 256 = s.codeAt 256 := by rw [hm]; rfl
  refine ⟨_, (m.outBits (s.codeAt 256).bits).ops, ?_, rfl⟩
  show unlessInError s (withPrecondition s.codeOk .enc s (encodeBody s).finish) = _
  rw [unlessInError_of_ok _ hc, withPrecondition, if_pos hok, encodeBody, hloop]
  show (encodeSymbol 256 m).finish = _
  rw [encodeSymbol_of_valid (hsent ▸ hs), hsent, hm]
  simp [Exec.finish, State.outBits, State.respond, State.wrote, State.bodyOf, State.codeAt]

/-! ## The tree of `BLD` and its codes -/

theorem CodeTree.map_fst_leafList (t : CodeTree) : t.leafList.map Prod.fst = t.syms := by
  induction t with
  | leaf => rfl
  | node l r w ihl ihr => rw [CodeTree.leafList, List.map_append, ihl, ihr, CodeTree.syms]

/-- The tree `BLD` leaves carries every symbol with a positive count (R131, R135). -/
theorem buildTree_tree (s : State) :
    ∃ tr, (buildTree s).tree = some tr ∧ ∀ i ∈ positiveSyms s, BitVec.ofNat 9 i ∈ tr.syms := by
  have hpos := positiveSyms_pos s
  by_cases hone : (positiveSyms s).length = 1
  · refine ⟨.node (.leaf 256 1) (.leaf 256 0) 1, by rw [buildTree_single hone]; rfl, fun i hi => ?_⟩
    rw [positiveSyms_eq_sent hone, List.mem_singleton] at hi
    subst hi
    decide
  · obtain ⟨u, e, hbuild, hforest, hpq, -, -⟩ := buildTree_many (s := s) (by omega)
    obtain ⟨-, -, ⟨tr, htree, hleaves, -⟩, -, -⟩ := hforest.single hpq (by omega)
    refine ⟨tr, by rw [hbuild]; exact htree, fun i hi => ?_⟩
    have hpair : (BitVec.ofNat 9 i, s.leafWeight i) ∈ s.leafPairs (List.range 257) := List.mem_map_of_mem hi
    rw [← tr.map_fst_leafList]
    exact List.mem_map_of_mem (f := Prod.fst) (hleaves.mem_iff.mpr hpair)

/-- `BLD` leaves a sound arena with a tree that carries every symbol with a positive count (R131, R135, R136). -/
theorem exec_bld_of_ok {s : State} (hc : s.cause = 0#5) :
    ∃ t tr, exec .bld s = .next t ∧
      t = { s.discardTree with nodes := t.nodes, root := t.root, seq := t.seq, pq := [], rsp := some ⟨0, 0⟩ } ∧
      ArenaOk t ∧ t.root ≠ 0x3FF#10 ∧ t.tree = some tr ∧ ∀ i ∈ positiveSyms s, BitVec.ofNat 9 i ∈ tr.syms := by
  obtain ⟨tr, htree, hsyms⟩ := buildTree_tree s
  obtain ⟨harena, hroot⟩ := buildTree_arena s
  have hexec : exec .bld s = .next ((buildTree s).respond 0) := unlessInError_of_ok _ hc
  have hframe := buildTree_frame s
  generalize buildTree s = b at htree harena hroot hexec hframe
  exact ⟨b.respond 0, tr, hexec, by rw [hframe]; rfl, harena.congr rfl rfl, hroot, htree, hsyms⟩

/-- Every symbol of a tree has a code in the tree's table (R151). -/
theorem tableOf_valid {tr : CodeTree} {i : Nat} (hi : i ≤ 256) (h : BitVec.ofNat 9 i ∈ tr.syms) :
    ((tableOf tr)[i]?.getD CodeEntry.invalid).valid = true := by
  rw [← tr.codes_map_fst [], List.mem_map] at h
  obtain ⟨p, hp, hsym⟩ := h
  have hnat : p.1.toNat = i := by rw [hsym, BitVec.toNat_ofNat, Nat.mod_eq_of_lt (by omega)]
  rw [tableOf_get tr i hi, ← hnat]
  exact lastPath_of_mem hp

/-! ## The two halves -/

/-- Ready to write: the arena holds the tree `tr`, the code table is that of `tr`, and the bytes on IN and the sentinel have a
code in it. -/
structure ReadyToWrite (bytes : List Byte) (tr : CodeTree) (u : State) : Prop where
  cause : u.cause = 0#5
  arena : ArenaOk u
  root : u.root ≠ 0x3FF#10
  tree : u.tree = some tr
  codeOk : u.codeOk = true
  code : u.code = tableOf tr
  inBits : u.inBits = bitsOfBytes bytes
  bytesCoded : ∀ v ∈ bytes, (u.codeAt v.toNat).valid = true
  sentCoded : (u.codeAt 256).valid = true

/-- The bytes of a stream that holds whole bytes. -/
theorem takeBytes_eq_of_bitsOfBytes {l : List Bool} {bytes : List Byte} (h : l = bitsOfBytes bytes) : takeBytes l = bytes := by
  have := takeBytes_bitsOfBytes bytes [] (by simp)
  rwa [List.append_nil, ← h] at this

/-- A byte on IN has a positive count once the bytes are counted. -/
theorem mem_positiveSyms_of_counted {bytes : List Byte} {c : State}
    (hcount : ∀ v : Byte, (c.freqAt v.toNat).toNat = bytes.count v) {v : Byte} (hv : v ∈ bytes) :
    v.toNat ∈ positiveSyms c := by
  refine mem_positiveSyms.mpr ⟨Nat.le_of_lt v.isLt, fun hzero => ?_⟩
  have hpos := List.count_pos_iff.mpr hv
  rw [← hcount v, hzero] at hpos
  exact absurd hpos (Nat.lt_irrefl 0)

/-- `CLR`, `CNT`, `BLD`, `GEN` make the tree of the bytes on IN and its code table, and leave OUT alone (R99). -/
theorem runOk_clr_cnt_bld_gen {bytes : List Byte} {s : State} (hn : ∀ v : Byte, bytes.count v < 2 ^ 32)
    (hin : s.inBits = bitsOfBytes bytes) (hpos : s.inPos = 0) :
    ∃ tr u, (∀ rest, runOk (.clr :: .cnt :: .bld :: .gen :: rest) s = runOk rest u) ∧ ReadyToWrite bytes tr u ∧
      u.magic = s.magic ∧ u.outItems = s.outItems := by
  have hahead : takeBytes (s.clearBlock.respond 0).ahead = bytes := by
    apply takeBytes_eq_of_bitsOfBytes
    show s.inBits.drop s.inPos = bitsOfBytes bytes
    rw [hpos, List.drop_zero, hin]
  obtain ⟨c, hcnt, hc, hcount⟩ := exec_cnt_of_counts_lt (s := s.clearBlock.respond 0) rfl (by rwa [hahead])
  rw [hahead] at hcount
  have hcause : c.cause = 0#5 := by rw [hc]; rfl
  obtain ⟨b, tr, hbld, hb, harena, hroot, htree, hsyms⟩ := exec_bld_of_ok hcause
  have hcauseB : b.cause = 0#5 := by rw [hb]; exact hcause
  refine ⟨tr, { b with code := tableOf tr, codeOk := true, rsp := some ⟨0, 0⟩ }, fun rest => ?runs,
    ⟨hcauseB, harena.congr rfl rfl, hroot, htree, rfl, rfl, ?inBits, ?coded, ?sent⟩, ?magic, ?out⟩
  case runs =>
    rw [runOk_cons (t := s.clearBlock.respond 0) rfl rfl, runOk_cons hcnt (by rw [hc]), runOk_cons hbld (by rw [hb]),
      runOk_cons (exec_gen_of_tree hcauseB hroot htree) rfl]
  case coded => exact fun v hv =>
    tableOf_valid (Nat.le_of_lt v.isLt) (hsyms v.toNat (mem_positiveSyms_of_counted hcount hv))
  case sent => exact tableOf_valid (Nat.le_refl 256) (hsyms 256 (sent_mem_positiveSyms c))
  case inBits => exact (show b.inBits = s.inBits by rw [hb, hc]; rfl).trans hin
  case magic => exact show b.magic = s.magic by rw [hb, hc]; rfl
  case out => exact show b.outItems = s.outItems by rw [hb, hc]; rfl

/-- A command that only writes leaves what the next one needs. -/
theorem ReadyToWrite.wrote {bytes : List Byte} {tr : CodeTree} {u : State} (h : ReadyToWrite bytes tr u)
    (items : List OutItem) (ops : List StreamOp) : ReadyToWrite bytes tr (u.wrote items ops) :=
  ⟨h.cause, h.arena.congr rfl rfl, h.root, h.tree, h.codeOk, h.code, h.inBits, h.bytesCoded, h.sentCoded⟩

/-- `MGW`, `HDW`, `ENC`, `FLS` write the magic, the header, the body and one marker, and leave IN's cursor behind the bytes
(R99, R100). -/
theorem ReadyToWrite.runOk_mgw_hdw_enc_fls {bytes : List Byte} {tr : CodeTree} {u : State} (h : ReadyToWrite bytes tr u) :
    ∃ ops, runOk [.mgw, .hdw, .enc, .fls] u = some (State.wrote
      ((msbBits u.magic ++ tr.hdr ++ u.bodyOf bytes).map .bit ++ [.flush]) ops { u with inPos := 8 * bytes.length }) := by
  have hbytes : takeBytes u.inBits = bytes := takeBytes_eq_of_bitsOfBytes h.inBits
  obtain ⟨ops₁, hmgw⟩ := exec_mgw_of_ok h.cause
  have h₁ := h.wrote ((msbBits u.magic).map .bit) ops₁
  obtain ⟨ops₂, hhdw⟩ := exec_hdw_of_tree h₁.cause h₁.root h₁.tree
  have h₂ := h₁.wrote (tr.hdr.map .bit) ops₂
  rw [State.wrote_wrote] at hhdw h₂
  subst hbytes
  obtain ⟨v, ops₃, henc, hv⟩ := exec_enc_of_coded h₂.cause h₂.codeOk h₂.bytesCoded h₂.sentCoded
  obtain ⟨ops₄, hfls⟩ := exec_fls_of_ok (s := v) (by rw [hv]; exact h₂.cause)
  refine ⟨ops₄, ?_⟩
  rw [runOk_cons hmgw rfl, runOk_cons hhdw rfl, runOk_cons henc (by rw [hv]; rfl), runOk_cons hfls rfl, hv]
  simp [runOk, State.wrote, State.bodyOf, State.codeAt]

/-- Settles O59: `CLR` to `GEN` make the tree of the bytes and its table, `MGW` to `FLS` write the output from them. -/
theorem compressWritesMagicHeaderAndBody : Obligations.CompressWritesMagicHeaderAndBody := by
  intro bytes s hn hin hpos
  obtain ⟨tr, u, hmake, hready, hmagic, hout⟩ := runOk_clr_cnt_bld_gen hn hin hpos
  obtain ⟨ops, hwrite⟩ := hready.runOk_mgw_hdw_enc_fls
  rw [hmagic, hout] at hwrite
  exact ⟨_, tr, (hmake _).trans hwrite, hready.tree, hready.code, hready.bytesCoded, hready.sentCoded,
    (List.append_assoc _ _ _).symm⟩

end Sys2Proof.Machine
end

section
/-! PROOFS. The frequency counter (`40_frequency.md` R120 to R122): the operand check of the commands that name a symbol and what
`CNT` makes of the end of its loop first, then the four obligations. -/

namespace Sys2Proof.Machine

/-! ## The operand check of a symbol -/

/-- R96: a symbol of 0..256 passes. -/
theorem withOperand_sym_of_le {idx : Idx} (h : idx.toNat ≤ 256) (i : Instr) (s : State) (o : StepResult) :
    withOperand (symInRange idx) i s o = o := if_pos (decide_eq_true h)

/-- R96, R221 step 3: a greater index is a `BadOperand`. -/
theorem withOperand_sym_of_gt {idx : Idx} (h : 256 < idx.toNat) (i : Instr) (s : State) (o : StepResult) :
    withOperand (symInRange idx) i s o = .next (s.raise .badOperand (encode i)) :=
  if_neg (by simpa [symInRange] using h)

/-! ## `CNT` -/

/-- The counts start from 0 (R122). -/
theorem State.toNat_freqAt_clearFreq (s : State) (v : Byte) : (s.clearFreq.freqAt v.toNat).toNat = 0 := by
  rw [State.freqAt_clearFreq, if_pos v.isLt]
  rfl

/-- A fault entry leaves the counts alone (R220). -/
theorem State.freqAt_raise (s : State) (c : Cause) (x : Word64) (i : Nat) : (s.raise c x).freqAt i = s.freqAt i := by
  rw [State.freqAt, State.raise_freq, State.freqAt]

/-- `CNT` rewinds IN and answers `OK` where its loop meets the end of IN (R122). -/
theorem exec_cnt_of_countLoop_ok {s m : State} (hc : s.cause = 0#5)
    (hloop : countLoop (s.inBits.length / 8 + 1) s.clearFreq = .ok 0 m) : exec .cnt s = .next (m.inRewind.respond 0) := by
  show unlessInError s (countBytes s).finish = _
  rw [unlessInError_of_ok _ hc, countBytes, hloop]
  rfl

/-- `CNT` passes on the fault its loop meets and does not rewind (R122). -/
theorem exec_cnt_of_countLoop_raised {s m : State} {c : Cause} {x : Word64} (hc : s.cause = 0#5)
    (hloop : countLoop (s.inBits.length / 8 + 1) s.clearFreq = .raised c x m) : exec .cnt s = .next (m.raise c x) := by
  show unlessInError s (countBytes s).finish = _
  rw [unlessInError_of_ok _ hc, countBytes, hloop]
  rfl

/-- `CNT` without an overflow makes one read of 8 bits for each byte ahead, one more that meets the end, and a rewind (R122). -/
theorem exec_cnt_ops {s t : State} (hc : s.cause = 0#5) (hn : ∀ v : Byte, (takeBytes s.ahead).count v < 2 ^ 32)
    (h : exec .cnt s = .next t) :
    t.ops = s.ops ++ List.replicate ((takeBytes s.ahead).length + 1) (.read 8) ++ [.rewind] := by
  obtain ⟨m, hloop, hm, -⟩ := countLoop_ok (takeBytes s.ahead) (s.inBits.length / 8 + 1) s.clearFreq rfl
    (Nat.lt_succ_of_le (takeBytes_ahead_length_le s)) fun v => by rw [s.toNat_freqAt_clearFreq, Nat.zero_add]; exact hn v
  rw [exec_cnt_of_countLoop_ok hc hloop] at h
  injection h with h
  rw [← h, State.respond_ops, State.inRewind_ops, hm, State.clearFreq_ops]

/-- Settles O17: the loop counts every byte ahead, and what it records is the reads up to the end of IN. -/
theorem cntCountsTheBytesAhead : Obligations.CntCountsTheBytesAhead := by
  intro s hc hn
  obtain ⟨t, hexec, ht, hcount⟩ := exec_cnt_of_counts_lt hc hn
  exact ⟨t, hexec, ht, exec_cnt_ops hc hn hexec, t.freqAt_sent, hcount⟩

/-- Settles O18: the loop stops behind `v` with the counts of `pre`, and the fault entry adds the cause, `INFO` and the
response. -/
theorem cntRaisesCountOverflow : Obligations.CntRaisesCountOverflow := by
  intro s pre post v hc hahead hlt hfull
  have hfuel : pre.length < s.inBits.length / 8 + 1 := by
    have hbytes := takeBytes_ahead_length_le s
    rw [hahead, List.length_append] at hbytes
    omega
  obtain ⟨m, hloop, hm, hcount⟩ := countLoop_overflow pre (s.inBits.length / 8 + 1) s.clearFreq v post hahead hfuel
    (fun u => by rw [s.toNat_freqAt_clearFreq, Nat.zero_add]; exact hlt u)
    (by rw [s.toNat_freqAt_clearFreq, Nat.zero_add]; exact hfull)
  have hcause : m.cause = 0#5 := by rw [hm]; exact hc
  refine ⟨_, exec_cnt_of_countLoop_raised hc hloop, ?frame, State.freqAt_sent _, fun u => ?count⟩
  case frame =>
    rw [State.raise_of_ok _ _ _ hcause, hm]
    rfl
  case count => rw [State.freqAt_raise, hcount u, s.toNat_freqAt_clearFreq, Nat.zero_add]

/-! ## `LDF` and `RDF` -/

/-- `LDF` of a symbol out of error (R120). -/
theorem exec_ldf_of_le {s : State} {idx : Idx} (hc : s.cause = 0#5) (h : idx.toNat ≤ 256) (data : Count) :
    exec (.ldf idx data) s = .next ((s.setFreq idx.toNat data).respond 0) :=
  (unlessInError_of_ok _ hc).trans (withOperand_sym_of_le h _ _ _)

/-- `LDF` of a greater index out of error (R96, R120). -/
theorem exec_ldf_of_gt {s : State} {idx : Idx} (hc : s.cause = 0#5) (h : 256 < idx.toNat) (data : Count) :
    exec (.ldf idx data) s = .next (s.raise .badOperand (encode (.ldf idx data))) :=
  (unlessInError_of_ok _ hc).trans (withOperand_sym_of_gt h _ _ _)

/-- `RDF` of a symbol (R121). -/
theorem exec_rdf_of_le {idx : Idx} (h : idx.toNat ≤ 256) (s : State) :
    exec (.rdf idx) s = .next (s.respond ((s.freqAt idx.toNat).setWidth 64)) := withOperand_sym_of_le h _ _ _

/-- `RDF` of a greater index (R96, R121). -/
theorem exec_rdf_of_gt {idx : Idx} (h : 256 < idx.toNat) (s : State) :
    exec (.rdf idx) s = .next (s.raise .badOperand (encode (.rdf idx))) := withOperand_sym_of_gt h _ _ _

/-- Settles O15: a symbol's count is written, a greater index is a fault, and in error the command is refused. -/
theorem ldfLoadsOneCount : Obligations.LdfLoadsOneCount := by
  refine ⟨by decide, fun s idx data => ⟨fun hc h => ?loads, fun hc h => ?badOperand, fun hc => unlessInError_of_err _ hc⟩⟩
  case loads =>
    refine ⟨_, exec_ldf_of_le hc h data, rfl, State.freqAt_sent _, fun j hj => ?_⟩
    exact (s.freqAt_setFreq idx.toNat j data).trans
      (if_congr ⟨fun h => h.1.symm, fun h => ⟨h.symm, h ▸ hj⟩⟩ rfl rfl)
  case badOperand => rw [exec_ldf_of_gt hc h, State.raise_of_ok _ _ _ hc]; rfl

/-- Settles O16: a symbol is read, the sentinel's count being the constant 1, and a greater index is a fault. -/
theorem rdfAnswersTheCount : Obligations.RdfAnswersTheCount := by
  refine ⟨by decide, fun s idx => ⟨fun h => ?byte, fun h => ?sentinel, fun h hc => ?firstFault, fun h hc => ?laterFault⟩⟩
  case byte => rw [exec_rdf_of_le (Nat.le_of_lt h), s.freqAt_of_lt _ h]; rfl
  case sentinel => rw [exec_rdf_of_le (Nat.le_of_eq h), h, s.freqAt_sent]; rfl
  case firstFault => rw [exec_rdf_of_gt h, State.raise_of_ok _ _ _ hc]; rfl
  case laterFault => rw [exec_rdf_of_gt h, State.raise_of_err _ _ _ hc]; rfl

end Sys2Proof.Machine
end

section
/-! PROOFS. The reads of the arena (`41_tree_builder.md` R140, R141): the operand check of a node index, the fields of the two
records, and what `RDN` and `RDW` answer on either side of the check, then the obligation. -/

namespace Sys2Proof.Machine

/-! ## The operand check of a node index -/

/-- R96: an arena index of 0..512 passes. -/
theorem withOperand_node_of_le {idx : Idx} (h : idx.toNat ≤ 512) (i : Instr) (s : State) (o : StepResult) :
    withOperand (nodeInRange idx) i s o = o := if_pos (decide_eq_true h)

/-- R96, R221 step 3: a greater index is a `BadOperand`. -/
theorem withOperand_node_of_gt {idx : Idx} (h : 512 < idx.toNat) (i : Instr) (s : State) (o : StepResult) :
    withOperand (nodeInRange idx) i s o = .next (s.raise .badOperand (encode i)) :=
  if_neg (by simpa [nodeInRange] using h)

/-! ## The fields of a node's records -/

/-- The bit of a kind is 1 for a leaf (R24). -/
theorem NodeKind.code_eq_ite (k : NodeKind) : k.code = if k = .leaf then 1 else 0 := by
  cases k <;> rfl

/-- Bit 0 of the record is `V` (R140). -/
theorem Node.record_valid (n : Node) : n.record.extractLsb' 0 1 = 1 := BitVec.extractLsb'_append_eq_right

/-- Bit 1 is the kind (R140). -/
theorem Node.record_kind (n : Node) : n.record.extractLsb' 1 1 = n.kind.code :=
  (BitVec.extractLsb'_append_eq_of_le (by decide)).trans BitVec.extractLsb'_append_eq_right

/-- What stands from bit 2 on: the symbol and above it the children (R140). -/
theorem Node.record_from_sym (n : Node) (start len : Nat) :
    n.record.extractLsb' (start + 2) len = (0#33 ++ n.right ++ n.left ++ n.sym).extractLsb' start len :=
  (BitVec.extractLsb'_append_eq_of_le (by omega)).trans (BitVec.extractLsb'_append_eq_of_le (by omega))

/-- Bits 10:2 are the symbol (R140). -/
theorem Node.record_sym (n : Node) : n.record.extractLsb' 2 9 = n.sym :=
  (n.record_from_sym 0 9).trans BitVec.extractLsb'_append_eq_right

/-- What stands from bit 11 on: the two children (R140). -/
theorem Node.record_from_left (n : Node) (start len : Nat) :
    n.record.extractLsb' (start + 11) len = (0#33 ++ n.right ++ n.left).extractLsb' start len :=
  (n.record_from_sym (start + 9) len).trans (BitVec.extractLsb'_append_eq_of_le (by omega))

/-- Bits 20:11 are the left child (R140). -/
theorem Node.record_left (n : Node) : n.record.extractLsb' 11 10 = n.left :=
  (n.record_from_left 0 10).trans BitVec.extractLsb'_append_eq_right

/-- Bits 30:21 are the right child (R140). -/
theorem Node.record_right (n : Node) : n.record.extractLsb' 21 10 = n.right :=
  calc n.record.extractLsb' 21 10
    _ = (0#33 ++ n.right ++ n.left).extractLsb' 10 10 := n.record_from_left 10 10
    _ = (0#33 ++ n.right).extractLsb' 0 10 := BitVec.extractLsb'_append_eq_of_le (by decide)
    _ = n.right := BitVec.extractLsb'_append_eq_right

/-- Bits 63:31 are 0 (R140). -/
theorem Node.record_upper (n : Node) : n.record.extractLsb' 31 33 = 0 :=
  calc n.record.extractLsb' 31 33
    _ = (0#33 ++ n.right ++ n.left).extractLsb' 20 33 := n.record_from_left 20 33
    _ = (0#33 ++ n.right).extractLsb' 10 33 := BitVec.extractLsb'_append_eq_of_le (by decide)
    _ = 0 := BitVec.extractLsb'_append_eq_left

/-- Bits 40:0 of the weight record are the weight (R141). -/
theorem Node.weightRecord_weight (n : Node) : n.weightRecord.extractLsb' 0 41 = n.weight :=
  BitVec.extractLsb'_append_eq_right

/-- Bits 62:41 are 0 (R141). -/
theorem Node.weightRecord_middle (n : Node) : n.weightRecord.extractLsb' 41 22 = 0 :=
  (BitVec.extractLsb'_append_eq_of_le (by decide)).trans BitVec.extractLsb'_append_eq_right

/-- Bit 63 is `V` (R141). -/
theorem Node.weightRecord_valid (n : Node) : n.weightRecord.extractLsb' 63 1 = 1 :=
  (BitVec.extractLsb'_append_eq_of_le (by decide)).trans BitVec.extractLsb'_append_eq_left

/-! ## `RDN` and `RDW` -/

/-- `RDN` of an arena index (R140). -/
theorem exec_rdn_of_le {idx : Idx} (h : idx.toNat ≤ 512) (s : State) :
    exec (.rdn idx) s = .next (s.respond ((s.nodes[idx.toNat]?.map Node.record).getD 0)) := withOperand_node_of_le h _ _ _

/-- `RDW` of an arena index (R141). -/
theorem exec_rdw_of_le {idx : Idx} (h : idx.toNat ≤ 512) (s : State) :
    exec (.rdw idx) s = .next (s.respond ((s.nodes[idx.toNat]?.map Node.weightRecord).getD 0)) :=
  withOperand_node_of_le h _ _ _

/-- `RDN` of a greater index (R96, R140). -/
theorem exec_rdn_of_gt {idx : Idx} (h : 512 < idx.toNat) (s : State) :
    exec (.rdn idx) s = .next (s.raise .badOperand (encode (.rdn idx))) := withOperand_node_of_gt h _ _ _

/-- `RDW` of a greater index (R96, R141). -/
theorem exec_rdw_of_gt {idx : Idx} (h : 512 < idx.toNat) (s : State) :
    exec (.rdw idx) s = .next (s.raise .badOperand (encode (.rdw idx))) := withOperand_node_of_gt h _ _ _

/-- Settles O24: an index from `NN` on has no entry to answer, an allocated one answers its records field by field, and a
greater index is a fault. -/
theorem rdnAndRdwAnswerTheNode : Obligations.RdnAndRdwAnswerTheNode := by
  refine ⟨by decide, by decide, fun s idx =>
    ⟨fun h hnn => ?unallocated, fun n h hn => ⟨?weight, ?record⟩, fun h => ⟨fun hc => ?firstFault, fun hc => ?laterFault⟩⟩⟩
  case unallocated =>
    rw [exec_rdn_of_le h, exec_rdw_of_le h, List.getElem?_eq_none hnn]
    exact ⟨rfl, rfl⟩
  case weight =>
    rw [exec_rdw_of_le h, hn]
    exact ⟨n.weightRecord, rfl, n.weightRecord_weight, n.weightRecord_middle, n.weightRecord_valid⟩
  case record =>
    rw [exec_rdn_of_le h, hn, ← n.kind.code_eq_ite]
    exact ⟨n.record, rfl, n.record_valid, n.record_kind, n.record_sym, n.record_left, n.record_right, n.record_upper⟩
  case firstFault =>
    rw [exec_rdn_of_gt h, exec_rdw_of_gt h, State.raise_of_ok _ _ _ hc, State.raise_of_ok _ _ _ hc]
    exact ⟨rfl, rfl⟩
  case laterFault =>
    rw [exec_rdn_of_gt h, exec_rdw_of_gt h, State.raise_of_err _ _ _ hc, State.raise_of_err _ _ _ hc]
    exact ⟨rfl, rfl⟩

end Sys2Proof.Machine
end

section
/-! PROOFS. The code table (`42_code_table.md` R150 to R153): what `GEN` answers in each case and what a `GEN` that answered `OK`
has met, the fields of the record `RDC` answers, then the three obligations. -/

namespace Sys2Proof.Machine

/-! ## `GEN` -/

/-- `GEN` without a tree (R151). -/
theorem exec_gen_of_noTree {s : State} (hc : s.cause = 0#5) (hr : s.root = 0x3FF#10) :
    exec .gen s = .next (s.raise .sequenceError (encode .gen)) :=
  (unlessInError_of_ok _ hc).trans (if_neg fun htree => (hasTree_iff s).mp htree hr)

/-- `GEN` in an arena that breaks R25. -/
theorem exec_gen_of_brokenArena {s : State} (hc : s.cause = 0#5) (hr : s.root ≠ 0x3FF#10) (ht : s.tree = none) :
    exec .gen s = .fault .brokenArena := by
  show unlessInError s (withPrecondition s.hasTree .gen s _) = _
  rw [unlessInError_of_ok _ hc, withPrecondition, if_pos ((hasTree_iff s).mpr hr), ht]

/-- A `GEN` that ends normally has met a tree and left that tree's table (R151). -/
theorem eq_tableOf_of_exec_gen {s u : State} (hc : s.cause = 0#5) (h : exec .gen s = .next u) (hu : u.cause = 0#5) :
    ∃ t, s.root ≠ 0x3FF#10 ∧ s.tree = some t ∧ u = { s with code := tableOf t, codeOk := true, rsp := some ⟨0, 0⟩ } := by
  by_cases hr : s.root = 0x3FF#10
  · rw [exec_gen_of_noTree hc hr, State.raise_of_ok _ _ _ hc] at h
    injection h with h
    subst h
    exact absurd hu (Cause.code_ne_zero .sequenceError)
  · cases ht : s.tree with
    | none =>
      rw [exec_gen_of_brokenArena hc hr ht] at h
      cases h
    | some t =>
      rw [exec_gen_of_tree hc hr ht] at h
      injection h with h
      exact ⟨t, hr, rfl, h.symm⟩

/-- The paths of two different leaves are not prefixes of each other (R153). -/
theorem CodeTree.not_prefix_of_mem_codes {t : CodeTree} {p q : Sym × List Bool} (hp : p ∈ t.codes []) (hq : q ∈ t.codes [])
    (hne : p ≠ q) : ¬ p.2 <+: q.2 := by
  have hsymm : Std.Symm fun x y : Sym × List Bool => ¬ x.2 <+: y.2 ∧ ¬ y.2 <+: x.2 := ⟨fun _ _ h => h.symm⟩
  exact (t.codes_pairwise.forall hp hq hne).1

/-- Settles O25: `GEN` with a tree leaves the tree's table, whose entries are the last paths; without one it raises
`SequenceError`, and in error it is refused. -/
theorem genRecordsTheLastPathOfEverySymbol : Obligations.GenRecordsTheLastPathOfEverySymbol := by
  refine ⟨by decide, fun _ _ _ => rfl, fun _ _ _ _ => rfl, fun s =>
    ⟨fun t hc hr ht => ?records, fun hc hr => ?noTree, fun hc => unlessInError_of_err _ hc⟩⟩
  case records => exact ⟨_, exec_gen_of_tree hc hr ht, rfl, fun i hi => tableOf_get t i hi⟩
  case noTree => rw [exec_gen_of_noTree hc hr, State.raise_of_ok _ _ _ hc]; rfl

/-- Settles O26: each valid entry is the path of a leaf, the leaves of different symbols are different, and the paths of
different leaves diverge. -/
theorem generatedCodesArePrefixFree : Obligations.GeneratedCodesArePrefixFree := by
  intro s u hc h hu a b ha hb hab hva hvb
  obtain ⟨t, -, -, rfl⟩ := eq_tableOf_of_exec_gen hc h hu
  simp only [State.codeAt, tableOf_get t _ ha, tableOf_get t _ hb] at hva hvb ⊢
  obtain ⟨p, hp, hpa, hpentry⟩ := lastPath_valid hva
  obtain ⟨q, hq, hqb, hqentry⟩ := lastPath_valid hvb
  have hpq : p ≠ q := fun hpq => hab (by rw [← hpa, ← hqb, hpq])
  rw [hpentry, hqentry]
  exact CodeTree.not_prefix_of_mem_codes hp hq hpq

/-! ## `RDC` -/

/-- The bits of a chunk, most significant first (R152). -/
theorem CodeEntry.getMsbD_chunk (e : CodeEntry) (c : BitVec 3) {j : Nat} (hj : j < 32) :
    (e.chunk c).getMsbD j =
      (decide (32 * c.toNat + j < e.len.toNat) && (e.bits[32 * c.toNat + j]?).getD false) := by
  have hbits : msbBits (e.chunk c) = (List.range 32).map fun j =>
      decide (32 * c.toNat + j < e.len.toNat) && e.bits.getD (32 * c.toNat + j) false :=
    msbBits_ofNat_bitsVal _ (by simp)
  simpa [msbBits, hj] using congrArg (fun l => l[j]?) hbits

/-- Bits 31:0 of the record are the chunk (R152). -/
theorem CodeEntry.record_chunk (e : CodeEntry) (c : BitVec 3) {j : Nat} (hj : j < 32) :
    (e.record c).getLsbD (31 - j) = (e.chunk c).getMsbD j := by
  rw [record, BitVec.getLsbD_append, if_pos (by omega), BitVec.getMsbD_eq_getLsbD, decide_eq_true hj, Bool.true_and]

/-- Bits 40:32 are the length (R152). -/
theorem CodeEntry.record_len (e : CodeEntry) (c : BitVec 3) : (e.record c).extractLsb' 32 9 = e.len :=
  (BitVec.extractLsb'_append_eq_of_le (by decide)).trans BitVec.extractLsb'_append_eq_right

/-- Bits 62:41 are 0 (R152). -/
theorem CodeEntry.record_middle (e : CodeEntry) (c : BitVec 3) : (e.record c).extractLsb' 41 22 = 0 :=
  calc (e.record c).extractLsb' 41 22
    _ = (BitVec.ofBool e.valid ++ 0#22 ++ e.len).extractLsb' 9 22 := BitVec.extractLsb'_append_eq_of_le (by decide)
    _ = (BitVec.ofBool e.valid ++ 0#22).extractLsb' 0 22 := BitVec.extractLsb'_append_eq_of_le (by decide)
    _ = 0 := BitVec.extractLsb'_append_eq_right

/-- Bit 63 is `valid` (R152). -/
theorem CodeEntry.record_valid (e : CodeEntry) (c : BitVec 3) : (e.record c).getLsbD 63 = e.valid := by
  simp only [record, BitVec.getLsbD_append, BitVec.getLsbD_ofBool]
  simp

/-- `RDC` of a symbol (R152). -/
theorem exec_rdc_of_le {idx : Idx} (h : idx.toNat ≤ 256) (c : BitVec 3) (s : State) :
    exec (.rdc idx c) s = .next (s.respond ((s.codeAt idx.toNat).record c)) := withOperand_sym_of_le h _ _ _

/-- `RDC` of a greater index (R96, R152). -/
theorem exec_rdc_of_gt {idx : Idx} (h : 256 < idx.toNat) (c : BitVec 3) (s : State) :
    exec (.rdc idx c) s = .next (s.raise .badOperand (encode (.rdc idx c))) := withOperand_sym_of_gt h _ _ _

/-- Settles O28: a symbol's entry is answered field by field, and a greater index is a fault. -/
theorem rdcAnswersTheChunk : Obligations.RdcAnswersTheChunk := by
  refine ⟨by decide, fun s idx c => ⟨fun h => ?answers, fun h hc => ?firstFault, fun h hc => ?laterFault⟩⟩
  case answers =>
    exact ⟨_, exec_rdc_of_le h c s, fun j hj => (CodeEntry.record_chunk _ c hj).trans (CodeEntry.getMsbD_chunk _ c hj),
      CodeEntry.record_len _ c, CodeEntry.record_middle _ c, CodeEntry.record_valid _ c⟩
  case firstFault => rw [exec_rdc_of_gt h, State.raise_of_ok _ _ _ hc]; rfl
  case laterFault => rw [exec_rdc_of_gt h, State.raise_of_err _ _ _ hc]; rfl

end Sys2Proof.Machine
end

section
/-! PROOFS. The magic and the header (`43_header.md` R160 to R170): what `MGR`, `HDW` and `HDR` answer in each case, why a header
ends itself, and the tree an `HDR` leaves, then the five obligations. -/

namespace Sys2Proof.Machine

/-! ## `MGW` and `MGR` -/

/-- Settles O29: out of error `MGW` writes the field `magic`, in error it is refused. -/
theorem mgwAppendsTheMagic : Obligations.MgwAppendsTheMagic := by
  refine ⟨by decide, fun s => ⟨fun hc => ?appends, fun hc => unlessInError_of_err _ hc⟩⟩
  case appends =>
    obtain ⟨ops, h⟩ := exec_mgw_of_ok hc
    exact ⟨_, h, rfl⟩

/-- The body of `MGR` with 32 bits ahead, which it consumes whatever they are (R161). -/
theorem checkMagic_of_msbBits {s : State} {v : BitVec 32} {rest : List Bool} (h : s.ahead = msbBits v ++ rest) :
    checkMagic s =
      if v = s.magic then .ok 0 { s with inPos := s.inPos + 32, ops := s.ops ++ [.read 32] }
      else .raised .badMagic (v.setWidth 64) { s with inPos := s.inPos + 32, ops := s.ops ++ [.read 32] } := by
  rw [checkMagic, s.inRead_msbBits v rest (by decide) h]

/-- The body of `MGR` with fewer than 32 bits ahead, none of which it consumes (R161). -/
theorem checkMagic_of_short {s : State} (h : s.ahead.length < 32) :
    checkMagic s = .raised .badMagic 0x100000000#64 { s with ops := s.ops ++ [.read 32] } := by
  have hend : s.inBits.length < s.inPos + 32 := by
    rw [State.ahead, List.length_drop] at h
    omega
  rw [checkMagic, s.inRead_of_lt 32 hend]

/-- `MGR` out of error ends as its body does (R161). -/
theorem exec_mgr_of_ok {s : State} (hc : s.cause = 0#5) : exec .mgr s = (checkMagic s).finish := unlessInError_of_ok _ hc

/-- `MGR` with the magic ahead (R161). -/
theorem exec_mgr_of_magic {s : State} {rest : List Bool} (hc : s.cause = 0#5) (h : s.ahead = msbBits s.magic ++ rest) :
    exec .mgr s = .next { s with inPos := s.inPos + 32, ops := s.ops ++ [.read 32], rsp := some ⟨0, 0⟩ } := by
  rw [exec_mgr_of_ok hc, checkMagic_of_msbBits h, if_pos rfl]
  rfl

/-- `MGR` out of error whose body raises a cause (R161, R220). -/
theorem exec_mgr_of_raised {s u : State} {c : Cause} {info : Word64} (hc : s.cause = 0#5)
    (h : checkMagic s = .raised c info u) (hu : u.cause = 0#5) :
    exec .mgr s = .next { u with cause := c.code, info := info, rsp := some ⟨c.code.setWidth 8, 0⟩ } := by
  rw [exec_mgr_of_ok hc, h, Exec.finish, State.raise_of_ok _ _ _ hu]

/-- Settles O30: the 32 bits ahead are the magic, or are another value, or are not there. -/
theorem mgrChecksTheMagic : Obligations.MgrChecksTheMagic := by
  refine ⟨by decide, fun s => ⟨fun rest hc h => ?magic, fun v rest hc hv h => ?otherValue, fun hc h => ?short,
    fun hc => unlessInError_of_err _ hc⟩⟩
  case magic => exact ⟨_, exec_mgr_of_magic hc h, rfl⟩
  case otherValue => exact ⟨_, exec_mgr_of_raised hc ((checkMagic_of_msbBits h).trans (if_neg hv)) hc, rfl⟩
  case short => exact ⟨_, exec_mgr_of_raised hc (checkMagic_of_short h) hc, rfl⟩

/-! ## `HDW` -/

/-- `HDW` without a tree (R163). -/
theorem exec_hdw_of_noTree {s : State} (hc : s.cause = 0#5) (hr : s.root = 0x3FF#10) :
    exec .hdw s = .next (s.raise .sequenceError (encode .hdw)) :=
  (unlessInError_of_ok _ hc).trans (if_neg fun htree => (hasTree_iff s).mp htree hr)

/-- Settles O31: with a tree `HDW` writes the tree's header; without one it raises `SequenceError`, and in error it is
refused. -/
theorem hdwAppendsTheHeader : Obligations.HdwAppendsTheHeader := by
  refine ⟨by decide, fun s => ⟨fun t hc hr ht => ?appends, fun hc hr => ?noTree, fun hc => unlessInError_of_err _ hc⟩⟩
  case appends =>
    obtain ⟨ops, h⟩ := exec_hdw_of_tree hc hr ht
    exact ⟨_, h, rfl⟩
  case noTree => rw [exec_hdw_of_noTree hc hr, State.raise_of_ok _ _ _ hc]; rfl

/-! ## The header format -/

/-- A leaf's ten bits and a node's one bit (R162): `10k` bits for `k` leaves and `k - 1` for the nodes above them. -/
theorem CodeTree.hdr_length_add_one (t : CodeTree) : t.hdr.length + 1 = 11 * t.leaves := by
  induction t with
  | leaf sym w => simp [CodeTree.hdr, CodeTree.leaves]
  | node l r w ihl ihr =>
    simp only [CodeTree.hdr, CodeTree.leaves, List.length_cons, List.length_append]
    omega

/-- A header says where it ends and, but for the weights, which tree it is of (R162): the first bit tells a leaf from a node, a
leaf's field has a fixed length, and a node's two subtrees are headers again. -/
theorem CodeTree.unweighted_eq_of_hdr_append_eq {t u : CodeTree} {rest rest' : List Bool}
    (h : t.hdr ++ rest = u.hdr ++ rest') : t.unweighted = u.unweighted ∧ rest = rest' := by
  induction t generalizing u rest rest' with
  | leaf sym w =>
    cases u with
    | leaf sym' w' =>
      obtain ⟨hbits, hrest⟩ := List.append_inj (List.cons.inj h).2 (by simp)
      exact ⟨by rw [CodeTree.unweighted, CodeTree.unweighted, msbBits_injective hbits], hrest⟩
    | node l' r' w' => cases (List.cons.inj h).1
  | node l r w ihl ihr =>
    cases u with
    | leaf sym' w' => cases (List.cons.inj h).1
    | node l' r' w' =>
      have hbelow : l.hdr ++ (r.hdr ++ rest) = l'.hdr ++ (r'.hdr ++ rest') := by
        simpa [CodeTree.hdr] using h
      obtain ⟨hl, hafter⟩ := ihl hbelow
      obtain ⟨hr, hrest⟩ := ihr hafter
      exact ⟨by rw [CodeTree.unweighted, CodeTree.unweighted, hl, hr], hrest⟩

/-- Settles O32: the two equations are the definition, the length is an induction, and so is the parsing. -/
theorem headersAreSelfDelimiting : Obligations.HeadersAreSelfDelimiting :=
  ⟨fun _ _ => rfl, fun _ _ _ => rfl, fun t => Nat.eq_sub_of_add_eq t.hdr_length_add_one,
    fun _ _ _ _ h => CodeTree.unweighted_eq_of_hdr_append_eq h⟩

/-! ## `HDR` -/

/-- A tree has at least as many nodes as levels. -/
theorem CodeTree.depth_lt_size (t : CodeTree) : t.depth < t.size := by
  have := t.depth_lt_leaves
  have := t.size_eq
  have := t.leaves_pos
  omega

/-- The tree in the arena after the header of `t` was read (R166, R170). -/
theorem tree_headerRead {t : CodeTree} (hn : t.size ≤ 1024) (s : State) : (headerRead t s).tree = some t.unweighted := by
  have h := treeAt_layout t 0 [] [] t.size rfl (by omega) t.depth_lt_size
  simpa [State.tree, headerRead] using h

/-- Its entries are numbered in the order of the walk (R164, R170). -/
theorem reach_headerRead {t : CodeTree} (hn : t.size ≤ 1024) (s : State) :
    reach (headerRead t s).nodes (headerRead t s).nodes.length (headerRead t s).root =
      some (List.range (headerRead t s).nodes.length) := by
  have h := reach_layout t 0 [] [] t.size rfl (by omega) t.depth_lt_size
  simpa [headerRead, List.range_eq_range'] using h

/-- Weights have no part in the code table (R151). -/
theorem tableOf_unweighted (t : CodeTree) : tableOf t.unweighted = tableOf t := by
  rw [tableOf, t.codes_unweighted, tableOf]

/-- `HDR` with the header of a tree ahead (R168, R170). -/
theorem exec_hdr_of_header {s : State} {t : CodeTree} {rest : List Bool} (hc : s.cause = 0#5) (ha : s.ahead = t.hdr ++ rest)
    (hl : t.isLeaf = false) (hn : t.size ≤ 513) (hs : ∀ sym ∈ t.syms, sym.toNat ≤ 256) :
    exec .hdr s = .next ((headerRead t s).respond 0) := by
  show unlessInError s (readHeader s).finish = _
  rw [unlessInError_of_ok _ hc, readHeader_ok ha hl hn hs]
  rfl

/-- Settles O33: a tree of at most 257 leaves has at most 513 nodes, so `HDR` reads it and lays it out in pre-order, and
neither the codes nor the header say anything of the weights. -/
theorem hdrReadsBackTheHeader : Obligations.HdrReadsBackTheHeader := by
  intro s t rest hc ha hl hk hs
  have hsize := t.size_eq
  have hn : t.size ≤ 513 := by omega
  refine ⟨(headerRead t s).respond 0, exec_hdr_of_header hc ha hl hn hs, rfl, ?nodes, tree_headerRead (by omega) s,
    reach_headerRead (by omega) s, tableOf_unweighted t, t.hdr_unweighted⟩
  case nodes =>
    calc (t.layout 0).length
      _ = t.size := t.layout_length 0
      _ = 2 * t.leaves - 1 := Nat.eq_sub_of_add_eq hsize

end Sys2Proof.Machine
end

section
/-! PROOFS. `DECOMPRESS` undoes `COMPRESS` (`44_body.md` R186): what the tree invariant says of the tree, the body `ENC` writes as
codes of that tree, `DEC` on such a body, and the five commands of `DECOMPRESS` in a row. -/

namespace Sys2Proof.Machine

/-! ## The tree of a sound arena -/

/-- The root is internal, so the tree is not a lone leaf (R25 item 3). -/
theorem ArenaOk.isLeaf_eq_false {s : State} {t : CodeTree} (h : ArenaOk s) (hr : s.root ≠ 0x3FF#10) (ht : s.tree = some t) :
    t.isLeaf = false := by
  obtain ⟨n, hn, hint⟩ := h.rootInt hr
  obtain ⟨-, ht⟩ := treeAt_depth ht
  obtain ⟨m, hm, ⟨hleaf, -⟩ | ⟨-, l, r, -, -, rfl⟩⟩ := (treeAt_succ _ _ _ _).mp ht
  · obtain rfl : n = m := Option.some.inj (hn.symm.trans hm)
    rw [hint] at hleaf
    cases hleaf
  · rfl

/-- Every allocated entry is a node of the tree, and is one once (R25 item 2). -/
theorem ArenaOk.size_tree {s : State} {t : CodeTree} (h : ArenaOk s) (hr : s.root ≠ 0x3FF#10) (ht : s.tree = some t) :
    t.size = s.nodes.length := by
  obtain ⟨l, hl, hperm⟩ := h.reached hr
  have hwalk := reach_length hl ht
  have hall : l.length = s.nodes.length := hperm.length_eq.trans List.length_range
  have := t.size_eq
  omega

/-- The symbols of a tree are those its leaves' records hold, so where these are sound none is above 256 (R24). -/
theorem toNat_le_of_mem_syms_treeAt {nodes : List Node} (h : ∀ n ∈ nodes, nodeOk nodes n) {t : CodeTree} :
    ∀ {d : Nat} {i : Idx}, treeAt nodes d i = some t → ∀ sym ∈ t.syms, sym.toNat ≤ 256 := by
  induction t with
  | leaf sym w =>
    intro d i ht
    obtain ⟨-, ht⟩ := treeAt_depth ht
    obtain ⟨n, hn, ⟨hk, hleaf⟩ | ⟨-, l, r, -, -, hnode⟩⟩ := (treeAt_succ _ _ _ _).mp ht
    · have hok := h n (List.mem_of_getElem? hn)
      rw [nodeOk, hk] at hok
      cases hleaf
      simpa [CodeTree.syms] using hok.1
    · cases hnode
  | node l r w ihl ihr =>
    intro d i ht sym hsym
    obtain ⟨-, ht⟩ := treeAt_depth ht
    obtain ⟨n, -, ⟨-, hleaf⟩ | ⟨-, l', r', hl, hr, hnode⟩⟩ := (treeAt_succ _ _ _ _).mp ht
    · cases hleaf
    · cases hnode
      exact (List.mem_append.mp hsym).elim (ihl hl sym) (ihr hr sym)

/-! ## The body `ENC` writes -/

/-- A valid entry of a tree's table is the path of a leaf that carries the symbol (R151). -/
theorem mem_codes_of_tableOf_valid {t : CodeTree} {i : Nat} (hi : i ≤ 256)
    (h : ((tableOf t)[i]?.getD CodeEntry.invalid).valid = true) :
    (BitVec.ofNat 9 i, ((tableOf t)[i]?.getD CodeEntry.invalid).bits) ∈ t.codes [] := by
  rw [tableOf_get t i hi] at h ⊢
  obtain ⟨⟨sym, p⟩, hmem, hsym, hpath⟩ := lastPath_valid h
  obtain rfl : sym.toNat = i := hsym
  rw [hpath, BitVec.ofNat_toNat, BitVec.setWidth_eq]
  exact hmem

/-- The code of a symbol that has one, in a state that is ready to write. -/
theorem ReadyToWrite.mem_codes {bytes : List Byte} {tr : CodeTree} {u : State} (h : ReadyToWrite bytes tr u) {i : Nat}
    (hi : i ≤ 256) (hv : (u.codeAt i).valid = true) : (BitVec.ofNat 9 i, (u.codeAt i).bits) ∈ tr.codes [] := by
  rw [State.codeAt, h.code] at hv ⊢
  exact mem_codes_of_tableOf_valid hi hv

/-- The codes of a sequence of bytes in a row are a body. -/
theorem body_of_bytes {t : CodeTree} {code : Byte → List Bool} (bytes : List Byte)
    (h : ∀ v ∈ bytes, (BitVec.ofNat 9 v.toNat, code v) ∈ t.codes []) :
    Body t (bytes.map fun v => BitVec.ofNat 9 v.toNat) (bytes.flatMap code) := by
  induction bytes with
  | nil => exact .nil
  | cons v bytes ih =>
    refine .cons _ _ _ _ (h v List.mem_cons_self) ?_ (ih fun w hw => h w (List.mem_cons_of_mem v hw))
    bv_omega

/-- Cut to eight bits, the symbols of a sequence of bytes are the bytes (R183). -/
theorem map_setWidth_syms (bytes : List Byte) :
    (bytes.map fun v => BitVec.ofNat 9 v.toNat).map (fun sym => sym.setWidth 8) = bytes := by
  rw [List.map_map]
  refine List.map_id'' (fun v => ?_) bytes
  simp only [Function.comp_apply]
  bv_omega

/-! ## `DEC` -/

/-- Weights have no part in a body. -/
theorem Body.unweighted {t : CodeTree} {syms : List Sym} {bits : List Bool} (h : Body t syms bits) :
    Body t.unweighted syms bits := by
  induction h with
  | nil => exact .nil
  | cons sym p syms bits hmem hne _ ih => exact .cons sym p syms bits (by rwa [t.codes_unweighted]) hne ih

/-- Every symbol of a body takes a bit at least. -/
theorem Body.length_le {t : CodeTree} {syms : List Sym} {bits : List Bool} (hl : t.isLeaf = false) (h : Body t syms bits) :
    syms.length ≤ bits.length := by
  induction h with
  | nil => exact Nat.le_refl 0
  | cons sym p syms bits hmem _ _ ih =>
    have := List.length_pos_of_ne_nil (CodeTree.code_ne_nil hl hmem)
    rw [List.length_cons, List.length_append]
    omega

/-- `DEC` with a body and the sentinel's code ahead (R185). -/
theorem exec_dec_of_body {s : State} {t : CodeTree} {syms : List Sym} {bits p rest : List Bool} (hc : s.cause = 0#5)
    (hr : s.root ≠ 0x3FF#10) (hd : s.done = false) (ht : s.tree = some t) (hl : t.isLeaf = false) (hb : Body t syms bits)
    (hp : (256#9, p) ∈ t.codes []) (ha : s.ahead = bits ++ p ++ rest) :
    ∃ u, exec .dec s = .next u ∧
      u = { s with
        cur := u.cur, done := true, inPos := s.inPos + bits.length + p.length,
        outItems := s.outItems ++ (bitsOfBytes (syms.map fun sym => sym.setWidth 8)).map .bit, ops := u.ops,
        rsp := some ⟨0, 0⟩ } ∧
      walkFrom s.nodes s.root p = some u.cur ∧ ∃ n, u.nodeAt u.cur = some n ∧ n.kind = .leaf ∧ n.sym = 256#9 := by
  have hfuel : syms.length < s.inBits.length + 1 := by
    have hsyms := hb.length_le hl
    have hbits := congrArg List.length ha
    rw [State.ahead_length, List.length_append, List.length_append] at hbits
    omega
  obtain ⟨m, n, hloop, hm, hwalk, hn⟩ := decodeLoop_ok hl hp hb (s.inBits.length + 1) s rest ht hd ha hfuel
  refine ⟨m.respond 0, ?_, by rw [hm]; rfl, hwalk, n, hn⟩
  show unlessInError s (withPrecondition s.mayDecode .dec s (decodeLoop (s.inBits.length + 1) s).finish) = _
  rw [unlessInError_of_ok _ hc, withPrecondition, if_pos ((mayDecode_iff s).mpr ⟨hr, hd⟩), hloop]
  rfl

/-! ## The whole call -/

/-- The bits of OUT where a command sequence wrote bits and then one marker (R64). -/
theorem outBitsOf_map_bit_flush (p : List Bool) : outBitsOf (p.map .bit ++ [.flush]) = p := by
  rw [outBitsOf_append, outBitsOf_map_bit]
  exact List.append_nil p

theorem CodeTree.isLeaf_unweighted (t : CodeTree) : t.unweighted.isLeaf = t.isLeaf := by cases t <;> rfl

/-- `DECOMPRESS` of the magic, the header of a tree, a body over the tree and the sentinel's code writes the body's bytes and
one marker, whatever bits follow (R99, R186). -/
theorem runOk_decompress {s : State} {t : CodeTree} {syms : List Sym} {bits p pad : List Bool}
    (ha : s.ahead = msbBits s.magic ++ (t.hdr ++ (bits ++ p ++ pad))) (hl : t.isLeaf = false) (hn : t.size ≤ 513)
    (hs : ∀ sym ∈ t.syms, sym.toNat ≤ 256) (hb : Body t syms bits) (hp : (256#9, p) ∈ t.codes []) :
    ∃ u, runOk Pseudo.decompress.expand s = some u ∧
      u.outItems = s.outItems ++ ((bitsOfBytes (syms.map fun sym => sym.setWidth 8)).map .bit ++ [.flush]) := by
  set c := s.clearBlock.respond 0
  have haheadC : c.ahead = msbBits c.magic ++ (t.hdr ++ (bits ++ p ++ pad)) := ha
  have hmgr := exec_mgr_of_magic (s := c) rfl haheadC
  set m : State := { c with inPos := c.inPos + 32, ops := c.ops ++ [.read 32], rsp := some ⟨0, 0⟩ }
  have haheadM : m.ahead = t.hdr ++ (bits ++ p ++ pad) := by
    rw [State.ahead_of_inPos (s := c) (t := m) (n := 32) rfl rfl, haheadC, List.drop_left' (msbBits_length _)]
  have hhdr := exec_hdr_of_header (s := m) rfl haheadM hl hn hs
  set d := (headerRead t m).respond 0
  have haheadD : d.ahead = bits ++ p ++ pad := by
    rw [State.ahead_of_inPos (s := m) (t := d) (n := t.hdr.length) rfl rfl, haheadM, List.drop_left]
  obtain ⟨v, hdec, hv, -⟩ := exec_dec_of_body (s := d) rfl (show (0 : Idx) ≠ 0x3FF#10 by decide) rfl
    (tree_headerRead (by omega) m) (t.isLeaf_unweighted.trans hl) hb.unweighted (by rwa [t.codes_unweighted]) haheadD
  obtain ⟨ops, hfls⟩ := exec_fls_of_ok (s := v) (by rw [hv]; rfl)
  refine ⟨v.wrote [.flush] ops, ?_, ?_⟩
  · rw [Pseudo.expand, runOk_cons (t := c) rfl rfl, runOk_cons hmgr rfl, runOk_cons hhdr rfl, runOk_cons hdec (by rw [hv]),
      runOk_cons hfls rfl, runOk]
  · show v.outItems ++ [.flush] = _
    rw [hv, ← List.append_assoc]
    rfl

/-- Settles O60: `COMPRESS` writes the magic, the header of a sound tree and a body over that tree, which is what `DECOMPRESS`
reads. -/
theorem decompressUndoesCompress : Obligations.DecompressUndoesCompress := by
  intro bytes s s' pad hn hin hpos hout
  obtain ⟨tr, u, hmake, hready, hmagic, houtU⟩ := runOk_clr_cnt_bld_gen hn hin hpos
  obtain ⟨ops, hwrite⟩ := hready.runOk_mgw_hdw_enc_fls
  refine ⟨_, (hmake _).trans hwrite, fun hmagic' hin' hpos' hout' => ?_⟩
  have hread : s'.ahead = msbBits s'.magic ++ (tr.hdr ++
      ((bytes.flatMap fun v => (u.codeAt v.toNat).bits) ++ (u.codeAt 256).bits ++ pad)) := by
    rw [State.ahead, hpos', List.drop_zero, hin', State.wrote, houtU, hout, List.nil_append, outBitsOf_map_bit_flush,
      hmagic, hmagic', State.bodyOf]
    simp only [List.append_assoc]
  have hbody := body_of_bytes bytes fun v hv => hready.mem_codes (Nat.le_of_lt v.isLt) (hready.bytesCoded v hv)
  have hsize : tr.size ≤ 513 := (hready.arena.size_tree hready.root hready.tree).trans_le hready.arena.size
  obtain ⟨w, hrun, hwritten⟩ := runOk_decompress hread (hready.arena.isLeaf_eq_false hready.root hready.tree) hsize
    (toNat_le_of_mem_syms_treeAt hready.arena.records hready.tree) hbody
    (hready.mem_codes (Nat.le_refl 256) hready.sentCoded)
  refine ⟨w, hrun, ?_⟩
  rw [hwritten, hout', List.nil_append, outBitsOf_map_bit_flush, map_setWidth_syms]

end Sys2Proof.Machine
end

section
/-! PROOFS. The control family (`45_control.md` R200 to R202): the reset state that `CLR` shares with reset, and what `RDS` answers
on either side of its operand check, then the three obligations. -/

namespace Sys2Proof.Machine

/-! ## `CLR` and `FLS` -/

/-- What `CLR` clears is all that a reset clears but the response port (R200, R250). -/
theorem State.clearBlock_eq_reset (s : State) :
    s.clearBlock = { State.reset with
      magic := s.magic, inBits := s.inBits, inPos := s.inPos, outItems := s.outItems, ops := s.ops, host := s.host,
      rsp := s.rsp } :=
  congrArg (fun t : State => { t with rsp := s.rsp }) s.resetBlock_eq_reset

/-- `CLR` from every state, in error or not (R200). -/
theorem exec_clr (s : State) : exec .clr s = .next (s.clearBlock.respond 0) := rfl

/-- Settles O11: the block is cleared to the reset state, and the response is the only field that `CLR` adds. -/
theorem clrRestoresTheResetState : Obligations.ClrRestoresTheResetState := by
  refine ⟨by decide, fun s => ?_⟩
  rw [exec_clr, s.clearBlock_eq_reset, State.respond]

/-- Settles O12: out of error `FLS` writes the marker, in error it is refused. -/
theorem flsAppendsOneFlushMarker : Obligations.FlsAppendsOneFlushMarker := by
  refine ⟨by decide, fun s => ⟨fun hc => ?appends, fun hc => unlessInError_of_err _ hc⟩⟩
  case appends =>
    obtain ⟨ops, h⟩ := exec_fls_of_ok hc
    exact ⟨_, h, rfl⟩

/-! ## `RDS` -/

/-- `CSR[8]` (R40), the one register whose value does not depend on the state. -/
theorem State.csr_config (s : State) : s.csr 8 = 0x03008060 := show configWord.setWidth 64 = _ by decide

/-- `CSR[6]` is `QLEN`, which is 0 between commands (R26, R37). -/
theorem State.csr_qlen_of_empty {s : State} (h : s.pq = []) : s.csr 6 = 0 := by rw [State.csr, h]; rfl

/-- R37, R96: `RDS` of a register of 0..9 answers what the register file holds. -/
theorem exec_rds_of_csr {idx : Idx} {s : State} {d : Word64} (h : idx.toNat ≤ 9) (hd : s.csr idx.toNat = d) :
    exec (.rds idx) s = .next { s with rsp := some ⟨0, d⟩ } := by
  subst hd
  exact if_pos (decide_eq_true h)

/-- R96, R221 step 3: `RDS` of a greater number is a `BadOperand`. -/
theorem exec_rds_of_gt {idx : Idx} (h : 9 < idx.toNat) (s : State) :
    exec (.rds idx) s = .next (s.raise .badOperand (encode (.rds idx))) :=
  if_neg (by simpa [csrInRange] using h)

/-- Settles O13: each register is answered from the register file, and a greater number is a fault. -/
theorem rdsAnswersTheControlRegister : Obligations.RdsAnswersTheControlRegister := by
  refine ⟨by decide, fun s => ⟨exec_rds_of_csr (by decide) rfl, exec_rds_of_csr (by decide) rfl,
    exec_rds_of_csr (by decide) rfl, exec_rds_of_csr (by decide) rfl, exec_rds_of_csr (by decide) rfl,
    exec_rds_of_csr (by decide) rfl, fun hq => exec_rds_of_csr (by decide) (State.csr_qlen_of_empty hq),
    exec_rds_of_csr (by decide) rfl, exec_rds_of_csr (by decide) s.csr_config, exec_rds_of_csr (by decide) rfl,
    fun idx h => ⟨fun hc => ?firstFault, fun hc => ?laterFault⟩⟩⟩
  case firstFault => rw [exec_rds_of_gt h, State.raise_of_ok _ _ _ hc]; rfl
  case laterFault => rw [exec_rds_of_gt h, State.raise_of_err _ _ _ hc]; rfl

end Sys2Proof.Machine
end

section
/-! PROOFS. The exceptions family (`60_exceptions.md` R222): which commands read, what a command outside them answers in error and
what a read within its operand space answers in any state, then the obligation. -/

namespace Sys2Proof.Machine

/-! ## The refusal and its exceptions -/

/-- `isRead` holds of no command outside the five reads that R222 lists. -/
theorem Instr.isRead_eq_false {i : Instr} (hrds : ∀ n, i ≠ .rds n) (hrdf : ∀ n, i ≠ .rdf n) (hrdn : ∀ n, i ≠ .rdn n)
    (hrdw : ∀ n, i ≠ .rdw n) (hrdc : ∀ n c, i ≠ .rdc n c) : i.isRead = false := by
  cases i with
  | rds n => exact absurd rfl (hrds n)
  | rdf n => exact absurd rfl (hrdf n)
  | rdn n => exact absurd rfl (hrdn n)
  | rdw n => exact absurd rfl (hrdw n)
  | rdc n c => exact absurd rfl (hrdc n c)
  | clr | fls | ldf | cnt | bld | gen | mgw | mgr | hdw | hdr | enc | dec | dsym => rfl

/-- R221 step 2: every command but `CLR` and the reads checks for the error state first. -/
theorem exec_of_err {i : Instr} {s : State} (hclr : i ≠ .clr) (hread : i.isRead = false) (hc : s.cause ≠ 0#5) :
    exec i s = .next s.refuse := by
  cases i with
  | clr => exact absurd rfl hclr
  | rds | rdf | rdn | rdw | rdc => cases hread
  | fls | ldf | cnt | bld | gen | mgw | mgr | hdw | hdr | enc | dec | dsym => exact unlessInError_of_err _ hc

/-- R77, R222: a read within its operand space answers in every state, in error or not, and changes nothing but the response. -/
theorem exec_read_of_operandInRange {i : Instr} (hread : i.isRead = true) (hrange : i.operandInRange = true) (s : State) :
    ∃ d, exec i s = .next (s.respond d) := by
  cases i with
  | rds | rdf | rdn | rdw | rdc => exact ⟨_, if_pos hrange⟩
  | clr | fls | ldf | cnt | bld | gen | mgw | mgr | hdw | hdr | enc | dec | dsym => cases hread

/-- Settles O42: `CLR` and the reads are the exceptions that R222 names, every other command is refused. -/
theorem commandsAreRefusedInError : Obligations.CommandsAreRefusedInError := by
  refine fun i s hc => ⟨fun hclr hrds hrdf hrdn hrdw hrdc => ?refused, fun hclr => ?cleared, fun hread hrange => ?answered⟩
  case refused => exact exec_of_err hclr (Instr.isRead_eq_false hrds hrdf hrdn hrdw hrdc) hc
  case cleared => exact ⟨_, hclr ▸ exec_clr s, rfl, rfl⟩
  case answered => exact exec_read_of_operandInRange hread hrange s

end Sys2Proof.Machine
end

section
/-! PROOFS. `decode` and `encode` undo each other (`30_encoding.md` R91 to R96): what a search through the opcode map that
found a command says of the fields, and the fields of the command each row answers. -/

namespace Sys2Proof

/-! ## From a command to its word and back -/

/-- The three bits of `DATA` that carry a chunk number hold it whole (R96). -/
theorem setWidth_chunk (chunk : BitVec 3) : (chunk.setWidth 32).extractLsb' 0 3 = chunk := by
  ext j hj
  simp [hj, show j < 32 by omega]

/-- The opcode of a command selects its own row, whose check answers the command itself (R93). -/
theorem Instr.decode_fields (i : Instr) : i.fields.decode = i.fields.check (Laws.Encodes.format i) i := by
  cases i with
  | rdc idx chunk =>
    show (Instr.rdc idx chunk).fields.check .c (.rdc idx ((chunk.setWidth 32).extractLsb' 0 3)) = _
    rw [setWidth_chunk]
    rfl
  | clr | rds | fls | ldf | rdf | cnt | bld | rdn | rdw | gen | mgw | mgr | hdw | hdr | enc | dec | dsym => rfl

/-- The fields of a command pass the check of its format (R95). -/
theorem Instr.check_fields (i : Instr) : i.fields.check (Laws.Encodes.format i) i = .ok i := by
  cases i with
  | rdc idx chunk => exact Laws.Encodes.rdc idx chunk
  | clr | rds | fls | ldf | rdf | cnt | bld | rdn | rdw | gen | mgw | mgr | hdw | hdr | enc | dec | dsym => rfl

/-- Settles O1: the word gives the command's fields back, and these select the command's row and pass its check. -/
theorem decodeOfEncodeIsTheCommand : Obligations.DecodeOfEncodeIsTheCommand := by
  intro i
  rw [decode, Fields.ofWord_encode, i.decode_fields, i.check_fields]

/-! ## From a word to its command and back -/

/-- A search that found a command found it in a row with the word's opcode, with `RSV` and the row's unused fields 0. -/
theorem Fields.searchRows_ok {f : Fields} {i : Instr} (rows : List (String × Format × BitVec 8)) :
    ∀ cmds : List Instr, f.searchRows rows cmds = .ok i →
      ∃ p ∈ rows.zip cmds, f.op = p.1.2.2 ∧ f.rsv = 0 ∧ p.1.2.1.unusedZero f = true ∧ i = p.2 := by
  induction rows with
  | nil => intro cmds h; cases h
  | cons r rows ih =>
    intro cmds h
    cases cmds with
    | nil => cases h
    | cons c cmds =>
      rw [Fields.searchRows] at h
      by_cases hop : f.op = r.2.2
      · rw [if_pos hop] at h
        obtain ⟨hrsv, hzero, rfl⟩ := Fields.check_ok h
        exact ⟨(r, i), List.mem_cons_self, hop, hrsv, hzero, rfl⟩
      · rw [if_neg hop] at h
        obtain ⟨p, hp, hrow⟩ := ih cmds h
        exact ⟨p, List.mem_cons_of_mem _ hp, hrow⟩

/-- The chunk number and 29 zero bits make up `DATA` (R95, R96). -/
theorem Fields.setWidth_chunk_of_upper {f : Fields} (h : f.data.extractLsb' 3 29 = 0) : f.chunk.setWidth 32 = f.data := by
  apply BitVec.eq_of_getLsbD_eq
  intro j hj
  rw [BitVec.getLsbD_setWidth, Fields.chunk, BitVec.getLsbD_extractLsb']
  by_cases h3 : j < 3
  · simp [h3, hj]
  · have hzero := congrArg (fun v => v.getLsbD (j - 3)) h
    simp only [BitVec.getLsbD_extractLsb', show 3 + (j - 3) = j by omega, show j - 3 < 29 by omega, decide_true,
      Bool.true_and] at hzero
    simp [h3, hzero]

/-- The command of each row is encoded in the word's own fields, where those the row does not use are 0 (R93, R95). -/
theorem Fields.commands_fields (f : Fields) : ∀ p ∈ opTable.zip f.commands,
    p.1.2.1.unusedZero f = true → p.2.fields = ⟨p.1.2.2, 0, f.idx, f.data⟩ := by
  have formatN (op : BitVec 8) (h : Format.n.unusedZero f = true) : (⟨op, 0, 0, 0⟩ : Fields) = ⟨op, 0, f.idx, f.data⟩ := by
    simp only [Format.unusedZero, Bool.and_eq_true, beq_iff_eq] at h
    rw [h.1, h.2]
  have formatI (op : BitVec 8) (h : Format.i.unusedZero f = true) : (⟨op, 0, f.idx, 0⟩ : Fields) = ⟨op, 0, f.idx, f.data⟩ := by
    simp only [Format.unusedZero, beq_iff_eq] at h
    rw [h]
  have formatC (h : Format.c.unusedZero f = true) :
      (⟨0x31#8, 0, f.idx, f.chunk.setWidth 32⟩ : Fields) = ⟨0x31#8, 0, f.idx, f.data⟩ := by
    rw [Fields.setWidth_chunk_of_upper (by simpa [Format.unusedZero] using h)]
  simp only [opTable, Fields.commands, List.zip_cons_cons, List.zip_nil_right, List.forall_mem_cons]
  exact ⟨formatN _, formatI _, formatN _, fun _ => rfl, formatI _, formatN _, formatN _, formatI _, formatI _, formatN _,
    formatC, formatN _, formatN _, formatN _, formatN _, formatN _, formatN _, formatN _, by simp⟩

/-- Settles O2: the row that answered the command has the word's opcode, so the command's fields are the word's. -/
theorem encodeOfADecodedWordIsTheWord : Obligations.EncodeOfADecodedWordIsTheWord := by
  intro w i h
  rw [decode, Fields.decode_eq_searchRows] at h
  obtain ⟨p, hp, hop, hrsv, hzero, rfl⟩ := Fields.searchRows_ok opTable _ h
  rw [encode, Fields.commands_fields _ p hp hzero, ← hop, ← hrsv]
  exact Fields.word_ofWord w

/-! ## Words written out -/

/-- Settles O4: the six words and the three illegal ones are run through the decoder. -/
theorem wordsWrittenOutDecode : Obligations.WordsWrittenOutDecode := by
  unfold Obligations.WordsWrittenOutDecode
  decide

end Sys2Proof
end

section
/-! PROOFS. What holds of every command (`60_exceptions.md` R210, R211, R220, R221): the ends of a command as `exec_ends` lists
them, read once for what is never touched, once for the tables each command writes and once for the cause it latches. -/

namespace Sys2Proof.Machine

/-! ## What a command leaves alone -/

/-- No command touches `MAGIC` or the host's actions. -/
theorem exec_magic_host {i : Instr} {s t : State} (h : exec i s = .next t) : t.magic = s.magic ∧ t.host = s.host := by
  rcases exec_ends h with ⟨-, rfl⟩ | ⟨d, -, -, rfl⟩ | ⟨-, -, -, rfl⟩ | ⟨-, -, rfl⟩ | ⟨-, -, rfl⟩ | ⟨m, d, -, he, rfl⟩ |
    ⟨m, c, x, -, ha, rfl⟩
  · exact ⟨rfl, rfl⟩
  · exact ⟨rfl, rfl⟩
  · exact ⟨rfl, rfl⟩
  · exact ⟨s.raise_magic _ _, s.raise_host _ _⟩
  · exact ⟨s.raise_magic _ _, s.raise_host _ _⟩
  · exact ⟨he.frame.magic, he.frame.host⟩
  · exact ⟨(m.raise_magic c x).trans ha.frame.magic, (m.raise_host c x).trans ha.frame.host⟩

/-- Every command ends with a response offered (R90, R210). -/
theorem exec_rsp_ne_none {i : Instr} {s t : State} (h : exec i s = .next t) : t.rsp ≠ none := by
  rcases exec_ends h with ⟨-, rfl⟩ | ⟨d, -, -, rfl⟩ | ⟨-, -, -, rfl⟩ | ⟨-, -, rfl⟩ | ⟨-, -, rfl⟩ | ⟨m, d, -, he, rfl⟩ |
    ⟨m, c, x, -, ha, rfl⟩
  · exact Option.some_ne_none _
  · exact Option.some_ne_none _
  · exact Option.some_ne_none _
  · rw [State.raise_rsp]; exact Option.some_ne_none _
  · rw [State.raise_rsp]; exact Option.some_ne_none _
  · exact Option.some_ne_none _
  · rw [State.raise_rsp]; exact Option.some_ne_none _

/-- A command that is not among the writers of a table or register leaves it as it was (R22, R24, R26, R27, R30, R38, R75). -/
structure Writers (i : Instr) (s t : State) : Prop where
  freq : (∀ idx data, i ≠ .ldf idx data) → i ≠ .cnt → t.freq = s.freq
  arena : i ≠ .bld → i ≠ .hdr → t.nodes = s.nodes ∧ t.root = s.root
  queue : i ≠ .bld → t.seq = s.seq ∧ t.pq = s.pq
  code : i ≠ .bld → i ≠ .hdr → i ≠ .gen → t.code = s.code ∧ t.codeOk = s.codeOk
  walker : i ≠ .bld → i ≠ .hdr → i ≠ .dec → i ≠ .dsym → t.cur = s.cur ∧ t.done = s.done

theorem Writers.refl (i : Instr) (s : State) : Writers i s s :=
  ⟨fun _ _ => rfl, fun _ _ => ⟨rfl, rfl⟩, fun _ => ⟨rfl, rfl⟩, fun _ _ _ => ⟨rfl, rfl⟩, fun _ _ _ _ => ⟨rfl, rfl⟩⟩

theorem Writers.of_eq {i : Instr} {s m u : State} (h : m = u) (hw : Writers i s u) : Writers i s m := h ▸ hw

/-- The response port is no table. -/
theorem Writers.withRsp {i : Instr} {s m : State} (h : Writers i s m) (r : Option Response) :
    Writers i s { m with rsp := r } :=
  { h with }

/-- Fault entry writes no table (R220). -/
theorem Writers.raise {i : Instr} {s m : State} (h : Writers i s m) (c : Cause) (x : Word64) : Writers i s (m.raise c x) :=
  .of_eq (m.raise_same c x) { h with }

/-- A command that touches the streams only. -/
theorem Writers.of_streams {i : Instr} {s m : State}
    (h : m = { s with inPos := m.inPos, outItems := m.outItems, ops := m.ops }) : Writers i s m :=
  .of_eq h { Writers.refl i s with }

/-- A command that counts touches the streams and `FREQ`. -/
theorem Writers.of_freq {i : Instr} {s m : State} (hi : (∃ idx data, i = .ldf idx data) ∨ i = .cnt)
    (h : m = { s with freq := m.freq, inPos := m.inPos, ops := m.ops }) : Writers i s m := by
  refine .of_eq h { Writers.refl i s with freq := fun hldf hcnt => ?_ }
  obtain ⟨idx, data, rfl⟩ | rfl := hi
  · exact absurd rfl (hldf idx data)
  · exact absurd rfl hcnt

/-- The decoder touches the streams and the walker. -/
theorem Writers.of_walk {i : Instr} {s m : State} (hi : i = .dec ∨ i = .dsym) (h : BodyFrame s m) : Writers i s m := by
  refine .of_eq h.1 { Writers.refl i s with walker := fun _ _ hdec hdsym => ?_ }
  obtain rfl | rfl := hi
  · exact absurd rfl hdec
  · exact absurd rfl hdsym

/-- `HDR` writes what belongs to the tree and IN's cursor. -/
theorem Writers.of_header {s m : State} {nodes : List Node} {root : Idx}
    (h : m = { s.discardTree with nodes := nodes, root := root, inPos := m.inPos, ops := m.ops }) : Writers .hdr s m :=
  .of_eq h { Writers.refl .hdr s with
    arena := fun _ h => absurd rfl h, code := fun _ h => absurd rfl h, walker := fun _ h => absurd rfl h }

/-- What the work of a command that answers `OK` writes. -/
theorem Effect.writers {i : Instr} {s m : State} {d : Word64} (h : Effect i s m d) : Writers i s m := by
  cases i with
  | fls => obtain ⟨rfl, -⟩ := h; exact .of_streams rfl
  | ldf idx data => obtain ⟨rfl, -⟩ := h; exact .of_freq (.inl ⟨idx, data, rfl⟩) rfl
  | cnt =>
    obtain ⟨-, h, -⟩ := h
    exact .of_freq (.inr rfl) (by rw [h])
  | bld =>
    exact .of_eq (h.1.trans (buildTree_frame s)) ⟨fun _ _ => rfl, fun h => absurd rfl h, fun h => absurd rfl h,
      fun h => absurd rfl h, fun h => absurd rfl h⟩
  | gen =>
    obtain ⟨-, -, t, -, rfl⟩ := h
    exact { Writers.refl .gen s with code := fun _ _ h => absurd rfl h }
  | mgw => obtain ⟨rfl, -⟩ := h; exact .of_streams rfl
  | mgr => obtain ⟨-, h, -⟩ := h; exact .of_streams (by rw [h])
  | hdw => obtain ⟨-, -, t, -, rfl⟩ := h; exact .of_streams (by rw [emitTree_eq])
  | hdr => obtain ⟨-, -, t, rest, -, -, -, -, rfl⟩ := h; exact .of_header rfl
  | enc => exact .of_streams h.2.2.1
  | dec => obtain ⟨-, -, h, -⟩ := h; exact .of_walk (.inl rfl) h
  | dsym => obtain ⟨-, h, -⟩ := h; exact .of_walk (.inr rfl) h
  | clr | rds | rdf | rdn | rdw | rdc => exact h.elim

/-- What the work of a command that stops at a fault has written (R227). -/
theorem Abort.writers {i : Instr} {s m : State} {c : Cause} (h : Abort i s m c) : Writers i s m := by
  cases i with
  | cnt => obtain ⟨-, h, -⟩ := h; exact .of_freq (.inr rfl) h
  | mgr => obtain ⟨-, h, -⟩ := h; exact .of_streams (by rw [h])
  | hdr => obtain ⟨-, h, -⟩ := h; exact .of_header (nodes := []) (root := Config.nil) h
  | enc => exact .of_streams h.2.1
  | dec => obtain ⟨-, -, h, -⟩ := h; exact .of_walk (.inl rfl) h
  | dsym => obtain ⟨-, -, h, -⟩ := h; exact .of_walk (.inr rfl) h
  | clr | fls | rds | ldf | rdf | bld | rdn | rdw | gen | rdc | mgw | hdw => exact h.elim

/-- Only `CLR` clears; every other command writes its own tables. -/
theorem exec_writers {i : Instr} {s t : State} (hi : i ≠ .clr) (h : exec i s = .next t) : Writers i s t := by
  rcases exec_ends h with ⟨hclr, -⟩ | ⟨d, -, -, rfl⟩ | ⟨-, -, -, rfl⟩ | ⟨-, -, rfl⟩ | ⟨-, -, rfl⟩ | ⟨m, d, -, he, rfl⟩ |
    ⟨m, c, x, -, ha, rfl⟩
  · exact absurd hclr hi
  · exact (Writers.refl i s).withRsp _
  · exact (Writers.refl i s).withRsp _
  · exact (Writers.refl i s).raise _ _
  · exact (Writers.refl i s).raise _ _
  · exact he.writers.withRsp _
  · exact ha.writers.raise c x

/-- Settles O49: what no command touches, and then the writers of each table. -/
theorem eachPieceOfStateHasItsWriters : Obligations.EachPieceOfStateHasItsWriters := by
  intro i s t h
  have hstream := exec_streamed h
  obtain ⟨hmagic, hhost⟩ := exec_magic_host h
  refine ⟨⟨hstream.inBits, hmagic, hhost, hstream.outItems⟩, fun hi => ?_⟩
  have hw := exec_writers hi h
  exact ⟨hw.freq, hw.arena, hw.queue, hw.code, hw.walker⟩

/-- Settles O50: the record `exec_streamed` finds for every command accounts for the cursor and the output. -/
theorem streamOperationsAreThoseOfTheTable : Obligations.StreamOperationsAreThoseOfTheTable := by
  intro i s t h
  obtain ⟨l, hops, hallowed, -, hpos, hout⟩ := exec_streamed h
  exact ⟨l, hops, hallowed, hpos, hout⟩

/-! ## Causes -/

/-- Settles O43: in error a command is refused or answers a read, and fault entry keeps the first fault. -/
theorem firstFaultStaysUntilClr : Obligations.FirstFaultStaysUntilClr := by
  intro i s t hc hi h
  rcases exec_ends h with ⟨hclr, -⟩ | ⟨d, -, -, rfl⟩ | ⟨-, -, -, rfl⟩ | ⟨-, -, rfl⟩ | ⟨hok, -⟩ | ⟨m, d, hok, -⟩ |
    ⟨m, c, x, hok, -⟩
  · exact absurd hclr hi
  · exact ⟨rfl, rfl⟩
  · exact ⟨rfl, rfl⟩
  · rw [State.raise_of_err _ _ _ hc]; exact ⟨rfl, rfl⟩
  · exact absurd hok hc
  · exact absurd hok hc
  · exact absurd hok hc

/-- R211's raised-by column: the commands that raise a cause. -/
def Cause.raisedBy (i : Instr) : Cause → Prop
  | .badMagic => i = .mgr
  | .truncatedHeader | .badSymbol | .treeOverflow | .degenerateTree => i = .hdr
  | .truncatedBody => i = .dec ∨ i = .dsym
  | .illegalCommand => False
  | .badOperand => i.operandInRange = false
  | .sequenceError => i = .gen ∨ i = .hdw ∨ i = .enc ∨ i = .dec ∨ i = .dsym
  | .countOverflow => i = .cnt
  | .missingCode => i = .enc

/-- A fault met inside a command is one of the command's own. -/
theorem Abort.raisedBy {i : Instr} {s m : State} {c : Cause} (h : Abort i s m c) : c.raisedBy i := by
  cases i with
  | cnt => obtain ⟨rfl, -⟩ := h; rfl
  | mgr => obtain ⟨rfl, -⟩ := h; rfl
  | hdr => obtain ⟨rfl | rfl | rfl | rfl, -⟩ := h <;> rfl
  | enc => obtain ⟨rfl, -⟩ := h; rfl
  | dec => obtain ⟨rfl, -⟩ := h; exact .inl rfl
  | dsym => obtain ⟨rfl, -⟩ := h; exact .inr rfl
  | clr | fls | rds | ldf | rdf | bld | rdn | rdw | gen | rdc | mgw | hdw => exact h.elim

/-- How a command that starts with no fault recorded ends: with `OK` and none, or at a fault of its own that its response
carries without data (R210, R220). -/
theorem exec_of_ok_ends {i : Instr} {s t : State} (hc : s.cause = 0#5) (h : exec i s = .next t) :
    (t.cause = 0#5 ∧ ∃ d, t.rsp = some ⟨0, d⟩) ∨
      ∃ c : Cause, c.raisedBy i ∧ t.cause = c.code ∧ t.rsp = some ⟨c.code.setWidth 8, 0⟩ := by
  have latch (m : State) (c : Cause) (x : Word64) (hm : m.cause = 0#5) (hr : c.raisedBy i) : ∃ c' : Cause, c'.raisedBy i ∧
      (m.raise c x).cause = c'.code ∧ (m.raise c x).rsp = some ⟨c'.code.setWidth 8, 0⟩ := by
    rw [State.raise_of_ok _ _ _ hm]; exact ⟨c, hr, rfl, rfl⟩
  rcases exec_ends h with ⟨-, rfl⟩ | ⟨d, -, -, rfl⟩ | ⟨herr, -⟩ | ⟨hrange, -, rfl⟩ | ⟨-, hi, rfl⟩ | ⟨m, d, -, he, rfl⟩ |
    ⟨m, c, x, -, ha, rfl⟩
  · exact .inl ⟨rfl, 0, rfl⟩
  · exact .inl ⟨hc, d, rfl⟩
  · exact absurd hc herr
  · exact .inr (latch s .badOperand _ hc hrange)
  · exact .inr (latch s .sequenceError _ hc hi)
  · exact .inl ⟨he.frame.cause.trans hc, d, rfl⟩
  · exact .inr (latch m c x (ha.frame.cause.trans hc) ha.raisedBy)

/-- Settles O44: the response of either way to end. -/
theorem responseStatusIsTheLatchedCause : Obligations.ResponseStatusIsTheLatchedCause := by
  intro i s t hc h
  obtain ⟨hcause, d, hrsp⟩ | ⟨c, -, hcause, hrsp⟩ := exec_of_ok_ends hc h
  · exact ⟨_, hrsp, by rw [hcause]; rfl, fun h => absurd rfl h⟩
  · exact ⟨_, hrsp, by rw [hcause], fun _ => rfl⟩

/-- The cause a command leaves names the command: no two causes share a code. -/
theorem raisedBy_of_exec {i : Instr} {s t : State} (hc : s.cause = 0#5) (h : exec i s = .next t) (c : Cause)
    (hcause : t.cause = c.code) : c.raisedBy i := by
  obtain ⟨hzero, -⟩ | ⟨c', hraised, hcause', -⟩ := exec_of_ok_ends hc h
  · exact absurd (hcause.symm.trans hzero) c.code_ne_zero
  · rwa [Cause.code_injective (hcause.symm.trans hcause')]

/-- Settles O45: each clause is the raised-by column of its cause. -/
theorem eachCauseComesFromItsCommands : Obligations.EachCauseComesFromItsCommands := by
  intro i s t hc h
  have raised := raisedBy_of_exec hc h
  refine ⟨raised .badMagic, ?header, raised .truncatedBody, raised .illegalCommand, raised .badOperand,
    raised .sequenceError, raised .countOverflow, raised .missingCode, ?atMost⟩
  case header =>
    rintro (h2 | h8 | h9 | h10)
    · exact raised .truncatedHeader h2
    · exact raised .badSymbol h8
    · exact raised .treeOverflow h9
    · exact raised .degenerateTree h10
  case atMost =>
    obtain ⟨hzero, -⟩ | ⟨c, -, hcause, -⟩ := exec_of_ok_ends hc h
    · rw [hzero]; decide
    · rw [hcause]; exact c.code_le

/-! ## Checks before the work -/

theorem withOperand_of_false {b : Bool} (h : b = false) (i : Instr) (s : State) (o : StepResult) :
    withOperand b i s o = .next (s.raise .badOperand (encode i)) := by rw [h]; rfl

theorem withPrecondition_of_false {b : Bool} (h : b = false) (i : Instr) (s : State) (o : StepResult) :
    withPrecondition b i s o = .next (s.raise .sequenceError (encode i)) := by rw [h]; rfl

/-- R221 step 3, for every command that gets so far: the reads always, `LDF` out of error. -/
theorem exec_of_operand_out_of_range {i : Instr} {s : State} (h : i.operandInRange = false)
    (hs : s.cause = 0#5 ∨ i.isRead = true) : exec i s = .next (s.raise .badOperand (encode i)) := by
  cases i with
  | rds | rdf | rdn | rdw | rdc => exact withOperand_of_false h _ _ _
  | ldf =>
    obtain hc | hread := hs
    · exact (unlessInError_of_ok _ hc).trans (withOperand_of_false h _ _ _)
    · cases hread
  | clr | fls | cnt | bld | gen | mgw | mgr | hdw | hdr | enc | dec | dsym => cases h

/-- Settles O46: fault entry out of error and in error. -/
theorem operandOutOfRangeRaisesBadOperand : Obligations.OperandOutOfRangeRaisesBadOperand := by
  refine fun i s hrange => ⟨fun hc => ?first, fun hc hread => ?later⟩
  case first => rw [exec_of_operand_out_of_range hrange (.inl hc), State.raise_of_ok _ _ _ hc]; rfl
  case later => rw [exec_of_operand_out_of_range hrange (.inr hread), State.raise_of_err _ _ _ hc]; rfl

theorem hasTree_eq_false {s : State} (h : s.root = 0x3FF#10) : s.hasTree = false := by
  rw [State.hasTree, State.treeOk_eq_decide, h]; rfl

theorem mayDecode_eq_false {s : State} (h : s.root = 0x3FF#10 ∨ s.done = true) : s.mayDecode = false := by
  rw [State.mayDecode, State.treeOk_eq_decide]
  obtain h | h := h
  · rw [h]; rfl
  · rw [h, Bool.not_true, Bool.and_false]

/-- Settles O47: each of the five commands fails the precondition R221 gives it, and fault entry latches that. -/
theorem failedPreconditionRaisesSequenceError : Obligations.FailedPreconditionRaisesSequenceError := by
  intro i s hc hpre
  have raised {b : Bool} (o : StepResult) (hb : b = false) : unlessInError s (withPrecondition b i s o) =
      .next { s with cause := 6, info := encode i, rsp := some ⟨6, 0⟩ } := by
    rw [unlessInError_of_ok _ hc, withPrecondition_of_false hb, State.raise_of_ok _ _ _ hc]; rfl
  obtain ⟨rfl | rfl, hroot⟩ | ⟨rfl, hcode⟩ | ⟨rfl | rfl, hdecode⟩ := hpre
  · exact raised _ (hasTree_eq_false hroot)
  · exact raised _ (hasTree_eq_false hroot)
  · exact raised _ hcode
  · exact raised _ (mayDecode_eq_false hdecode)
  · exact raised _ (mayDecode_eq_false hdecode)

/-- Settles O48: a read in range only responds. -/
theorem readCommandsChangeNothing : Obligations.ReadCommandsChangeNothing :=
  fun _ s hread hrange => exec_read_of_operandInRange hread hrange s

end Sys2Proof.Machine
end

section
/-! PROOFS. The ports (`30_encoding.md` R90, `70_reset_and_hazards.md` R250, R251): what a step is for each action of the host,
and what a reset during a command leaves of its streams. -/

namespace Sys2Proof.Machine

/-! ## Commands on the port -/

/-- A word on a ready port is accepted (R90). -/
theorem step_of_command {s : State} {w : Word64} {rest : List HostEvent} (hh : s.host = .command w :: rest)
    (hr : s.rsp = none) : step s = runWord w { s with host := rest, ops := [] } := by
  rw [step, hostStep, hh]
  exact if_pos (by rw [State.cmdReady, hr]; rfl)

/-- A word on a port with a response pending waits (R90). -/
theorem step_of_command_pending {s : State} {w : Word64} {rest : List HostEvent} (hh : s.host = .command w :: rest)
    (hr : s.rsp ≠ none) : step s = .next s := by
  rw [step, hostStep, hh]
  exact if_neg (by simpa [State.cmdReady] using hr)

theorem runWord_of_ok {w : Word64} {i : Instr} (h : decode w = .ok i) (s : State) : runWord w s = exec i s := by
  rw [runWord, h]

theorem runWord_of_error {w : Word64} {r : Reject} (h : decode w = .error r) (s : State) :
    runWord w s = .next (s.raise .illegalCommand w) := by
  rw [runWord, h]

/-- A word that is not legal is rejected by the decoder (R94). -/
theorem exists_decode_error {w : Word64} (h : legalWord w = false) : ∃ r, decode w = .error r := by
  cases hd : decode w with
  | error r => exact ⟨r, rfl⟩
  | ok i =>
    have hlegal := (decodeAcceptsExactlyTheLegalWords w).mp ⟨i, hd⟩
    rw [h] at hlegal
    cases hlegal

/-- Every accepted word ends with a response offered and leaves the host's further actions (R90). -/
theorem runWord_rsp_host {w : Word64} {s t : State} (h : runWord w s = .next t) : t.rsp ≠ none ∧ t.host = s.host := by
  obtain ⟨i, -, h⟩ | ⟨-, rfl⟩ := runWord_next h
  · exact ⟨exec_rsp_ne_none h, (exec_magic_host h).2⟩
  · exact ⟨by rw [State.raise_rsp]; exact Option.some_ne_none _, s.raise_host _ _⟩

/-- Settles O5: the word is accepted and the decoder finds the command. -/
theorem stepRunsTheDecodedCommand : Obligations.StepRunsTheDecodedCommand := by
  intro s w rest i hh hr hd
  rw [step_of_command hh hr, runWord_of_ok hd]

/-- Settles O6: the decoder rejects the word, and fault entry is all that follows. -/
theorem illegalWordRaisesIllegalCommand : Obligations.IllegalWordRaisesIllegalCommand := by
  intro s w rest hh hr hw
  obtain ⟨r, hd⟩ := exists_decode_error hw
  rw [step_of_command hh hr, runWord_of_error hd]
  refine ⟨fun hc => ?first, fun hc => ?later⟩
  case first => exact congrArg Host.Outcome.next (State.raise_of_ok _ _ _ hc)
  case later => exact congrArg Host.Outcome.next (State.raise_of_err _ _ _ hc)

/-- Settles O7, clause by clause. -/
theorem oneResponseForEveryAcceptedCommand : Obligations.OneResponseForEveryAcceptedCommand := by
  refine fun s => ⟨fun hh => ?waits, fun w rest hh hr => step_of_command_pending hh hr, fun rest hh => ?taken,
    fun w rest t hh hr h => ?answered⟩
  case waits => rw [step, hostStep, hh]
  case taken => rw [step, hostStep, hh]; rfl
  case answered => exact runWord_rsp_host ((step_of_command hh hr).symm.trans h)

/-! ## Reset -/

/-- Settles O9: `resetBlock` depends on the constant and the environment only. -/
theorem resetActionResetsTheBlock : Obligations.ResetActionResetsTheBlock := by
  intro s rest hh
  rw [step, hostStep, hh]
  exact congrArg Host.Outcome.next (State.resetBlock_eq_reset _)

/-- A reset during an accepted command: the reset state, and the streams as the first `k` operations leave them (R251). -/
theorem step_of_resetDuring {s t : State} {w : Word64} {k : Nat} {rest : List HostEvent}
    (hh : s.host = .resetDuring w k :: rest) (hr : s.rsp = none) (h : runWord w { s with host := rest, ops := [] } = .next t) :
    step s = .next (replay (t.ops.take k) { s with host := rest, ops := [] }).resetBlock := by
  rw [step, hostStep, hh]
  show resetDuringCommand w k rest s = _
  rw [resetDuringCommand, if_pos (by rw [State.cmdReady, hr]; rfl), h]

/-- The record of an accepted word accounts for what the command did to the streams. -/
theorem runWord_replay {w : Word64} {s t : State} (hops : s.ops = []) (h : runWord w s = .next t) :
    SameStreams (replay t.ops s) t := by
  obtain ⟨i, -, h⟩ | ⟨-, rfl⟩ := runWord_next h
  · obtain ⟨l, hl, -, hsame⟩ := exec_streamed h
    rwa [hl, hops, List.nil_append]
  · rw [State.raise_ops, hops, replay_nil]
    exact ⟨s.raise_inBits _ _, s.raise_inPos _ _, s.raise_outItems _ _⟩

/-- A shorter record has written no more than the whole one (R251). -/
theorem replay_take_outItems_prefix (l : List StreamOp) (k : Nat) (s : State) :
    (replay (l.take k) s).outItems <+: (replay l s).outItems := by
  conv_rhs => rw [← List.take_append_drop k l, replay_append]
  exact replay_outItems_prefix _ _

/-- Settles O10: the streams after the reset are those of a part of the record, whose whole is the command's own. -/
theorem resetDuringACommandStopsBetweenStreamOperations : Obligations.ResetDuringACommandStopsBetweenStreamOperations := by
  intro s t w k rest hh hr h
  obtain ⟨-, hpos, hout⟩ := runWord_replay rfl h
  have hstart : SameStreams { s with ops := [] } { s with host := rest, ops := [] } := ⟨rfl, rfl, rfl⟩
  obtain ⟨-, hposK, houtK⟩ := replay_sameStreams (t.ops.take k) hstart
  have hframe := (replay_frame (t.ops.take k) { s with host := rest, ops := [] }).1
  have hopsK := replay_ops (t.ops.take k) { s with host := rest, ops := [] }
  refine ⟨_, step_of_resetDuring hh hr h, ?state, ?before, ?after, fun hk => ?none, fun hk => ?all⟩
  case state =>
    rw [State.resetBlock_eq_reset, hframe, ← hposK, ← houtK, hopsK]
    rfl
  case before => exact replay_outItems_prefix (t.ops.take k) { s with host := rest, ops := [] }
  case after =>
    rw [hout]
    exact replay_take_outItems_prefix t.ops k { s with host := rest, ops := [] }
  case none => subst hk; exact ⟨rfl, rfl⟩
  case all =>
    rw [List.take_of_length_le hk]
    exact ⟨hpos.symm, hout.symm⟩

end Sys2Proof.Machine
end

section
/-! PROOFS. The invariants (`10_state.md` R25, R26, R28, R32, R33, R35, R47, R61): what keeps a property of the arena, the code
table and the walker through every step, said once as `KeptByCommands`; then the invariants one after another. -/

namespace Sys2Proof.Machine

/-! ## Properties of the tree, the code table and the walker -/

/-- The two states agree on the tree, the code table and the walker. -/
structure SameTables (s t : State) : Prop where
  nodes : t.nodes = s.nodes
  root : t.root = s.root
  code : t.code = s.code
  codeOk : t.codeOk = s.codeOk
  cur : t.cur = s.cur
  done : t.done = s.done

/-- A command that is not a writer of the tree, the code table or the walker leaves all three alone. -/
theorem Writers.sameTables {i : Instr} {s m : State} (h : Writers i s m) (hbld : i ≠ .bld) (hhdr : i ≠ .hdr) (hgen : i ≠ .gen)
    (hdec : i ≠ .dec) (hdsym : i ≠ .dsym) : SameTables s m := by
  obtain ⟨hnodes, hroot⟩ := h.arena hbld hhdr
  obtain ⟨hcode, hcodeOk⟩ := h.code hbld hhdr hgen
  obtain ⟨hcur, hdone⟩ := h.walker hbld hhdr hdec hdsym
  exact ⟨hnodes, hroot, hcode, hcodeOk, hcur, hdone⟩

theorem State.raise_sameTables (s : State) (c : Cause) (x : Word64) : SameTables s (s.raise c x) := by
  rw [State.raise_same]
  exact ⟨rfl, rfl, rfl, rfl, rfl, rfl⟩

/-- Where the decoder leaves the walker: on a leaf of the sentinel with `DONE` = 1, else on the root it came from or an internal
node (R183). -/
def WalkerStands (s m : State) : Prop :=
  (m.done = true ∧ ∃ n, m.nodeAt m.cur = some n ∧ n.kind = .leaf ∧ n.sym = 256#9) ∨
    (m.done = false ∧ (m.cur = s.root ∨ ∃ n, m.nodeAt m.cur = some n ∧ n.kind = .int))

/-- What makes a property of the tree, the code table and the walker hold after every command: it looks at nothing else, it
holds where the tree was discarded, after a build and after a header was read, and `GEN` and the decoder keep it. -/
structure KeptByCommands (P : State → Prop) : Prop where
  congr : ∀ {s t : State}, P s → SameTables s t → P t
  discarded : ∀ s : State, P s.discardTree
  built : ∀ s : State, P (buildTree s)
  read : ∀ {t : CodeTree} {s : State}, t.isLeaf = false → t.size ≤ 513 → (∀ sym ∈ t.syms, sym.toNat ≤ 256) →
    P (headerRead t s)
  coded : ∀ {s : State} {t : CodeTree}, P s → s.root ≠ Config.nil → s.tree = some t →
    P { s with code := tableOf t, codeOk := true }
  walked : ∀ {s m : State}, P s → s.root ≠ Config.nil → BodyFrame s m → WalkerStands s m → P m

section
variable {P : State → Prop} (hP : KeptByCommands P)
include hP

theorem KeptByCommands.effect {i : Instr} {s m : State} {d : Word64} (hs : P s) (h : Effect i s m d) : P m := by
  have hw := h.writers
  cases i with
  | bld => rw [h.1]; exact hP.built s
  | hdr => obtain ⟨-, -, t, rest, -, hleaf, hsize, hsyms, rfl⟩ := h; exact hP.read hleaf hsize hsyms
  | gen => obtain ⟨-, hroot, t, htree, rfl⟩ := h; exact hP.coded hs hroot htree
  | dec =>
    obtain ⟨-, hroot, hframe, -, hdone, hleaf⟩ := h
    exact hP.walked hs hroot hframe (.inl ⟨hdone, hleaf⟩)
  | dsym =>
    obtain ⟨hroot, hframe, -, hhalt | ⟨hdone, hcur⟩⟩ := h
    · exact hP.walked hs hroot hframe (.inl hhalt)
    · exact hP.walked hs hroot hframe (.inr ⟨hdone, .inl hcur⟩)
  | fls | ldf | cnt | mgw | mgr | hdw | enc => exact hP.congr hs (hw.sameTables nofun nofun nofun nofun nofun)
  | clr | rds | rdf | rdn | rdw | rdc => exact h.elim

theorem KeptByCommands.abort {i : Instr} {s m : State} {c : Cause} (hs : P s) (h : Abort i s m c) : P m := by
  have hw := h.writers
  cases i with
  | hdr =>
    obtain ⟨-, h, -⟩ := h
    rw [h]
    exact hP.congr (hP.discarded s) ⟨rfl, rfl, rfl, rfl, rfl, rfl⟩
  | dec => obtain ⟨-, hroot, hframe, -, hstands⟩ := h; exact hP.walked hs hroot hframe (.inr hstands)
  | dsym => obtain ⟨-, hroot, hframe, -, hstands⟩ := h; exact hP.walked hs hroot hframe (.inr hstands)
  | cnt | mgr | enc => exact hP.congr hs (hw.sameTables nofun nofun nofun nofun nofun)
  | clr | fls | rds | ldf | rdf | bld | rdn | rdw | gen | rdc | mgw | hdw => exact h.elim

theorem KeptByCommands.exec {i : Instr} {s t : State} (hs : P s) (h : exec i s = .next t) : P t := by
  rcases exec_ends h with ⟨-, rfl⟩ | ⟨d, -, -, rfl⟩ | ⟨-, -, -, rfl⟩ | ⟨-, -, rfl⟩ | ⟨-, -, rfl⟩ | ⟨m, d, -, he, rfl⟩ |
    ⟨m, c, x, -, ha, rfl⟩
  · exact hP.congr (hP.discarded s) ⟨rfl, rfl, rfl, rfl, rfl, rfl⟩
  · exact hP.congr hs ⟨rfl, rfl, rfl, rfl, rfl, rfl⟩
  · exact hP.congr hs ⟨rfl, rfl, rfl, rfl, rfl, rfl⟩
  · exact hP.congr hs (s.raise_sameTables _ _)
  · exact hP.congr hs (s.raise_sameTables _ _)
  · exact hP.congr (hP.effect hs he) ⟨rfl, rfl, rfl, rfl, rfl, rfl⟩
  · exact hP.congr (hP.abort hs ha) (m.raise_sameTables c x)

/-- The host's own actions change no table but by a reset, which discards them all. -/
theorem KeptByCommands.step {s t : State} (hs : P s) (h : step s = .next t) : P t := by
  have haccept (rest : List HostEvent) : P { s with host := rest, ops := [] } :=
    hP.congr hs ⟨rfl, rfl, rfl, rfl, rfl, rfl⟩
  rcases step_ends h with rfl | ⟨i, rest, h⟩ | ⟨w, rest, rfl⟩ | ⟨rest, rfl⟩ | ⟨m, -, -, rfl⟩ | ⟨bits, pos, out, rest, -, rfl⟩
  · exact hs
  · exact hP.exec (haccept rest) h
  · exact hP.congr (haccept rest) (State.raise_sameTables _ _ _)
  · exact hP.congr hs ⟨rfl, rfl, rfl, rfl, rfl, rfl⟩
  · exact hP.congr (hP.discarded m) ⟨rfl, rfl, rfl, rfl, rfl, rfl⟩
  · exact hP.congr hs ⟨rfl, rfl, rfl, rfl, rfl, rfl⟩

end

/-! ## The tree -/

theorem keptByCommands_arenaOk : KeptByCommands ArenaOk where
  congr hs hsame := hs.congr hsame.root hsame.nodes
  discarded _ := .empty_of rfl rfl
  built s := (buildTree_arena s).1
  read := .of_headerRead
  coded hs _ _ := hs.congr rfl rfl
  walked hs _ hframe _ := hs.congr (by rw [hframe.1]) (by rw [hframe.1])

/-- Settles O52: the invariant looks at the arena and `ROOT` alone, and `BLD` and `HDR` establish it. -/
theorem stepKeepsTheTreeInvariant : Obligations.StepKeepsTheTreeInvariant := fun _ _ => keptByCommands_arenaOk.step

/-! ## The code table -/

/-- The invariant looks at the arena, `ROOT` and the code table. -/
theorem CodeOk.congr {s t : State} (h : CodeOk s) (hnodes : t.nodes = s.nodes) (hroot : t.root = s.root)
    (hcode : t.code = s.code) (hcodeOk : t.codeOk = s.codeOk) : CodeOk t := by
  have htree : t.tree = s.tree := by rw [State.tree, State.tree, hnodes, hroot]
  refine ⟨fun hok => ?_, fun hok => hcode.trans (h.cleared (hcodeOk ▸ hok))⟩
  rw [hroot, htree, hcode]
  exact h.current (hcodeOk ▸ hok)

/-- With `CODE_OK` = 0 and no valid entry the invariant holds, whatever the tree. -/
theorem CodeOk.of_cleared {s : State} (hok : s.codeOk = false) (hcode : s.code = Vector.replicate 257 CodeEntry.invalid) :
    CodeOk s :=
  ⟨fun h => absurd (hok.symm.trans h) Bool.false_ne_true, fun _ => hcode⟩

theorem keptByCommands_codeOk : KeptByCommands CodeOk where
  congr hs hsame := hs.congr hsame.nodes hsame.root hsame.code hsame.codeOk
  discarded _ := .of_cleared rfl rfl
  built s := .of_cleared (by rw [buildTree_frame]; rfl) (by rw [buildTree_frame]; rfl)
  read _ _ _ := .of_cleared rfl rfl
  coded _ hroot htree := ⟨fun _ => ⟨hroot, _, htree, rfl⟩, nofun⟩
  walked hs _ hframe _ := hs.congr (by rw [hframe.1]) (by rw [hframe.1]) (by rw [hframe.1]) (by rw [hframe.1])

/-- Settles O53: `GEN` makes the table of the tree, and whatever writes the tree clears the table. -/
theorem stepKeepsTheCodeTableCurrent : Obligations.StepKeepsTheCodeTableCurrent := fun _ _ => keptByCommands_codeOk.step

/-! ## The walker -/

/-- The invariant looks at the arena, `ROOT` and the walker. -/
theorem WalkerOk.congr {s t : State} (h : WalkerOk s) (hnodes : t.nodes = s.nodes) (hroot : t.root = s.root)
    (hcur : t.cur = s.cur) (hdone : t.done = s.done) : WalkerOk t := by
  have hat : t.nodeAt t.cur = s.nodeAt s.cur := by rw [State.nodeAt, State.nodeAt, hnodes, hcur]
  refine ⟨fun hd => ?_, fun hd => ?_, fun hr => ?_⟩
  · rw [hroot, hat]; exact h.halted (hdone ▸ hd)
  · rw [hat, hcur]; exact h.walking (hdone ▸ hd)
  · rw [hcur]; exact h.noTree (hroot ▸ hr)

/-- A walker that stands nowhere and has not halted. -/
theorem WalkerOk.of_idle {s : State} (hcur : s.cur = Config.nil) (hdone : s.done = false) : WalkerOk s :=
  ⟨fun h => absurd (hdone.symm.trans h) Bool.false_ne_true, fun _ => .inl hcur, fun _ => hcur⟩

/-- The decoder leaves the walker on a leaf of the sentinel or on an internal node, which the root of a sound arena is (R25
item 3). -/
theorem WalkerOk.of_walked {s m : State} (harena : ArenaOk s) (hroot : s.root ≠ Config.nil) (hframe : BodyFrame s m)
    (hstands : WalkerStands s m) : WalkerOk m := by
  have hrootM : m.root = s.root := by rw [hframe.1]
  have hnodes : m.nodes = s.nodes := by rw [hframe.1]
  obtain ⟨hdone, hleaf⟩ | ⟨hdone, hcur⟩ := hstands
  · exact ⟨fun _ => ⟨hrootM ▸ hroot, hleaf⟩, fun h => absurd (h.symm.trans hdone) Bool.false_ne_true,
      fun h => absurd (hrootM ▸ h) hroot⟩
  · refine ⟨fun h => absurd (hdone.symm.trans h) Bool.false_ne_true, fun _ => .inr ?_, fun h => absurd (hrootM ▸ h) hroot⟩
    obtain hcur | hint := hcur
    · rw [State.nodeAt, hnodes, hcur]; exact harena.rootInt hroot
    · exact hint

theorem keptByCommands_arenaOk_walkerOk : KeptByCommands fun s => ArenaOk s ∧ WalkerOk s where
  congr hs hsame := ⟨keptByCommands_arenaOk.congr hs.1 hsame, hs.2.congr hsame.nodes hsame.root hsame.cur hsame.done⟩
  discarded s := ⟨keptByCommands_arenaOk.discarded s, .of_idle rfl rfl⟩
  built s := ⟨keptByCommands_arenaOk.built s, .of_idle (by rw [buildTree_frame]; rfl) (by rw [buildTree_frame]; rfl)⟩
  read hleaf hsize hsyms := ⟨keptByCommands_arenaOk.read hleaf hsize hsyms, .of_idle rfl rfl⟩
  coded hs hroot htree := ⟨keptByCommands_arenaOk.coded hs.1 hroot htree, hs.2.congr rfl rfl rfl rfl⟩
  walked hs hroot hframe hstands :=
    ⟨keptByCommands_arenaOk.walked hs.1 hroot hframe hstands, .of_walked hs.1 hroot hframe hstands⟩

/-- Settles O54, together with the tree invariant, which says that the root the decoder goes back to is internal. -/
theorem stepKeepsTheWalkerInTheTree : Obligations.StepKeepsTheWalkerInTheTree :=
  fun _ _ harena hwalker h => (keptByCommands_arenaOk_walkerOk.step ⟨harena, hwalker⟩ h).2

/-! ## The fault registers and the response -/

/-- The invariant looks at the fault registers and the response. -/
theorem FaultOk.congr {s t : State} (h : FaultOk s) (hcause : t.cause = s.cause) (hinfo : t.info = s.info)
    (hrsp : t.rsp = s.rsp) : FaultOk t := by
  obtain ⟨h1, h2, h3⟩ := h
  refine ⟨?_, ?_, ?_⟩ <;> simp only [hcause, hinfo, hrsp] <;> assumption

/-- Any response that R211 and R92 allow may be offered. -/
theorem FaultOk.withRsp {s : State} (h : FaultOk s) {status : BitVec 8} {data : Word64} (hstatus : status.toNat ≤ 12)
    (hdata : status ≠ 0 → data = 0) : FaultOk { s with rsp := some ⟨status, data⟩ } :=
  ⟨h.cause, h.info, fun _ hr => Option.some.inj hr ▸ ⟨hstatus, hdata⟩⟩

theorem FaultOk.respond {s : State} (h : FaultOk s) (d : Word64) : FaultOk (s.respond d) :=
  h.withRsp (by decide) fun h => absurd rfl h

/-- Fault entry latches a cause of R211, if it latches one, and answers one (R220). -/
theorem FaultOk.raise {s : State} (h : FaultOk s) (c : Cause) (x : Word64) : FaultOk (s.raise c x) := by
  have hstatus : (c.code.setWidth 8).toNat ≤ 12 := by
    rw [BitVec.toNat_setWidth_of_le (by decide)]
    exact c.code_le.trans (by decide)
  by_cases hc : s.cause = 0#5
  · rw [State.raise_of_ok _ _ _ hc]
    exact ⟨c.code_le, fun hzero => absurd hzero c.code_ne_zero, fun _ hr => Option.some.inj hr ▸ ⟨hstatus, fun _ => rfl⟩⟩
  · rw [State.raise_of_err _ _ _ hc]
    exact h.withRsp hstatus fun _ => rfl

/-- The work of a command leaves the fault registers and the response alone. -/
theorem Untouched.faultOk {s m : State} (h : Untouched s m) (hs : FaultOk s) : FaultOk m := hs.congr h.cause h.info h.rsp

theorem exec_faultOk {i : Instr} {s t : State} (hs : FaultOk s) (h : exec i s = .next t) : FaultOk t := by
  rcases exec_ends h with ⟨-, rfl⟩ | ⟨d, -, -, rfl⟩ | ⟨-, -, -, rfl⟩ | ⟨-, -, rfl⟩ | ⟨-, -, rfl⟩ | ⟨m, d, -, he, rfl⟩ |
    ⟨m, c, x, -, ha, rfl⟩
  · exact ⟨Nat.zero_le 11, fun _ => rfl, (hs.respond 0).status⟩
  · exact hs.respond d
  · exact hs.withRsp (by decide) fun _ => rfl
  · exact hs.raise _ _
  · exact hs.raise _ _
  · exact (he.frame.faultOk hs).respond d
  · exact (ha.frame.faultOk hs).raise c x

/-- Settles O55: commands and illegal words latch and answer what they may, a reset clears, the host only takes responses. -/
theorem stepKeepsTheFaultRegistersLegal : Obligations.StepKeepsTheFaultRegistersLegal := by
  intro s t hs h
  have haccept (rest : List HostEvent) : FaultOk { s with host := rest, ops := [] } := hs.congr rfl rfl rfl
  rcases step_ends h with rfl | ⟨i, rest, h⟩ | ⟨w, rest, rfl⟩ | ⟨rest, rfl⟩ | ⟨m, -, -, rfl⟩ | ⟨bits, pos, out, rest, -, rfl⟩
  · exact hs
  · exact exec_faultOk (haccept rest) h
  · exact (haccept rest).raise _ _
  · exact ⟨hs.cause, hs.info, nofun⟩
  · exact ⟨Nat.zero_le 11, fun _ => rfl, nofun⟩
  · exact hs.congr rfl rfl rfl

/-! ## The queue and the cursor -/

/-- Only `BLD` and `CLR` write the queue, and both leave it empty (R26). -/
theorem exec_pq {i : Instr} {s t : State} (hq : s.pq = []) (h : exec i s = .next t) : t.pq = [] := by
  by_cases hclr : i = .clr
  · subst hclr
    injection h with h
    rw [← h]
    rfl
  by_cases hbld : i = .bld
  · subst hbld
    obtain ⟨-, h⟩ | ⟨-, rfl⟩ := unlessInError_next h
    · injection h with h
      rw [← h, buildTree_frame]
      rfl
    · exact hq
  · exact ((exec_writers hclr h).queue hbld).2.trans hq

/-- Settles O56: the queue by its writers, the cursor by what stream operations do to it. -/
theorem stepKeepsTheQueueEmptyAndTheCursorInside : Obligations.StepKeepsTheQueueEmptyAndTheCursorInside := by
  intro s t hq hpos h
  rcases step_ends h with rfl | ⟨i, rest, h⟩ | ⟨w, rest, rfl⟩ | ⟨rest, rfl⟩ | ⟨m, hm, hin, rfl⟩ |
    ⟨bits, pos, out, rest, hin, rfl⟩
  · exact ⟨hq, hpos⟩
  · exact ⟨exec_pq (s := { s with host := rest, ops := [] }) hq h, (exec_streamed h).bounds.2.2 hpos⟩
  · rw [State.raise_pq, State.raise_inPos, State.raise_inBits]; exact ⟨hq, hpos⟩
  · exact ⟨hq, hpos⟩
  · have hbits : m.inBits = s.inBits := by rw [hm]
    exact ⟨rfl, hbits ▸ hin hpos⟩
  · exact ⟨hq, hin⟩

/-! ## Reset -/

/-- Settles O51: after reset there is no tree, no code table, no walker, no fault and no stream. -/
theorem resetMeetsTheInvariants : Obligations.ResetMeetsTheInvariants :=
  ⟨.empty_of rfl rfl, .of_cleared rfl rfl, .of_idle rfl rfl, ⟨Nat.zero_le 11, fun _ => rfl, nofun⟩, rfl, Nat.le_refl 0⟩

end Sys2Proof.Machine
end

section
/-! PROOFS. What the tree invariant gives (`10_state.md` R25): a tree of bounded depth, codes of legal length, and a next state
for every command and every action of the host. -/

namespace Sys2Proof.Machine

/-! ## The tree -/

/-- The walk from the root of a sound arena ends, so it finds a tree (R25 item 1). -/
theorem ArenaOk.exists_tree {s : State} (h : ArenaOk s) (hr : s.root ≠ 0x3FF#10) : ∃ t, s.tree = some t := by
  obtain ⟨l, hl, -⟩ := h.reached hr
  exact (reach_isSome_iff _ _ _).mp ⟨l, hl⟩

/-- The tree uses every allocated entry, so it has `(NN + 1) / 2` leaves (R25 item 2). -/
theorem ArenaOk.two_mul_leaves {s : State} {t : CodeTree} (h : ArenaOk s) (hr : s.root ≠ 0x3FF#10) (ht : s.tree = some t) :
    2 * t.leaves = s.nodes.length + 1 := by
  rw [← h.size_tree hr ht, t.size_eq]

/-- A tree of at most 257 leaves is at most 256 deep (R25 item 5). -/
theorem ArenaOk.depth_le {s : State} {t : CodeTree} (h : ArenaOk s) (hr : s.root ≠ 0x3FF#10) (ht : s.tree = some t) :
    t.depth ≤ 256 := by
  have hleaves := h.two_mul_leaves hr ht
  have hsize : s.nodes.length ≤ 513 := h.size
  have hdepth := t.depth_lt_leaves
  omega

/-- Settles O57, part by part. -/
theorem soundArenaHoldsABoundedTree : Obligations.SoundArenaHoldsABoundedTree := by
  intro s h hr
  obtain ⟨t, ht⟩ := h.exists_tree hr
  exact ⟨t, ht, h.isLeaf_eq_false hr ht, h.two_mul_leaves hr ht, h.depth_le hr ht,
    toNat_le_of_mem_syms_treeAt h.records ht⟩

/-! ## The lengths of the codes -/

/-- A valid entry of a tree's table records the path of a leaf with its length (R151). -/
theorem tableOf_entry_of_valid {t : CodeTree} {i : Nat} (hi : i ≤ 256)
    (h : ((tableOf t)[i]?.getD CodeEntry.invalid).valid = true) :
    ∃ sym p, (sym, p) ∈ t.codes [] ∧ (tableOf t)[i]?.getD CodeEntry.invalid = CodeEntry.ofPath p := by
  rw [tableOf_get t i hi] at h ⊢
  obtain ⟨⟨sym, p⟩, hmem, -, hentry⟩ := lastPath_valid h
  exact ⟨sym, p, hmem, hentry⟩

/-- Settles O27: a code is the path of a leaf, which is not empty since the root is internal and at most as long as the tree is
deep, so that its length fits the nine bits of `len`. -/
theorem generatedCodesHaveLegalLengths : Obligations.GeneratedCodesHaveLegalLengths := by
  intro s u harena hc h hu i hi hvalid
  obtain ⟨t, hr, ht, rfl⟩ := eq_tableOf_of_exec_gen hc h hu
  obtain ⟨sym, p, hmem, hentry⟩ := tableOf_entry_of_valid hi hvalid
  have hpos := List.length_pos_of_ne_nil (CodeTree.code_ne_nil (harena.isLeaf_eq_false hr ht) hmem)
  have hle := (CodeTree.code_length_le hmem).trans (harena.depth_le hr ht)
  simp only [State.codeAt, hentry, CodeEntry.ofPath, BitVec.toNat_ofNat]
  omega

/-! ## Every step goes on -/

theorem unlessInError_goesOn {s : State} {o : StepResult} (h : s.cause = 0#5 → ∃ t, o = .next t) :
    ∃ t, unlessInError s o = .next t := by
  by_cases hc : s.cause = 0#5
  · rw [unlessInError_of_ok _ hc]; exact h hc
  · exact ⟨_, unlessInError_of_err _ hc⟩

theorem withOperand_goesOn {b : Bool} {i : Instr} {s : State} {o : StepResult} (h : ∃ t, o = .next t) :
    ∃ t, withOperand b i s o = .next t := by
  cases b with
  | true => exact h
  | false => exact ⟨_, rfl⟩

theorem withPrecondition_goesOn {b : Bool} {i : Instr} {s : State} {o : StepResult} (h : b = true → ∃ t, o = .next t) :
    ∃ t, withPrecondition b i s o = .next t := by
  cases b with
  | true => exact h rfl
  | false => exact ⟨_, rfl⟩

/-- A body that is not stuck ends in a response or in fault entry (R210). -/
theorem Exec.finish_goesOn {e : Exec Word64} (h : ∀ f, e ≠ .stuck f) : ∃ t, e.finish = .next t := by
  cases e with
  | ok d s => exact ⟨_, rfl⟩
  | raised c x s => exact ⟨_, rfl⟩
  | stuck f => exact absurd rfl (h f)

/-- The body of `DSYM` on a tree that is not a leaf. -/
theorem decodeSymbol_not_stuck {s : State} {t : CodeTree} (ht : s.tree = some t) (hl : t.isLeaf = false) (f : Fault) :
    decodeSymbol s ≠ .stuck f := by
  rw [decodeSymbol]
  cases hd : decodeOne s with
  | ok sym u => exact nofun
  | raised c x u => exact nofun
  | stuck g => exact absurd hd (decodeOne_not_stuck ht hl g)

/-- From a sound arena every command has a next state: the commands that walk the arena find a tree that is not a leaf. -/
theorem ArenaOk.exec_goesOn {s : State} (h : ArenaOk s) (i : Instr) : ∃ t, exec i s = .next t := by
  cases i with
  | clr => exact ⟨_, rfl⟩
  | rds | rdf | rdn | rdw | rdc => exact withOperand_goesOn ⟨_, rfl⟩
  | ldf => exact unlessInError_goesOn fun _ => withOperand_goesOn ⟨_, rfl⟩
  | fls | bld | mgw => exact unlessInError_goesOn fun _ => ⟨_, rfl⟩
  | cnt => exact unlessInError_goesOn fun _ => Exec.finish_goesOn (countBytes_spec s).2.2
  | mgr => exact unlessInError_goesOn fun _ => Exec.finish_goesOn (checkMagic_spec s).2.2
  | hdr => exact unlessInError_goesOn fun _ => Exec.finish_goesOn (readHeader_spec s).2.2
  | enc => exact unlessInError_goesOn fun _ => withPrecondition_goesOn fun _ =>
      Exec.finish_goesOn (encodeBody_spec s).2.2
  | gen =>
    refine unlessInError_goesOn fun _ => withPrecondition_goesOn fun hpre => ?_
    obtain ⟨t, ht⟩ := h.exists_tree ((hasTree_iff s).mp hpre)
    rw [ht]
    exact ⟨_, rfl⟩
  | hdw =>
    refine unlessInError_goesOn fun _ => withPrecondition_goesOn fun hpre => ?_
    obtain ⟨t, ht⟩ := h.exists_tree ((hasTree_iff s).mp hpre)
    rw [ht]
    exact ⟨_, rfl⟩
  | dec =>
    refine unlessInError_goesOn fun _ => withPrecondition_goesOn fun hpre => ?_
    obtain ⟨hr, -⟩ := (mayDecode_iff s).mp hpre
    obtain ⟨t, ht⟩ := h.exists_tree hr
    exact Exec.finish_goesOn fun f => decodeLoop_not_stuck (h.isLeaf_eq_false hr ht) f _ s ht
  | dsym =>
    refine unlessInError_goesOn fun _ => withPrecondition_goesOn fun hpre => ?_
    obtain ⟨hr, -⟩ := (mayDecode_iff s).mp hpre
    obtain ⟨t, ht⟩ := h.exists_tree hr
    exact Exec.finish_goesOn (decodeSymbol_not_stuck ht (h.isLeaf_eq_false hr ht))

theorem ArenaOk.runWord_goesOn {s : State} (h : ArenaOk s) (w : Word64) : ∃ t, runWord w s = .next t := by
  cases hd : decode w with
  | ok i => rw [runWord_of_ok hd]; exact h.exec_goesOn i
  | error r => exact ⟨_, runWord_of_error hd s⟩

/-- Settles O58: an action of the host that runs no word always has a next state, and a word has one from a sound arena. -/
theorem stepFromASoundArenaAlwaysGoesOn : Obligations.StepFromASoundArenaAlwaysGoesOn := by
  intro s h
  cases hh : s.host with
  | nil => exact ⟨s, by rw [step, hostStep, hh]⟩
  | cons e rest =>
    have haccepted : ArenaOk { s with host := rest, ops := [] } := h.congr rfl rfl
    rw [step, hostStep, hh]
    cases e with
    | takeResponse | reset | attach => exact ⟨_, rfl⟩
    | command w =>
      show ∃ t, acceptCommand w rest s = .next t
      rw [acceptCommand]
      split
      · exact haccepted.runWord_goesOn w
      · exact ⟨_, rfl⟩
    | resetDuring w k =>
      show ∃ t, resetDuringCommand w k rest s = .next t
      obtain ⟨t, ht⟩ := haccepted.runWord_goesOn w
      rw [resetDuringCommand, ht]
      split <;> exact ⟨_, rfl⟩

end Sys2Proof.Machine
end

section
/-! PROOFS. The tree builder (`41_tree_builder.md` R131 to R138): what `BLD` answers, the order `ExtractMin` takes entries
in, and the arena with one positive count and with more. -/

namespace Sys2Proof.Machine

/-! ## What `BLD` answers -/

/-- `BLD` out of error (R136). -/
theorem exec_bld_eq {s : State} (hc : s.cause = 0#5) : exec .bld s = .next ((buildTree s).respond 0) :=
  unlessInError_of_ok _ hc

/-- Settles O20: the frame of the builder and the invariant its arena satisfies. -/
theorem bldBuildsASoundTree : Obligations.BldBuildsASoundTree := by
  intro s hc
  obtain ⟨t, -, hexec, ht, harena, hroot, -⟩ := exec_bld_of_ok hc
  exact ⟨t, hexec, harena, hroot, ht⟩

/-- Settles O23: the builder reads nothing but the counts. -/
theorem bldDependsOnTheCountsAlone : Obligations.BldDependsOnTheCountsAlone := by
  intro s s' t t' hc hc' hfreq h h'
  have hsame := buildTree_sameBuilder hfreq
  have hb := (exec_bld_eq hc).symm.trans h
  have hb' := (exec_bld_eq hc').symm.trans h'
  generalize buildTree s = b at hsame hb
  generalize buildTree s' = b' at hsame hb'
  cases hb
  cases hb'
  obtain ⟨-, hnodes, -, hseq, hroot⟩ := hsame
  exact ⟨hnodes, hroot, hseq⟩

/-! ## One positive count -/

/-- With every byte count 0 the sentinel's is the only positive count (R23). -/
theorem positiveSyms_of_empty {s : State} (h : ∀ i, i < 256 → s.freqAt i = 0#32) : positiveSyms s = [256] := by
  have hbytes : (List.range 256).filter (fun i => s.freqAt i != 0) = [] := by
    rw [List.filter_eq_nil_iff]
    intro i hi
    simp [h i (List.mem_range.mp hi)]
  rw [positiveSyms, List.range_succ, List.filter_append, hbytes, List.nil_append, List.filter_singleton, State.freqAt_sent]
  rfl

/-- Settles O22: the single-symbol case of the builder. -/
theorem bldOfAnEmptyCountMakesTheTwinLeaf : Obligations.BldOfAnEmptyCountMakesTheTwinLeaf := by
  intro s hc hempty
  rw [exec_bld_eq hc, buildTree_single (by rw [positiveSyms_of_empty hempty]; rfl)]
  rfl

/-! ## The order of `ExtractMin` -/

/-- The entry taken has no greater weight than an entry left, and at equal weight no greater sequence number (R132). -/
theorem extractMin_le {q rest : List QEntry} {m : QEntry} (h : extractMin q = some (m, rest)) : ∀ e ∈ rest,
    m.weight.toNat < e.weight.toNat ∨ (m.weight.toNat = e.weight.toNat ∧ m.seq.toNat ≤ e.seq.toNat) := by
  intro e he
  have hnot := extractMin_least h e he
  rw [← Bool.not_eq_true, QEntry.before_iff] at hnot
  omega

/-- The next entry taken is one of those left (R132). -/
theorem extractMin_mem {q rest : List QEntry} {m : QEntry} (h : extractMin q = some (m, rest)) : m ∈ q :=
  (extractMin_perm h).mem_iff.mpr List.mem_cons_self

/-- What `BLD` leaves with at least two positive counts: the forest of one tree, under its root, which begins with the leaves
(R131, R134). -/
theorem exec_bld_forest {s : State} (hc : s.cause = 0#5) (h : 2 ≤ (positiveSyms s).length) :
    ∃ (t u : State) (e : QEntry), exec .bld s = .next t ∧
      Forest (positiveSyms s).length (s.leafPairs (List.range 257)) u ∧ u.pq = [e] ∧
      t.nodes = u.nodes ∧ t.root = e.node ∧ t.seq = u.seq ∧ (positiveSyms s).map s.leafNode <+: u.nodes := by
  obtain ⟨u, e, hbuild, hforest, hpq, -, hleaves⟩ := buildTree_many h
  have hexec := exec_bld_eq hc
  rw [hbuild] at hexec
  exact ⟨_, u, e, hexec, hforest, hpq, rfl, rfl, rfl, hleaves⟩

/-- Settles O19: the order of one extraction, which orders two in a row, and the merges as the forest's order records them. -/
theorem extractMinTakesTheLeastEntry : Obligations.ExtractMinTakesTheLeastEntry := by
  refine ⟨fun q => ⟨extractMin_eq_none_iff.mp, fun m rest h => ⟨extractMin_perm h, extractMin_le h, fun b rest' h' => ?twice⟩⟩,
    fun s hc hmany => ?merges⟩
  case twice =>
    obtain hlt | ⟨heq, hseq⟩ := extractMin_le h b (extractMin_mem h')
    · exact ⟨Nat.le_of_lt hlt, fun he => absurd (congrArg BitVec.toNat he) (Nat.ne_of_lt hlt)⟩
    · exact ⟨Nat.le_of_eq heq, fun _ => hseq⟩
  case merges =>
    obtain ⟨t, u, e, hexec, hforest, hpq, hnodes, -⟩ := exec_bld_forest hc hmany
    obtain ⟨hlength, -⟩ := hforest.single hpq hmany
    refine ⟨t, hexec, ?_⟩
    rw [hnodes]
    exact ⟨hlength, hforest.order.merged⟩

/-! ## The leaves and the weight of the root -/

/-- Symbols with count 0 add nothing to the sum of the leaves' weights (R131). -/
theorem leafPairs_sum (s : State) (syms : List Nat) :
    ((s.leafPairs syms).map fun p => p.2.toNat).sum = (syms.map fun i => (s.freqAt i).toNat).sum := by
  have hweight (i : Nat) : (s.leafWeight i).toNat = (s.freqAt i).toNat := BitVec.toNat_setWidth_of_le (by decide)
  induction syms with
  | nil => rfl
  | cons i syms ih =>
    by_cases hzero : s.freqAt i = 0#32
    · have hskip : s.leafPairs (i :: syms) = s.leafPairs syms := by simp [State.leafPairs, State.positives, hzero]
      rw [hskip, ih, List.map_cons, List.sum_cons, hzero]
      exact (Nat.zero_add _).symm
    · have htake : s.leafPairs (i :: syms) = (BitVec.ofNat 9 i, s.leafWeight i) :: s.leafPairs syms := by
        simp [State.leafPairs, State.positives, hzero]
      rw [htake, List.map_cons, List.sum_cons, ih, hweight, List.map_cons, List.sum_cons]

/-- Settles O21: the leaves come first and stay there, and the last tree of the forest is over all of them. -/
theorem bldLeavesAreThePositiveCounts : Obligations.BldLeavesAreThePositiveCounts := by
  intro s t hc h hmany
  obtain ⟨t', u, e, hexec, hforest, hpq, hnodes, hroot, hseq, hleaves⟩ := exec_bld_forest hc hmany
  cases hexec.symm.trans h
  obtain ⟨hlength, hlast, ⟨tr, htree, hleafs, hweight⟩, -⟩ := hforest.single hpq hmany
  have hbound := hforest.bound
  rw [State.tree, hnodes, hroot, hseq, hforest.seqIs]
  refine ⟨hlength, hlast, ?seq, ?leaves, tr, htree, hleafs, hweight.trans (leafPairs_sum s _)⟩
  case seq => rw [BitVec.toNat_ofNat, Nat.mod_eq_of_lt (by omega), hlength]
  case leaves =>
    have htake := List.prefix_iff_eq_take.mp hleaves
    rw [List.length_map] at htake
    exact htake.symm

end Sys2Proof.Machine
end

section
/-! PROOFS. The faults of `HDR` (`43_header.md` R165 to R169, `60_exceptions.md` R227): a read that raises ends in fault
entry on the state without a tree, and which fault it is. -/

namespace Sys2Proof.Machine

/-- `HDR` out of error is the end of its body (R168). -/
theorem exec_hdr_of_ok {s : State} (hc : s.cause = 0#5) : exec .hdr s = (readHeader s).finish := unlessInError_of_ok _ hc

/-- A body that raises ends in fault entry, with the partial tree discarded (R168, R227). -/
theorem exec_hdr_of_raised {s m : State} {c : Cause} {info : Word64} (hc : s.cause = 0#5)
    (h : readHeader s = .raised c info m) :
    exec .hdr s = .next { s.discardTree with
      inPos := m.inPos, ops := m.ops, cause := c.code, info := info, rsp := some ⟨c.code.setWidth 8, 0⟩ } := by
  have hm := ((readHeader_spec s).2.1 _ _ _ h).1
  have hcause : m.cause = 0#5 := by rw [hm]; exact hc
  rw [exec_hdr_of_ok hc, h, Exec.finish, State.raise_of_ok _ _ _ hcause, hm]

/-- The causes of `HDR` by their codes (R211). -/
theorem Cause.code_of_header {c : Cause}
    (h : c = .truncatedHeader ∨ c = .badSymbol ∨ c = .treeOverflow ∨ c = .degenerateTree) :
    c.code = 2 ∨ c.code = 8 ∨ c.code = 9 ∨ c.code = 10 := by
  obtain rfl | rfl | rfl | rfl := h <;> decide

/-- Settles O34: a body that answered would have left the cause 0, so it raised. -/
theorem faultingHdrLeavesNoTree : Obligations.FaultingHdrLeavesNoTree := by
  intro s u hc h hu
  obtain ⟨hok, hraised, -⟩ := readHeader_spec s
  obtain ⟨d, m, hm, rfl⟩ | ⟨c, x, m, hm, -⟩ := Exec.finish_next ((exec_hdr_of_ok hc).symm.trans h)
  · obtain ⟨-, -, t, rest, -, -, -, -, rfl⟩ := hok d m hm
    exact absurd hc hu
  · obtain ⟨-, hpos, -, hcause⟩ := hraised c x m hm
    cases (exec_hdr_of_raised hc hm).symm.trans h
    exact ⟨Cause.code_of_header hcause, hpos, rfl⟩

/-- The fault registers and the cursor after a header that does not end (R168). -/
theorem exec_hdr_of_open {s : State} {items : List HeaderItem} {tail : List Bool} {code : BitVec 5} {info : Word64} {used : Nat}
    (hc : s.cause = 0#5) (ho : OpenHeader items) (hf : HeaderFault items.length tail code info used)
    (ha : s.ahead = itemBits items ++ tail) :
    ∃ u, exec .hdr s = .next u ∧ u.cause = code ∧ u.info = info ∧ u.inPos = s.inPos + (itemBits items).length + used := by
  obtain ⟨c, m, hm, rfl, hpos⟩ := readHeader_open ho hf ha
  exact ⟨_, exec_hdr_of_raised hc hm, rfl, rfl, hpos⟩

/-- Settles O35: a lone leaf is read and refused as a root, items that do not end stop in one of four ways, and a proper
beginning of a sound header is such items with a tail that is too short. -/
theorem hdrNamesTheFaultItMeets : Obligations.HdrNamesTheFaultItMeets := by
  refine fun s hc => ⟨fun sym rest hsym ha => ?lone, fun items tail code info used ho hf ha => exec_hdr_of_open hc ho hf ha,
    fun t hleaves hsyms hprefix hne => ?beginning⟩
  case lone => exact ⟨_, exec_hdr_of_raised hc (readHeader_leaf (w := 0) ha hsym), rfl, rfl, rfl⟩
  case beginning =>
    obtain ⟨items, tail, info, used, ho, hf, ha⟩ := CodeTree.prefix_truncated hleaves hsyms hprefix hne
    exact ⟨items, tail, info, used, ho, hf, ha, exec_hdr_of_open hc ho hf ha⟩

end Sys2Proof.Machine
end

section
/-! PROOFS. The body codec (`44_body.md` R181 to R185): `ENC` with and without a missing code, one symbol by `DSYM`, and
`DEC` as repeated `DSYM`. -/

namespace Sys2Proof.Machine

/-! ## `ENC` -/

/-- `ENC` with a code table is the end of its body (R181). -/
theorem exec_enc_of_codeOk {s : State} (hc : s.cause = 0#5) (hok : s.codeOk = true) :
    exec .enc s = (encodeBody s).finish := by
  show unlessInError s (withPrecondition s.codeOk .enc s (encodeBody s).finish) = _
  rw [unlessInError_of_ok _ hc, hok]
  rfl

/-- `ENC` that meets a missing code (R181, R227). -/
theorem exec_enc_of_raised {s m : State} {c : Cause} {x : Word64} (hc : s.cause = 0#5) (hok : s.codeOk = true)
    (h : encodeBody s = .raised c x m) (hm : m.cause = 0#5) :
    exec .enc s = .next { m with cause := c.code, info := x, rsp := some ⟨c.code.setWidth 8, 0⟩ } := by
  rw [exec_enc_of_codeOk hc hok, h, Exec.finish, State.raise_of_ok _ _ _ hm]

/-- The turns `ENC` allows its loop are enough for the bytes of IN (R181). -/
theorem takeBytes_length_lt_fuel (l : List Bool) : (takeBytes l).length < l.length / 8 + 1 := by
  rw [takeBytes_length]
  exact Nat.lt_succ_self _

/-- Settles O36: the loop and then the sentinel's symbol. -/
theorem encAppendsTheCodes : Obligations.EncAppendsTheCodes := by
  intro s hc hok hbytes hsent
  obtain ⟨u, ops, hexec, rfl⟩ := exec_enc_of_coded hc hok hbytes hsent
  exact ⟨_, hexec, rfl⟩

/-- The body of `ENC` up to the first byte without a code (R181). -/
theorem encodeBody_of_missing_byte {s : State} {pre post : List Byte} {b : Byte} (h : takeBytes s.inBits = pre ++ b :: post)
    (hpre : ∀ a ∈ pre, (s.codeAt a.toNat).valid = true) (hb : (s.codeAt b.toNat).valid = false) :
    ∃ ops, encodeBody s = .raised .missingCode (b.setWidth 64) { s with
      inPos := 8 * (pre.length + 1), ops := ops,
      outItems := s.outItems ++ (pre.flatMap fun a => (s.codeAt a.toNat).bits).map .bit } := by
  have hfuel : pre.length < s.inBits.length / 8 + 1 := by
    have hlt := takeBytes_length_lt_fuel s.inBits
    rw [h, List.length_append] at hlt
    omega
  obtain ⟨m, hloop, hm⟩ := encodeLoop_missing pre _ s.inRewind b post h hfuel hpre hb
  refine ⟨m.ops, ?_⟩
  rw [encodeBody, hloop, hm]
  simp [State.inRewind, State.codeAt]

/-- The body of `ENC` where every byte has a code and the sentinel has none (R181). -/
theorem encodeBody_of_missing_sent {s : State} (hbytes : ∀ b ∈ takeBytes s.inBits, (s.codeAt b.toNat).valid = true)
    (hsent : (s.codeAt 256).valid = false) :
    ∃ ops, encodeBody s = .raised .missingCode 256 { s with
      inPos := 8 * (takeBytes s.inBits).length, ops := ops,
      outItems := s.outItems ++ ((takeBytes s.inBits).flatMap fun a => (s.codeAt a.toNat).bits).map .bit } := by
  obtain ⟨m, hloop, hm⟩ := encodeLoop_ok (takeBytes s.inBits) _ s.inRewind rfl (takeBytes_length_lt_fuel s.inBits) hbytes
  have hcode : m.codeAt 256 = s.codeAt 256 := by rw [hm]; rfl
  refine ⟨m.ops, ?_⟩
  rw [encodeBody, hloop]
  show encodeSymbol 256 m = _
  rw [encodeSymbol_of_invalid (hcode ▸ hsent), hm]
  simp [State.inRewind, State.codeAt]

/-- Settles O37: fault entry on what the body of `ENC` has written so far. -/
theorem encRaisesMissingCode : Obligations.EncRaisesMissingCode := by
  refine fun s hc hok => ⟨fun pre post b h hpre hb => ?byte, fun hbytes hsent => ?sent⟩
  case byte =>
    obtain ⟨ops, hbody⟩ := encodeBody_of_missing_byte h hpre hb
    exact ⟨_, exec_enc_of_raised hc hok hbody hc, rfl⟩
  case sent =>
    obtain ⟨ops, hbody⟩ := encodeBody_of_missing_sent hbytes hsent
    exact ⟨_, exec_enc_of_raised hc hok hbody hc, rfl⟩

/-! ## `DSYM` -/

/-- A decoder with a tree and a walker that has not halted gets past its precondition (R184). -/
theorem mayDecode_of {s : State} (hr : s.root ≠ 0x3FF#10) (hd : s.done = false) : s.mayDecode = true :=
  (mayDecode_iff s).mpr ⟨hr, hd⟩

/-- `DSYM` with its precondition is the end of its body (R183). -/
theorem exec_dsym_of_mayDecode {s : State} (hc : s.cause = 0#5) (hr : s.root ≠ 0x3FF#10) (hd : s.done = false) :
    exec .dsym s = (decodeSymbol s).finish := by
  show unlessInError s (withPrecondition s.mayDecode .dsym s (decodeSymbol s).finish) = _
  rw [unlessInError_of_ok _ hc, mayDecode_of hr hd]
  rfl

/-- `DEC` with its precondition is the end of its loop (R185). -/
theorem exec_dec_of_mayDecode {s : State} (hc : s.cause = 0#5) (hr : s.root ≠ 0x3FF#10) (hd : s.done = false) :
    exec .dec s = (decodeLoop (s.inBits.length + 1) s).finish := by
  show unlessInError s (withPrecondition s.mayDecode .dec s (decodeLoop (s.inBits.length + 1) s).finish) = _
  rw [unlessInError_of_ok _ hc, mayDecode_of hr hd]
  rfl

/-- `DSYM` that decodes a symbol (R183). -/
theorem exec_dsym_of_symbol {s m : State} {sym : Sym} (hc : s.cause = 0#5) (hr : s.root ≠ 0x3FF#10) (hd : s.done = false)
    (h : decodeOne s = .ok sym m) : exec .dsym s = .next (m.respond (symbolRecord sym)) := by
  rw [exec_dsym_of_mayDecode hc hr hd, decodeSymbol, h]
  rfl

/-- `DSYM` that meets the end of IN (R183, R227). -/
theorem exec_dsym_of_raised {s m : State} {c : Cause} {x : Word64} (hc : s.cause = 0#5) (hr : s.root ≠ 0x3FF#10)
    (hd : s.done = false) (h : decodeOne s = .raised c x m) : exec .dsym s = .next (m.raise c x) := by
  rw [exec_dsym_of_mayDecode hc hr hd, decodeSymbol, h]
  rfl

/-- The data of `DSYM` for a symbol other than the sentinel: `END` = 0 and the symbol (R92). -/
theorem symbolRecord_of_ne {sym : Sym} (h : sym ≠ 256#9) : symbolRecord sym = sym.setWidth 64 := by
  rw [symbolRecord, beq_eq_false_iff_ne.mpr h]
  apply BitVec.eq_of_toNat_eq
  rw [BitVec.toNat_setWidth_of_le (by decide), BitVec.toNat_append, BitVec.toNat_append]
  simp

/-- Settles O38: one symbol decoded, at the sentinel and elsewhere. -/
theorem dsymDecodesTheLeafItsBitsLeadTo : Obligations.DsymDecodesTheLeafItsBitsLeadTo := by
  intro s t sym p rest hc hr hd ht hl hmem ha
  obtain ⟨hhalt, hemit⟩ := decodeOne_ok ht hl hmem ha
  refine ⟨fun hsent => ?sentinel, fun hne => ?byte⟩
  case sentinel =>
    obtain ⟨m, n, hone, hm, hwalk, hn⟩ := hhalt hsent
    refine ⟨_, exec_dsym_of_symbol hc hr hd hone, ?_, hwalk, n, hn⟩
    rw [hsent, hm]
    rfl
  case byte =>
    refine ⟨_, exec_dsym_of_symbol hc hr hd (hemit hne), ?_⟩
    rw [symbolRecord_of_ne hne]
    rfl

/-- Settles O39: fault entry where the bits run out, on the node they lead to. -/
theorem dsymRaisesTruncatedBody : Obligations.DsymRaisesTruncatedBody := by
  intro s t sym p hc hr hd ht hl hmem hprefix hne
  obtain ⟨m, n, hone, hm, hwalk, hn, hint⟩ := decodeOne_truncated ht hl hmem hprefix hne
  have hcause : m.cause = 0#5 := by rw [hm]; exact hc
  have hexec := exec_dsym_of_raised hc hr hd hone
  rw [State.raise_of_ok _ _ _ hcause] at hexec
  refine ⟨_, hexec, ?state, hwalk, fun hnil => ?root, n, hn, hint⟩
  case state => rw [hm]; rfl
  case root =>
    rw [hnil] at hwalk
    exact (Option.some.inj hwalk).symm

/-! ## `DEC` -/

/-- Settles O40: the loop over the codes of a body and then the sentinel's. -/
theorem decDecodesABody : Obligations.DecDecodesABody :=
  fun _ _ _ _ _ _ hc hr hd ht hl hbody hsent ha => exec_dec_of_body hc hr hd ht hl hbody hsent ha

/-- The response that ends a command does not depend on the one pending before. -/
theorem Exec.finish_withRsp (r : Option Response) (e : Exec Word64) : (e.withRsp r).finish = e.finish := by
  cases e with
  | ok d m => rfl
  | stuck f => rfl
  | raised c x m =>
    show Host.Outcome.next (State.raise c x { m with rsp := r }) = .next (m.raise c x)
    rw [State.raise, State.raise]

/-- A decoded symbol leaves the tree and the fault registers alone and moves the cursor on within IN. -/
theorem decodeOne_progress {s m : State} {sym : Sym} (h : decodeOne s = .ok sym m) :
    m.cause = s.cause ∧ m.root = s.root ∧ m.inBits = s.inBits ∧ s.inPos < m.inPos ∧ m.inPos ≤ s.inBits.length := by
  obtain ⟨⟨hm, -⟩, -, hlt, hle, -⟩ := (decodeOne_spec s).1 sym m h
  have hbits : m.inBits = s.inBits := by rw [hm]
  exact ⟨by rw [hm], by rw [hm], hbits, hlt, hbits ▸ hle⟩

/-- The turns of `DEC` one by one: each is what a `DSYM` does but for its response, and the bound on the turns is not met, since
each turn moves the cursor (R185). -/
theorem decodeLoop_dsymRun : ∀ (fuel : Nat) (s u : State), 0 < fuel → s.inBits.length < fuel + s.inPos → s.cause = 0#5 →
    s.root ≠ 0x3FF#10 → s.done = false → (decodeLoop fuel s).finish = .next u →
      ∃ v, DsymRun s v ∧ { u with rsp := v.rsp } = v := by
  intro fuel
  induction fuel with
  | zero => exact fun s u hpos => absurd hpos (Nat.lt_irrefl 0)
  | succ fuel ih =>
    intro s u _ hfuel hc hr hd h
    rw [decodeLoop] at h
    cases hone : decodeOne s with
    | stuck f => rw [hone] at h; cases h
    | raised c x m =>
      rw [hone] at h
      cases h
      have hcause : (m.raise c x).cause ≠ 0#5 := by
        rw [State.raise_cause]
        split
        · exact c.code_ne_zero
        · assumption
      exact ⟨m.raise c x, .last _ _ (exec_dsym_of_raised hc hr hd hone) (.inr hcause), rfl⟩
    | ok sym m =>
      rw [hone] at h
      have hexec := exec_dsym_of_symbol hc hr hd hone
      by_cases hdone : m.done = true
      · simp only [hdone, if_true] at h
        cases h
        exact ⟨m.respond (symbolRecord sym), .last _ _ hexec (.inl hdone), rfl⟩
      · simp only [hdone] at h
        obtain ⟨hcause, hroot, hbits, hlt, hle⟩ := decodeOne_progress hone
        have hrest : (decodeLoop fuel (m.respond (symbolRecord sym))).finish = .next u := by
          rw [State.respond, decodeLoop_withRsp, Exec.finish_withRsp]
          exact h
        have hdone' : m.done = false := Bool.eq_false_of_not_eq_true hdone
        obtain ⟨v, hrun, hv⟩ := ih (m.respond (symbolRecord sym)) u (by omega)
          (by show m.inBits.length < fuel + m.inPos; rw [hbits]; omega) (hcause.trans hc) (by rwa [State.respond_root, hroot])
          hdone' hrest
        exact ⟨v, .more _ _ _ hexec hdone' (hcause.trans hc) hrun, hv⟩

/-- Settles O41: `DEC` starts with one turn more than IN has bits. -/
theorem decIsRepeatedDsym : Obligations.DecIsRepeatedDsym := by
  intro s u hc hr hd h
  rw [exec_dec_of_mayDecode hc hr hd] at h
  exact decodeLoop_dsymRun _ s u (Nat.succ_pos _) (by omega) hc hr hd h

end Sys2Proof.Machine
end
